-- ==== Sys2Proof/Word.lean ====
section
/-! DEFINITION. The plain word types of LZ4BD. A quantity the spec computes with exactly (a cursor, a length, a size)
is a `Nat`; a value the spec treats as bits of a fixed width is a bit vector. -/

namespace Sys2Proof

/-- A byte of either memory space (R10, R60). -/
abbrev Byte := BitVec 8

/-- A 4-bit field of a token (R91). -/
abbrev Nibble := BitVec 4

/-- The 16-bit match offset (R21, R94). -/
abbrev Half := BitVec 16

/-- A 32-bit selector counter (R32). -/
abbrev Count := BitVec 32

/-- A 64-bit quantity: `EST`, `TIME` and their differences (R32, R34). -/
abbrev Wide := BitVec 64

/-- A variant index v: 0, 1, 2 name the decoders of copy width 8, 16, 32 (R3, D12). Value 3 does not exist (R31). -/
abbrev Variant := Fin 3

end Sys2Proof
end

