-- ==== Sys2Proof/Config.lean ====
section
/-! DEFINITION. What an instance of LZ4BD fixes (R8): the decided constants, the parameters the spec leaves open, and
the free values, which have no body, so that nothing can be proved about what they are. -/

namespace Sys2Proof.Config

/-- `AW`, the width in bits of cursors, lengths, sizes and addresses (R8, D1). -/
def aw : Nat := 64

/-- One past the last address of the host's memory: 2^`AW` (R68). -/
def addrLimit : Nat := 2 ^ aw

/-- `MAXSIZE` = 2^(AW−9) − 1 (R8, D2). -/
def maxSize : Nat := 2 ^ (aw - 9) - 1

/-- `MINMATCH`, the bias of the stored match length (R8, R95). -/
def minMatch : Nat := 4

/-- `NV`, the number of decoder variants (R8). -/
def numVariants : Nat := 3

/-- `THRESHOLD`: a command with `DST_SIZE` at or above it is measured (R8, R214, D13). -/
def threshold : Nat := 32768

/-- `EXPLORE_PERIOD` of the reference policy (R8, D14). -/
def explorePeriod : Nat := 64

/-- `EWMA_SHIFT` of the reference policy (R8, D14). -/
def ewmaShift : Nat := 3

/-- `SCALE`, the fixed-point scale of a throughput sample (R8, D14). -/
def scale : Nat := 2 ^ 16

/-- The least admissible `SLACK` (R8, R9, D3). -/
def minSlack : Nat := 31

/-- `OCPU_IMPL`, the two realisations of the overlap copy (R8, R127, R128, D23). -/
inductive OcpuImpl where
  | shuffle
  | scalar
  deriving DecidableEq, Repr

/-- The parameters R8 calls open. They are carried in the state and never change, so a statement about every state is a
statement about every instance. -/
structure Params where
  /-- `SLACK`, readable source bytes after the block; at least 31, default 64 (R9, D3). -/
  slack : Nat
  /-- `OCPU_IMPL` (D23). -/
  ocpuImpl : OcpuImpl
  /-- `N_LANES`, at least 1 (D17). -/
  nLanes : Nat
  /-- `N_CTX`, at least 1, default 1 (D17). -/
  nCtx : Nat
  /-- `TICK_HZ`, positive; no rule depends on it (D15). -/
  tickHz : Nat
  deriving DecidableEq, Repr

/-- The constraints R8 puts on the open parameters. -/
abbrev Params.wf (p : Params) : Prop := minSlack ≤ p.slack ∧ 1 ≤ p.nLanes ∧ 1 ≤ p.nCtx ∧ 0 < p.tickHz

/-- The instance `State.reset` uses: the spec's defaults for `SLACK` and `N_CTX`; it gives none for `OCPU_IMPL`,
`N_LANES` and `TICK_HZ` (DESIGN CHOICE, log entry 3). -/
def Params.default : Params where
  slack := 64
  ocpuImpl := .shuffle
  nLanes := 2
  nCtx := 1
  tickHz := 1

/-- FREE VALUE: how far `TIME` has moved since the last step, one value per draw (R34, R36; log entry 5). -/
opaque tick : Nat → Nat

/-- FREE VALUE: what a byte of DST holds after a failed command, per draw and index (R240, D26; log entry 6). -/
opaque freeByte : Nat → Nat → Byte

/-- FREE VALUE: what a working register of a lane holds once the lane is idle again, per draw and register
(R240, 93 item 14; log entry 7). -/
opaque freeWord : Nat → Nat → Wide

end Sys2Proof.Config
end

