-- ==== Sys2Proof/Syntax.lean ====
section
/-! DEFINITION. The operations of LZ4BD: one constructor of `Instr` for each of the 22 rows of
spec/opcode_table.json, the host's command record, and the assembler notation of R102 and R103. -/

namespace Sys2Proof

/-- The command record of R210: five fields, with no binary layout (D17). Addresses and sizes are `AW`-bit numbers
(`Command.wf` says so). -/
structure Command where
  /-- `source`, the address of `SRC[0]`. -/
  source : Nat
  /-- `dest`, the address of `DST[0]`. -/
  dest : Nat
  /-- `source_size`, the number S of bytes of the compressed block. -/
  sourceSize : Nat
  /-- `dest_size`, the declared decompressed size D. -/
  destSize : Nat
  /-- `stats`, the index of the selector context to use. -/
  stats : Nat
  deriving DecidableEq, Repr

/-- One operation of the hardware. The stream's elements (`seq` to `offset`) carry the bits of their own encoding; their
other operands stand in the stream after them (R90, R163). The micro-operations, transactions and the command have no
encoding (R101) and carry the operands R14 writes in their calls. -/
inductive Instr where
  /-- `SEQ`: token `llllmmmm`, both nibbles below 15 (R163). -/
  | seq (ll ml : Nibble)
  /-- `SEQ.XL`: token `1111mmmm`, a literal-length extension follows (R164). -/
  | seqXL (ml : Nibble)
  /-- `SEQ.XM`: token `llll1111`, a match-length extension follows the offset (R165). -/
  | seqXM (ll : Nibble)
  /-- `SEQ.XLXM`: token `11111111`, both extensions (R166). -/
  | seqXLXM
  /-- `EXT.CONT`: extension byte 255, another follows (R100, R153). -/
  | extCont
  /-- `EXT.END`: any other extension byte, the last of its run (R100, R153). -/
  | extEnd (value : Byte)
  /-- `OFFSET`: the two-byte little-endian match offset (R94, R158). -/
  | offset (off : Half)
  /-- `COPYOVERLAP_W(t, m, n)` (R124). -/
  | copyOverlap8 (t m n : Nat)
  | copyOverlap16 (t m n : Nat)
  | copyOverlap32 (t m n : Nat)
  /-- `COPYFROMOUTPUT_W(t, s)` (R121). -/
  | copyFromOutput8 (t src : Nat)
  | copyFromOutput16 (t src : Nat)
  | copyFromOutput32 (t src : Nat)
  /-- `WILDCOPYIN_W(t, s, size)` (R123). -/
  | wildCopyIn8 (t src size : Nat)
  | wildCopyIn16 (t src size : Nat)
  | wildCopyIn32 (t src size : Nat)
  /-- `WILDCOPYOUT_W(t, s, size)` (R122). -/
  | wildCopyOut8 (t src size : Nat)
  | wildCopyOut16 (t src size : Nat)
  | wildCopyOut32 (t src size : Nat)
  /-- `SELECT(ctx)` (R192). -/
  | select (ctx : Nat)
  /-- `UPDATE(ctx, v, elapsed, bytes)` (R193). -/
  | update (ctx : Nat) (v : Variant) (elapsed : Wide) (bytes : Nat)
  /-- `DECOMPRESS(cmd)` (R212). -/
  | decompress (cmd : Command)
  deriving DecidableEq, Repr

/-- One line of the assembler notation (R102) or of its pseudo-instructions (R103). -/
inductive AsmLine where
  /-- `SEQ lit=<bytes>, off=<n>, mlen=<m>`: a non-final sequence. -/
  | seqLine (lit : List Byte) (off mlen : Nat)
  /-- `END lit=<bytes> [, ml=<k>]`: the final sequence; `ml` is the nibble the decoder ignores. -/
  | endLine (lit : List Byte) (ml : Nat)
  /-- `REP <byte>, <n>`: n copies of a byte by an overlap copy with offset 1. -/
  | repLine (b : Byte) (n : Nat)
  /-- `RAW <bytes>`: the bytes unchanged. -/
  | rawLine (bytes : List Byte)
  deriving DecidableEq, Repr

end Sys2Proof
end

