-- ==== Sys2Proof/WellFormed.lean ====
section
/-! DEFINITION. What can be checked of an operation without a state: that a token form has the nibbles its name says
(R96), that an extension byte has its own spelling (R100), and the preconditions of the micro-operations and of the
command that mention no state (R121 to R124, R211 (b)). -/

namespace Sys2Proof

/-- The part of R211 (b) that needs no state: `AW`-bit fields, sizes at most `MAXSIZE`, and an output region that does
not wrap past 2^`AW`. -/
def Command.wf (c : Command) : Bool :=
  decide (c.source < Config.addrLimit) && decide (c.dest < Config.addrLimit)
    && decide (c.sourceSize ≤ Config.maxSize) && decide (c.destSize ≤ Config.maxSize)
    && decide (c.dest + c.destSize ≤ Config.addrLimit)

/-- The state-free precondition of `COPYOVERLAP_W`: `1 ≤ n < W` and `t = m + n` (R124). -/
def overlapOperandsOk (w t m n : Nat) : Bool := decide (1 ≤ n) && decide (n < w) && decide (t = m + n)

/-- The state-free precondition of a plain DST-to-DST stride: `s + W ≤ t` (R120, R121, R122). -/
def plainOperandsOk (w t src : Nat) : Bool := decide (src + w ≤ t)

/-- Well-formedness of one operation. -/
def Instr.wf : Instr → Bool
  | .seq ll ml => ll != 15#4 && ml != 15#4
  | .seqXL ml => ml != 15#4
  | .seqXM ll => ll != 15#4
  | .seqXLXM => true
  | .extCont => true
  | .extEnd value => value != 255#8
  | .offset _ => true
  | .copyOverlap8 t m n => overlapOperandsOk 8 t m n
  | .copyOverlap16 t m n => overlapOperandsOk 16 t m n
  | .copyOverlap32 t m n => overlapOperandsOk 32 t m n
  | .copyFromOutput8 t src => plainOperandsOk 8 t src
  | .copyFromOutput16 t src => plainOperandsOk 16 t src
  | .copyFromOutput32 t src => plainOperandsOk 32 t src
  | .wildCopyIn8 _ _ _ => true
  | .wildCopyIn16 _ _ _ => true
  | .wildCopyIn32 _ _ _ => true
  | .wildCopyOut8 t src _ => plainOperandsOk 8 t src
  | .wildCopyOut16 t src _ => plainOperandsOk 16 t src
  | .wildCopyOut32 t src _ => plainOperandsOk 32 t src
  | .select _ => true
  | .update _ _ _ _ => true
  | .decompress cmd => cmd.wf

/-- Well-formedness of a line of the assembler notation (R102, R103). -/
def AsmLine.wf : AsmLine → Bool
  | .seqLine _ off mlen => decide (1 ≤ off) && decide (off ≤ 65535) && decide (Config.minMatch ≤ mlen)
  | .endLine _ ml => decide (ml ≤ 15)
  | .repLine _ n => decide (5 ≤ n)
  | .rawLine _ => true

end Sys2Proof
end

