-- ==== Sys2Proof/Decode.lean ====
section
/-! DEFINITION. The decoder and the encoder of the compressed stream (30_encoding.md). The stream is read element by
element; which kind of element stands next is fixed by the decoder's position (`Slot`), never by the byte itself
(R90, R96, R100). Every byte value is legal in every slot (R99 (a)), so the only thing decoding can refuse is a stream
that ends too early. The assembler of R102 and R103 and its inverse stand here too. -/

namespace Sys2Proof

/-! ### Fields -/

/-- `LL = TOK[7:4]` (R91). -/
def tokLL (tok : Byte) : Nibble := tok.extractLsb' 4 4

/-- `ML = TOK[3:0]` (R91). -/
def tokML (tok : Byte) : Nibble := tok.extractLsb' 0 4

/-- The token byte with the two given nibbles (R91). -/
def tokenByte (ll ml : Nibble) : Byte := ll ++ ml

/-- `OFF = b0 + 256·b1` (R63, R94). -/
def offsetOf (b0 b1 : Byte) : Half := b1 ++ b0

/-- The offset's byte at the lower stream index (R94). -/
def offsetLow (off : Half) : Byte := off.extractLsb' 0 8

/-- The offset's byte at the higher stream index (R94). -/
def offsetHigh (off : Half) : Byte := off.extractLsb' 8 8

/-! ### The opcode table's patterns -/

/-- A row of the table of R96 or R100: a byte hits it iff `(byte AND mask) = pattern`. -/
structure PatternRow where
  mask : Byte
  pattern : Byte
  deriving DecidableEq, Repr

/-- `(byte AND mask) = match` (R96). -/
def PatternRow.hits (r : PatternRow) (b : Byte) : Bool := (b &&& r.mask) == r.pattern

/-- The pattern of `SEQ.XLXM` (R96). -/
def rowXLXM : PatternRow := ⟨0xFF#8, 0xFF#8⟩
/-- The pattern of `SEQ.XL` (R96). -/
def rowXL : PatternRow := ⟨0xF0#8, 0xF0#8⟩
/-- The pattern of `SEQ.XM` (R96). -/
def rowXM : PatternRow := ⟨0x0F#8, 0x0F#8⟩
/-- The pattern of `EXT.CONT` (R100). -/
def rowExtCont : PatternRow := ⟨0xFF#8, 0xFF#8⟩

/-- The four forms of a token, tested in the order of R96, the first hit taken; `SEQ`, whose mask is 0, is what is left. -/
def decodeToken (b : Byte) : Instr :=
  if rowXLXM.hits b then .seqXLXM
  else if rowXL.hits b then .seqXL (tokML b)
  else if rowXM.hits b then .seqXM (tokLL b)
  else .seq (tokLL b) (tokML b)

/-- The two kinds of extension byte, tested in the order of R100; `EXT.END`, whose mask is 0, is what is left. -/
def decodeExt (b : Byte) : Instr := if rowExtCont.hits b then .extCont else .extEnd b

/-! ### The decoder -/

/-- Which element of the stream stands next (R90): a token, a length-extension byte, or the offset field. -/
inductive Slot where
  | token
  | ext
  | field
  deriving DecidableEq, Repr

/-- Why decoding is refused: the stream ends where the element of the named slot is needed (R99 (e)). Nothing else is. -/
inductive DecodeError where
  | streamEnds (slot : Slot)
  deriving DecidableEq, Repr

/-- How many bytes an element of a slot takes (R90). -/
def Slot.size : Slot → Nat
  | .token => 1
  | .ext => 1
  | .field => 2

/-- The element at the head of the stream, and the rest of the stream. Total on any bytes. -/
def decode : Slot → List Byte → Except DecodeError (Instr × List Byte)
  | .token, b :: rest => .ok (decodeToken b, rest)
  | .ext, b :: rest => .ok (decodeExt b, rest)
  | .field, b0 :: b1 :: rest => .ok (.offset (offsetOf b0 b1), rest)
  | slot, _ => .error (.streamEnds slot)

/-! ### The encoder -/

/-- The slot an operation is encoded in; `none` for the operations that have no encoding (R101). -/
def Instr.slot : Instr → Option Slot
  | .seq _ _ => some .token
  | .seqXL _ => some .token
  | .seqXM _ => some .token
  | .seqXLXM => some .token
  | .extCont => some .ext
  | .extEnd _ => some .ext
  | .offset _ => some .field
  | .copyOverlap8 _ _ _ => none
  | .copyOverlap16 _ _ _ => none
  | .copyOverlap32 _ _ _ => none
  | .copyFromOutput8 _ _ => none
  | .copyFromOutput16 _ _ => none
  | .copyFromOutput32 _ _ => none
  | .wildCopyIn8 _ _ _ => none
  | .wildCopyIn16 _ _ _ => none
  | .wildCopyIn32 _ _ _ => none
  | .wildCopyOut8 _ _ _ => none
  | .wildCopyOut16 _ _ _ => none
  | .wildCopyOut32 _ _ _ => none
  | .select _ => none
  | .update _ _ _ _ => none
  | .decompress _ => none

/-- The bytes of an operation's own encoding (R91, R94, R100); none for the operations of R101. -/
def encode : Instr → List Byte
  | .seq ll ml => [tokenByte ll ml]
  | .seqXL ml => [tokenByte 15#4 ml]
  | .seqXM ll => [tokenByte ll 15#4]
  | .seqXLXM => [0xFF#8]
  | .extCont => [0xFF#8]
  | .extEnd value => [value]
  | .offset off => [offsetLow off, offsetHigh off]
  | .copyOverlap8 _ _ _ => []
  | .copyOverlap16 _ _ _ => []
  | .copyOverlap32 _ _ _ => []
  | .copyFromOutput8 _ _ => []
  | .copyFromOutput16 _ _ => []
  | .copyFromOutput32 _ _ => []
  | .wildCopyIn8 _ _ _ => []
  | .wildCopyIn16 _ _ _ => []
  | .wildCopyIn32 _ _ _ => []
  | .wildCopyOut8 _ _ _ => []
  | .wildCopyOut16 _ _ _ => []
  | .wildCopyOut32 _ _ _ => []
  | .select _ => []
  | .update _ _ _ _ => []
  | .decompress _ => []

/-! ### Whole sequences: the assembler notation and its inverse -/

/-- The extension bytes of a value: as many 255s as fit, then the remainder (R92). -/
def extBytes (value : Nat) : List Byte :=
  List.replicate (value / 255) 255#8 ++ [BitVec.ofNat 8 (value % 255)]

/-- The value of the extension run at the head of the bytes, and what follows it (R92); `none` if the bytes end first. -/
def readExt : List Byte → Option (Nat × List Byte)
  | [] => none
  | b :: rest =>
    if rowExtCont.hits b then (readExt rest).map fun r => (r.1 + 255, r.2) else some (b.toNat, rest)

/-- The 4-bit code of a length: the length itself below 15, else 15 (R93, R95). -/
def lengthCode (n : Nat) : Nibble := BitVec.ofNat 4 (min n 15)

/-- The extension that goes with `lengthCode` (R92). -/
def lengthExt (n : Nat) : List Byte := if n < 15 then [] else extBytes (n - 15)

/-- The bytes of a non-final sequence, in the element order of R90. -/
def assembleSeq (lit : List Byte) (off mlen : Nat) : List Byte :=
  tokenByte (lengthCode lit.length) (lengthCode (mlen - Config.minMatch))
    :: (lengthExt lit.length ++ (lit ++ (encode (.offset (BitVec.ofNat 16 off)) ++ lengthExt (mlen - Config.minMatch))))

/-- The bytes of the final sequence (R97): elements 1 to 3 of R90. -/
def assembleEnd (lit : List Byte) (ml : Nat) : List Byte :=
  tokenByte (lengthCode lit.length) (BitVec.ofNat 4 ml) :: (lengthExt lit.length ++ lit)

/-- The bytes of one line of the assembler notation (R102); `REP b, n` is `SEQ lit=[b], off=1, mlen=n-1` (R103). -/
def assemble : AsmLine → List Byte
  | .seqLine lit off mlen => assembleSeq lit off mlen
  | .endLine lit ml => assembleEnd lit ml
  | .repLine b n => assembleSeq [b] 1 (n - 1)
  | .rawLine bytes => bytes

/-- The bytes of a program. -/
def assembleAll (lines : List AsmLine) : List Byte := lines.flatMap assemble

/-- The length a 4-bit code stands for, with its extension read from the bytes when the code is 15 (R92, R93, R95). -/
def readLength (code : Nibble) (bytes : List Byte) : Option (Nat × List Byte) :=
  if code = 15#4 then (readExt bytes).map fun r => (15 + r.1, r.2) else some (code.toNat, bytes)

/-- The match part of a sequence: the offset, then the match length with its extension (R94, R95). -/
def readMatchPart (ml : Nibble) : List Byte → Option (Half × Nat × List Byte)
  | b0 :: b1 :: tail =>
    (readLength ml tail).map fun r => (offsetOf b0 b1, r.1 + Config.minMatch, r.2)
  | _ => none

/-- The sequence at the head of the bytes, when `room` output bytes are still to be produced: it is final iff its literal
length equals `room` (R97). `none` if the bytes end inside it. -/
def parseSequence (room : Nat) : List Byte → Option (AsmLine × List Byte)
  | [] => none
  | tok :: rest =>
    match readLength (tokLL tok) rest with
    | none => none
    | some (len, body) =>
      if body.length < len then none
      else if len = room then some (.endLine (body.take len) (tokML tok).toNat, body.drop len)
      else (readMatchPart (tokML tok) (body.drop len)).map fun r =>
        (.seqLine (body.take len) r.1.toNat r.2.1, r.2.2)

/-! ### The host's table words -/

/-- The byte of an opcode-table word at stream index `i` (bits `8·i+7 .. 8·i`). -/
def tableByte (w i : Nat) : Byte := BitVec.ofNat 8 (w >>> (8 * i))

/-- The slot a table row of the given width is read in: a 16-bit row is the offset field, any other a token. An extension
byte has the width of a token and cannot be told from one outside its place in a sequence (log entry 12). -/
def tableSlot (nbits : Nat) : Slot := if nbits = 16 then .field else .token

/-- The operation the decoder reads from an instruction whose bits are `w`, bit 0 the least significant of the first
byte, every bit from `nbits` on being 0. -/
def decodeTableWord (nbits w : Nat) : Option Instr :=
  if nbits < 8 then none
  else
    let v := w % 2 ^ nbits
    match decode (tableSlot nbits) [tableByte v 0, tableByte v 1] with
    | .ok (i, _) => some i
    | .error _ => none

end Sys2Proof
end

