-- ==== Sys2Proof/Machine/State.lean ====
section
/-! DEFINITION. The state of LZ4BD: every register of 10_state.md, the host's memory, the selector contexts, the timer,
and what the host still has in store for the core. All of it is plain data. -/

namespace Sys2Proof.Machine

/-- Why the machine stops with a fault. -/
inductive Fault where
  /-- An access to an address at or above 2^`AW`, which does not exist (R68, R243). Raised by a stream element or a
  micro-operation of a lane whose latched spans wrap, and by a host move that names such an address. Safe: no command
  that DECOMPRESS accepts leads there. -/
  | noSuchAddress
  deriving DecidableEq, Repr

/-- Why an operation is given no meaning. Every reason but `notModelled` is a breach of the host's contract (R211, R243)
or of an operation's precondition (R132), or an element met outside the step that reads it. All are safe: the machine
stops where the spec gives no effect. -/
inductive Refusal where
  /-- Raised by `exec` for an operation that has no meaning yet. Safe. -/
  | notModelled (mnemonic : String)
  /-- R211 (b): a size above `MAXSIZE`. Raised by DECOMPRESS. Safe. -/
  | sizeAboveMax
  /-- R211 (b): a span wraps past 2^`AW`. Raised by DECOMPRESS. Safe. -/
  | spanWraps
  /-- R211 (a): fewer than `SRC_SIZE + SLACK` readable source bytes. Raised by DECOMPRESS and by every operation of a
  lane whose latched spans break the contract. Safe. -/
  | sourceNotReadable
  /-- R211 (a): fewer than `DST_SIZE` writable destination bytes. Raised as `sourceNotReadable` is. Safe. -/
  | destNotWritable
  /-- R211 (c), R76: the two spans of the command overlap. Raised as `sourceNotReadable` is. Safe. -/
  | spansOverlap
  /-- R211 (c), R76: a span overlaps one of another running command. Raised by DECOMPRESS. Safe. -/
  | spansOfRunningCommand
  /-- R211 (d): the context index is not below `N_CTX`. Raised by DECOMPRESS, SELECT, UPDATE and the response. Safe. -/
  | noSuchContext
  /-- R211 (e): a command for a lane that is not `Idle`. Raised by DECOMPRESS. Safe. -/
  | laneBusy
  /-- R132: a micro-operation outside its preconditions. Safe. -/
  | preconditionBroken
  /-- A stream element executed in a `STATE` whose step does not read it (R30, R151). Raised by the stream elements. Safe. -/
  | elementOutOfPlace
  /-- R260, R219: a reset while some lane is not `Idle`. Raised by the host's move. Safe. -/
  | resetWhileRunning
  /-- R76, R219: a host store into a span of a running command. Raised by the host's move. Safe. -/
  | hostStoreIntoSpan
  /-- The host's move or the agenda names a lane at or above `N_LANES` (R246). Safe. -/
  | noSuchLane
  deriving DecidableEq, Repr

/-- `STATE`, the lane's position in the state machine (R30); codes 9 to 15 are never taken and have no value here. -/
inductive LaneState where
  | idle
  | readToken
  | extendLiteralLength
  | copyLiterals
  | readMatch
  | extendMatchLength
  | copyMatch
  | done
  | failed
  deriving DecidableEq, Repr

/-- `FCAUSE`, the cause of a failure (R231); codes 12 to 15 are never written and have no value here. -/
inductive Cause where
  /-- code 0: no failure since the command started -/
  | none
  /-- code 1, `F_TOKEN_EOS` -/
  | tokenEos
  /-- code 2, `F_LITEXT_EOS` -/
  | litExtEos
  /-- code 3, `F_LIT_DST` -/
  | litDst
  /-- code 4, `F_LIT_SRC` -/
  | litSrc
  /-- code 5, `F_LIT_SLACK` -/
  | litSlack
  /-- code 6, `F_OFFSET_EOS` -/
  | offsetEos
  /-- code 7, `F_OFFSET_ZERO` -/
  | offsetZero
  /-- code 8, `F_OFFSET_RANGE` -/
  | offsetRange
  /-- code 9, `F_MATEXT_EOS` -/
  | matExtEos
  /-- code 10, `F_MATCH_DST` -/
  | matchDst
  /-- code 11, `F_MATCH_DST2` -/
  | matchDst2
  deriving DecidableEq, Repr

/-- The registers of one BDU lane (R21, R26, R28 to R31). `AW`-bit registers hold natural numbers, computed exactly
(R10, D2). -/
structure Lane where
  /-- `IP`: index into SRC of the next stream byte (R21, R23). -/
  ip : Nat
  /-- `OP`: index into DST of the next byte to produce (R21, R24). -/
  op : Nat
  /-- `TOK`: the token of the current sequence (R21, R25). -/
  tok : Byte
  /-- `LEN`: the length accumulator (R21, R25). -/
  len : Nat
  /-- `OFF`: the match offset (R21, R25). -/
  off : Half
  /-- `MP`: the match pointer (R21, R25). -/
  mp : Nat
  /-- `CEND`: one past the last byte the current copy must produce (R21). -/
  cend : Nat
  /-- `VEC`: the stride staging register, one byte per lane of the widest stride (R26). -/
  vec : List Byte
  /-- `SRC_BASE` (R28). -/
  srcBase : Nat
  /-- `SRC_SIZE`, S (R28). -/
  srcSize : Nat
  /-- `DST_BASE` (R28). -/
  dstBase : Nat
  /-- `DST_SIZE`, D (R28). -/
  dstSize : Nat
  /-- `CTX`: the selector context of the command (R28). -/
  ctx : Nat
  /-- `RESULT`: true = success (R29). -/
  result : Bool
  /-- `STATE` (R30). -/
  state : LaneState
  /-- `FCAUSE` (R31). -/
  fcause : Cause
  /-- `FIP` (R31). -/
  fip : Nat
  /-- `FOP` (R31). -/
  fop : Nat
  /-- `VSEL`: the variant the current or last command ran with (R31). -/
  vsel : Variant
  /-- The position inside step 2 or 5: true while the `repeat` of EXTEND (R153) has begun and not ended. The spec implies
  it by the loop and gives it no name. -/
  inExt : Bool
  /-- `t0` of R212: the `TIME` read before a measured decode. The spec names it in the command's pseudocode only. -/
  t0 : Wide
  deriving DecidableEq, Repr

/-- The registers of one selector context (R32, R33). -/
structure Context where
  /-- `EST[0..2]` (R32). -/
  est : Vector Wide 3
  /-- `CNT[0..2]` (R32). -/
  cnt : Vector Count 3
  /-- `CALLS` (R32). -/
  calls : Count
  /-- `LOCK`: true = held (R33). -/
  lock : Bool
  deriving DecidableEq, Repr

/-- A stretch of memory the host has made accessible to the core (R68, R211 (a)). -/
structure Region where
  base : Nat
  size : Nat
  /-- Writable as well as readable. -/
  writable : Bool
  deriving DecidableEq, Repr

/-- The host's memory: address and byte pairs in the canonical form of `Memory.wf` (Ops.lean). -/
abbrev Memory := List Host.Cell

/-- What the host may do (R219): place bytes in its memory and make memory accessible before a command, issue a command
to a lane, reset the core. Reading a response, a status or a statistic changes nothing and is no move. -/
inductive HostMove where
  /-- Make a region accessible (R263). -/
  | provide (r : Region)
  /-- Store bytes from an address on (R263). -/
  | store (addr : Nat) (bytes : List Byte)
  /-- Issue DECOMPRESS to a lane (R210). -/
  | issue (laneNo : Nat) (cmd : Command)
  /-- Reset the whole core (R260). -/
  | reset
  deriving DecidableEq, Repr

/-- Who takes a step (R20): the host, or the lane of the given number. The timer moves in every step. -/
inductive Agent where
  | host
  | lane (laneNo : Nat)
  deriving DecidableEq, Repr

/-- The state of the whole core. The `N_LANES` lanes are `lanesBelow ++ lane :: lanesAbove`; `lane` is the one whose turn
it is, and its number is the length of `lanesBelow`. -/
structure State where
  /-- The open parameters of the instance (R8); never written. -/
  params : Config.Params
  /-- The host's memory, holding every SRC and DST span (R60, R68). -/
  mem : Memory
  /-- What of the memory the host has made accessible (R211 (a)). -/
  regions : List Region
  lanesBelow : List Lane
  /-- The lane whose turn it is. -/
  lane : Lane
  lanesAbove : List Lane
  /-- The `N_CTX` selector contexts (R32). -/
  ctxs : List Context
  /-- `TIME` (R34). -/
  time : Wide
  /-- The host's moves still to come, oldest first (R219). -/
  host : List HostMove
  /-- The order in which the agents move next, as far as it is laid down; every interleaving is some agenda (R218). After it
  the lanes run their commands to the response, and then the host moves (R272, log entry 15). -/
  agenda : List Agent
  /-- How many free values have been drawn (the model's own counter; log entry 4). -/
  draws : Nat
  deriving DecidableEq, Repr

/-- A lane after reset (R38): `Idle`, the status and diagnostic registers 0; the registers R38 leaves unspecified hold
zero (DESIGN CHOICE, log entry 1). -/
def Lane.reset : Lane where
  ip := 0
  op := 0
  tok := 0#8
  len := 0
  off := 0#16
  mp := 0
  cend := 0
  vec := List.replicate 32 0#8
  srcBase := 0
  srcSize := 0
  dstBase := 0
  dstSize := 0
  ctx := 0
  result := false
  state := .idle
  fcause := .none
  fip := 0
  fop := 0
  vsel := 0
  inExt := false
  t0 := 0#64

/-- A selector context after reset (R38): no history, lock free. -/
def Context.reset : Context where
  est := Vector.replicate 3 0#64
  cnt := Vector.replicate 3 0#32
  calls := 0#32
  lock := false

/-- The core after reset for a given instance (R38, R260): every lane idle, every context without history, no memory
provided and no host move pending; `TIME` is unspecified there and holds zero (DESIGN CHOICE, log entry 1). -/
def State.resetWith (p : Config.Params) : State where
  params := p
  mem := []
  regions := []
  lanesBelow := []
  lane := Lane.reset
  lanesAbove := List.replicate (p.nLanes - 1) Lane.reset
  ctxs := List.replicate p.nCtx Context.reset
  time := 0#64
  host := []
  agenda := []
  draws := 0

/-- The machine right after reset, for the default instance. -/
def State.reset : State := State.resetWith Config.Params.default

end Sys2Proof.Machine
end

