-- ==== Sys2Proof/Machine/Operands.lean ====
section
/-! DEFINITION. Every quantity the rules compute from operands: widths, roundings, the token's and the extension's
contributions to a length, the permutation and advance tables of the overlap copy, and the throughput sample. -/

namespace Sys2Proof.Machine

/-- W = 8·2^v, the copy width of a variant (R3, D12). -/
def width (v : Variant) : Nat := 8 * 2 ^ v.val

/-- `ceilW(x)`: the smallest multiple of `w` that is at least `x` (R10). -/
def ceilTo (w x : Nat) : Nat := (x + w - 1) / w * w

/-- `ceilW(size) div W`, the number of strides of a wild copy (R122, R123, D29). -/
def strideCount (w size : Nat) : Nat := ceilTo w size / w

/-- How many lanes of a stride of `w` lanes storing at `t` are active: those with `t + j < D` (R66). -/
def activeLanes (w t d : Nat) : Nat := min w (d - t)

/-- `PERM_W[n][i]` for `1 ≤ n < W` (R125); the same for every W. The spec leaves row 0 unspecified and no operation reads it
(C7, D10); that this total function gives `i` there is the model's choice (DESIGN CHOICE, log entry 27). -/
def permEntry (n i : Nat) : Nat := i % n

/-- Row n of `PERM_W` (R125). -/
def permRow (w n : Nat) : List Nat := (List.range w).map (permEntry n)

/-- `ADV_W[n]` for `1 ≤ n < W` (R126). Row 0 is unspecified and never read (C7, D10); that this total function gives `w`
there is the model's choice (DESIGN CHOICE, log entry 27). -/
def advance (w n : Nat) : Nat := if w % n = 0 then n else w % n

/-- The sub-offset `a(c, n)` of the scalar overlap copy (R128). -/
def subOffset (c n : Nat) : Nat := if c % n = 0 then n else c % n

/-- The literal-length code of a token as a number: what ReadToken puts in `LEN` (R152). -/
def literalCode (tok : Byte) : Nat := (tokLL tok).toNat

/-- The match-length code of a token as a number: what ExtendMatchLength puts in `LEN` first (R160). -/
def matchCode (tok : Byte) : Nat := (tokML tok).toNat

/-- The value an unsigned number takes in a saturating register of `w` bits (R32, R194). -/
def saturate (w n : Nat) : BitVec w := BitVec.ofNat w (min n (2 ^ w - 1))

/-- `SAMPLE(elapsed, bytes)` (R194). -/
def sample (elapsed bytes : Nat) : Nat := min (bytes * Config.scale / max elapsed 1) (2 ^ 64 - 1)

/-- The new `EST[v]` of R193 once `CNT[v]` is not 0. -/
def blend (est s : Nat) : Nat := est - est / 2 ^ Config.ewmaShift + s / 2 ^ Config.ewmaShift

end Sys2Proof.Machine
end

