-- ==== Sys2Proof/Machine/Flags.lean ====
section
/-! DEFINITION. Status values: the codes of `STATE` and `FCAUSE`, the source's failure classes, `RESULT` as the response
writes it, and which commands are measured. -/

namespace Sys2Proof.Machine

/-- The 4-bit code of `STATE` (R30). -/
def LaneState.code : LaneState → BitVec 4
  | .idle => 0
  | .readToken => 1
  | .extendLiteralLength => 2
  | .copyLiterals => 3
  | .readMatch => 4
  | .extendMatchLength => 5
  | .copyMatch => 6
  | .done => 7
  | .failed => 8

/-- The 4-bit code of `FCAUSE` (R231). -/
def Cause.code : Cause → BitVec 4
  | .none => 0
  | .tokenEos => 1
  | .litExtEos => 2
  | .litDst => 3
  | .litSrc => 4
  | .litSlack => 5
  | .offsetEos => 6
  | .offsetZero => 7
  | .offsetRange => 8
  | .matExtEos => 9
  | .matchDst => 10
  | .matchDst2 => 11

/-- The four classes of malformed input the source names (R230, R232). -/
inductive FailureClass where
  | truncatedTokenStream
  | extensionPastEnd
  | matchBeforeOutputStart
  | lengthsExceedDestination
  deriving DecidableEq, Repr

/-- The source's class of a cause (R232). -/
def Cause.failureClass : Cause → Option FailureClass
  | .none => Option.none
  | .tokenEos | .litSrc | .offsetEos => some .truncatedTokenStream
  | .litExtEos | .matExtEos => some .extensionPastEnd
  | .offsetZero | .offsetRange => some .matchBeforeOutputStart
  | .litDst | .matchDst | .litSlack | .matchDst2 => some .lengthsExceedDestination

/-- `RESULT` as the response writes it: 1 iff the lane's position is `Done` (R157, R216, R240). -/
def verdict : LaneState → Bool
  | .done => true
  | _ => false

/-- The lane is in one of the six steps of a decode (R30, R151). -/
def LaneState.decoding : LaneState → Bool
  | .readToken | .extendLiteralLength | .copyLiterals | .readMatch | .extendMatchLength | .copyMatch => true
  | .idle | .done | .failed => false

/-- A command of these sizes ends without a decode (R213). -/
def trivialSizes (s d : Nat) : Bool := s == 0 || d == 0

/-- A command of these sizes is measured and arbitrated (R214, R215). -/
def measuredSizes (s d : Nat) : Bool := !trivialSizes s d && decide (Config.threshold ≤ d)

/-- The cause a lane raises when the stream ends where it needs an element (R152, R153, R158). -/
def eosCause : LaneState → Cause
  | .extendLiteralLength => .litExtEos
  | .readMatch => .offsetEos
  | .extendMatchLength => .matExtEos
  | _ => .tokenEos

end Sys2Proof.Machine
end

