-- ==== Sys2Proof/Machine/Ops.lean ====
section
/-! DEFINITION. The shared operations: memory, the lane's accesses to SRC and DST, strides and the copy primitives, the
failure and success exits of a decode, and the contract a lane's spans must meet. -/

namespace Sys2Proof.Machine

/-! ### The host's memory -/

/-- What an address that no cell lists reads as (DESIGN CHOICE, log entry 2). -/
def unlistedByte : Byte := 0#8

/-- The canonical form: addresses strictly rising, and no cell that says what an unlisted address says anyway. -/
abbrev Memory.wf (m : Memory) : Prop := m.Pairwise (fun c d => c.1 < d.1) ∧ ∀ c ∈ m, c.2 ≠ unlistedByte

/-- The byte at an address. -/
def Memory.read : Memory → Nat → Byte
  | [], _ => unlistedByte
  | (k, v) :: m, a => if a = k then v else Memory.read m a

/-- The memory with one byte stored. -/
def Memory.write : Memory → Nat → Byte → Memory
  | [], a, b => if b = unlistedByte then [] else [(a, b)]
  | (k, v) :: m, a, b =>
    if a < k then (if b = unlistedByte then (k, v) :: m else (a, b) :: (k, v) :: m)
    else if a = k then (if b = unlistedByte then m else (a, b) :: m)
    else (k, v) :: Memory.write m a b

/-- The `n` bytes from an address on. -/
def Memory.readBytes (m : Memory) (a n : Nat) : List Byte := (List.range n).map fun j => m.read (a + j)

/-- The memory with bytes stored one after the other from an address on. -/
def Memory.writeBytes : Memory → Nat → List Byte → Memory
  | m, _, [] => m
  | m, a, b :: bs => Memory.writeBytes (m.write a b) (a + 1) bs

/-- The memory with `n` bytes from `a` on replaced by the free values of draw `d` (R240, D26; log entry 6). -/
def Memory.forget (d a : Nat) : Nat → Memory → Memory
  | 0, m => m
  | n + 1, m => (Memory.forget d a n m).write (a + n) (Config.freeByte d n)

/-! ### Registers -/

/-- The state with the acting lane's registers replaced. -/
def State.withLane (s : State) (l : Lane) : State := { s with lane := l }

/-- The state with the host's memory replaced. -/
def State.withMem (s : State) (m : Memory) : State := { s with mem := m }

/-- The state with the selector contexts replaced. -/
def State.withCtxs (s : State) (c : List Context) : State := { s with ctxs := c }

/-- All lanes, in the order of their numbers. -/
def State.lanes (s : State) : List Lane := s.lanesBelow ++ s.lane :: s.lanesAbove

/-- The copy width of the acting lane's variant (R3). -/
def State.W (s : State) : Nat := width s.lane.vsel

/-- Execution goes to STATE `st` (R30). -/
def State.goto (s : State) (st : LaneState) : State := s.withLane { s.lane with state := st }

/-- `MP <- m`. -/
def State.setMp (s : State) (m : Nat) : State := s.withLane { s.lane with mp := m }

/-! ### SRC and DST (R12) -/

/-- `SRC[i]` of the acting lane, at address `SRC_BASE + i` (R68). -/
def State.src (s : State) (i : Nat) : Byte := s.mem.read (s.lane.srcBase + i)

/-- `DST[i]` of the acting lane, at address `DST_BASE + i` (R68). -/
def State.dst (s : State) (i : Nat) : Byte := s.mem.read (s.lane.dstBase + i)

/-- `SrcRead(a, n)` (R12). -/
def State.srcRead (s : State) (a n : Nat) : List Byte := s.mem.readBytes (s.lane.srcBase + a) n

/-- `DstRead(a, n)` (R12). -/
def State.dstRead (s : State) (a n : Nat) : List Byte := s.mem.readBytes (s.lane.dstBase + a) n

/-- `DstWrite(a, n, bytes)`: stores `bytes[j]` at `DST[a + j]` for the `j` with `a + j < DST_SIZE`, and nothing for the
others (R12, R66). -/
def State.dstWrite (s : State) (a : Nat) (bytes : List Byte) : State :=
  s.withMem (s.mem.writeBytes (s.lane.dstBase + a) (bytes.take (s.lane.dstSize - a)))

/-! ### Strides (R120) -/

/-- Lanes 0, 1, … of `VEC` are loaded with the given bytes; the other lanes keep what they hold (R26). -/
def State.loadVec (s : State) (bytes : List Byte) : State :=
  s.withLane { s.lane with vec := bytes ++ s.lane.vec.drop bytes.length }

/-- A stride once its active lanes' bytes are known: all are in `VEC` before any is stored (R70 (a), R120). -/
def State.stride (s : State) (t : Nat) (loaded : List Byte) : State := (s.loadVec loaded).dstWrite t loaded

/-- `STRIDE_OUT_W(t, s)`: DST to DST (R120). -/
def strideOut (w t src : Nat) (s : State) : State :=
  s.stride t (s.dstRead src (activeLanes w t s.lane.dstSize))

/-- `STRIDE_IN_W(t, s)`: SRC to DST (R120). -/
def strideIn (w t src : Nat) (s : State) : State :=
  s.stride t (s.srcRead src (activeLanes w t s.lane.dstSize))

/-- `n` strides from DST, in increasing order, each stored before the next is loaded (R70 (b), R122). -/
def stridesOut (w t src : Nat) : Nat → State → State
  | 0, s => s
  | n + 1, s => stridesOut w (t + w) (src + w) n (strideOut w t src s)

/-- `n` strides from SRC, in increasing order (R123). -/
def stridesIn (w t src : Nat) : Nat → State → State
  | 0, s => s
  | n + 1, s => stridesIn w (t + w) (src + w) n (strideIn w t src s)

/-- `WILDCOPYOUT_W(t, s, size)` (R122). -/
def wildCopyOut (w t src size : Nat) (s : State) : State := stridesOut w t src (strideCount w size) s

/-- `WILDCOPYIN_W(t, s, size)` (R123). -/
def wildCopyIn (w t src size : Nat) (s : State) : State := stridesIn w t src (strideCount w size) s

/-- `MP <- COPYFROMOUTPUT_W(t, s)`: one stride, and the one advance of the match pointer by W (R121, D22). -/
def copyFromOutput (w t src : Nat) (s : State) : State := (strideOut w t src s).setMp (src + w)

/-! ### The overlap copy (R124 to R130) -/

/-- The bytes lane 0, 1, … of an overlap copy stores, given the seed: `seed[PERM_W[n][i]]` (R124, R125). -/
def permuted (w n : Nat) (seed : List Byte) : List Byte := (permRow w n).map fun k => seed.getD k 0#8

/-- The overlap copy by the permutation table: the seed is loaded, `VEC` is permuted, its active lanes are stored
(R124, R127). -/
def overlapShuffle (w t m n : Nat) (s : State) : State :=
  let seed := s.dstRead m n
  ((s.loadVec seed).loadVec (permuted w n seed)).dstWrite t (permuted w n seed)

/-- Stage 0 of the scalar overlap copy: single bytes in index order, each stored before the next is loaded (R128). -/
def overlapBytes (t m : Nat) : Nat → State → State
  | 0, s => s
  | k + 1, s => overlapBytes (t + 1) (m + 1) k (s.dstWrite t (s.dstRead m 1))

/-- Stage c of the scalar overlap copy: a block of c bytes from `m + a(c, n)` to `t + c` (R128). -/
def overlapBlock (t m n c : Nat) (s : State) : State :=
  s.dstWrite (t + c) (s.dstRead (m + subOffset c n) (activeLanes c (t + c) s.lane.dstSize))

/-- The scalar overlap copy: stage 0, then stages 4, 8 (if W ≥ 16) and 16 (if W = 32) (R128). -/
def overlapScalar (w t m n : Nat) (s : State) : State :=
  let s := overlapBlock t m n 4 (overlapBytes t m 4 s)
  let s := if 16 ≤ w then overlapBlock t m n 8 s else s
  if w = 32 then overlapBlock t m n 16 s else s

/-- `MP <- COPYOVERLAP_W(t, m, n)`, in the realisation the instance has (R124, R127, R128, D23). -/
def copyOverlap (w t m n : Nat) (s : State) : State :=
  (match s.params.ocpuImpl with
    | .shuffle => overlapShuffle w t m n s
    | .scalar => overlapScalar w t m n s).setMp (m + advance w n)

/-! ### The two exits of a decode -/

/-- Failure entry, `raise Fail(c)` (R13, R240): the cause and the two cursors are recorded and `STATE` becomes `Failed`.
Nothing else changes; there is no handler, and no further access is made. The loop position of EXTEND ends with it.
`RESULT` = 0 is written at the response (R29, R240; log entry 8). -/
def raiseFail (c : Cause) (s : State) : State :=
  s.withLane { s.lane with fcause := c, fip := s.lane.ip, fop := s.lane.op, state := .failed, inExt := false }

/-- `succeed` (R157): `STATE` becomes `Done`; every other register keeps its value, `IP` and `OP` among them. The template of
41 section 8 has a final sequence move both; the model follows R157 (DEDUCED, log entry 29). The `RESULT` = 1 of the same line is
written at the response, as R29 says (DEDUCED, log entry 8). -/
def succeed (s : State) : State := s.goto .done

/-- What a step of the decoder leaves behind: a decode that goes on, or one that has ended (R151). -/
inductive Flow where
  | goesOn (s : State)
  | ended (s : State)
  deriving DecidableEq, Repr

/-- The next step, if the decode goes on (R13: after a failure no later statement executes). -/
def Flow.andThen : Flow → (State → Flow) → Flow
  | .goesOn s, f => f s
  | .ended s, _ => .ended s

/-- The state a step leaves, whether or not the decode goes on. -/
def Flow.state : Flow → State
  | .goesOn s => s
  | .ended s => s

/-! ### The contract on spans (R211, R76) -/

/-- An address lies in a region. -/
def Region.holds (r : Region) (a : Nat) : Bool := decide (r.base ≤ a) && decide (a < r.base + r.size)

/-- Every address from `b` up to `e` lies in one of the regions. `fuel` is the number of regions still to be used; one
region carries the frontier past its own end, so each is used once at most. -/
def covered (rs : List Region) : Nat → Nat → Nat → Bool
  | 0, b, e => decide (e ≤ b)
  | fuel + 1, b, e =>
    decide (e ≤ b) ||
      match rs.find? (fun r => r.holds b) with
      | some r => covered rs fuel (r.base + r.size) e
      | none => false

/-- `n` bytes from `b` on are readable. -/
def readable (rs : List Region) (b n : Nat) : Bool := covered rs rs.length b (b + n)

/-- `n` bytes from `b` on are readable and writable. -/
def writable (rs : List Region) (b n : Nat) : Bool :=
  covered (rs.filter (·.writable)) (rs.filter (·.writable)).length b (b + n)

/-- Two address ranges have no address in common (R76). -/
def disjoint (b n b' n' : Nat) : Bool := decide (b + n ≤ b') || decide (b' + n' ≤ b) || n == 0 || n' == 0

/-- The spans of a command break R211 (a) or the part of (c) about its own two spans. -/
def spanProblem (slack : Nat) (rs : List Region) (srcBase srcSize dstBase dstSize : Nat) : Option Refusal :=
  if !readable rs srcBase (srcSize + slack) then some .sourceNotReadable
  else if !writable rs dstBase dstSize then some .destNotWritable
  else if !disjoint srcBase (srcSize + slack) dstBase dstSize then some .spansOverlap
  else none

/-- A lane holds its two spans: a command runs on it, and it is not one of R213, which accesses neither (R76, R211). -/
def Lane.holdsSpans (l : Lane) : Bool := l.state != .idle && !trivialSizes l.srcSize l.dstSize

/-- Neither span of a lane meets the given range. -/
def Lane.avoids (slack : Nat) (l : Lane) (b n : Nat) : Bool :=
  disjoint l.srcBase (l.srcSize + slack) b n && disjoint l.dstBase l.dstSize b n

/-- An operation of a lane runs only while the lane's latched spans meet the contract (R69, R243); DECOMPRESS has
established that for every command it accepted. -/
def onSpans (s : State) (k : State → Host.Outcome State Fault Refusal) : Host.Outcome State Fault Refusal :=
  if Config.addrLimit < s.lane.srcBase + s.lane.srcSize + s.params.slack
      ∨ Config.addrLimit < s.lane.dstBase + s.lane.dstSize then .fault .noSuchAddress
  else
    match spanProblem s.params.slack s.regions s.lane.srcBase s.lane.srcSize s.lane.dstBase s.lane.dstSize with
    | some r => .refused r
    | none => k s

end Sys2Proof.Machine
end

