-- ==== Sys2Proof/Machine/Selector.lean ====
section
/-! DEFINITION. The adaptive variant selector (42_selector.md): the two transactions, with the reference policy. A
transaction is one atomic step (R33, R73); a lane that finds the lock held waits, which is a step that changes nothing. -/

namespace Sys2Proof.Machine

/-- A transaction's body runs with `LOCK` held and leaves it free (R33). -/
def locked (f : Context → Context) (c : Context) : Context := { f { c with lock := true } with lock := false }

/-- The least v whose `EST[v]` is the maximum of the three (R192). -/
def bestVariant (c : Context) : Variant :=
  if c.est[1] ≤ c.est[0] ∧ c.est[2] ≤ c.est[0] then 0 else if c.est[2] ≤ c.est[1] then 1 else 2

/-- The variant SELECT returns: the first three calls of an epoch of 64 probe variants 0, 1, 2, the others take the
maximum (R192). -/
def chosenVariant (c : Context) : Variant :=
  if h : c.calls.toNat % Config.explorePeriod < 3 then ⟨c.calls.toNat % Config.explorePeriod, h⟩ else bestVariant c

/-- `CALLS <- (CALLS + 1) mod 2^32` (R192). -/
def countCall (c : Context) : Context := { c with calls := c.calls + 1#32 }

/-- `EST[v]` and `CNT[v]` with one sample folded in (R193). -/
def foldSample (v : Variant) (elapsed bytes : Nat) (c : Context) : Context :=
  { c with
    est := c.est.set v
      (BitVec.ofNat 64 (if c.cnt[v] = 0#32 then sample elapsed bytes else blend c.est[v].toNat (sample elapsed bytes)))
    cnt := c.cnt.set v (saturate 32 (c.cnt[v].toNat + 1)) }

/-- The transaction on context `ctx` is done: its registers are replaced. -/
def State.setCtx (s : State) (ctx : Nat) (c : Context) : State := s.withCtxs (s.ctxs.set ctx c)

/-- A transaction on context `ctx`: refused if there is no such context, a wait if its lock is held, and otherwise the
given effect of the context's registers. -/
def transact (ctx : Nat) (s : State) (k : Context → State) : Host.Outcome State Fault Refusal :=
  match s.ctxs[ctx]? with
  | none => .refused .noSuchContext
  | some c => if c.lock then .next s else .next (k c)

/-- What SELECT(ctx) does to the state: `CALLS` counts, and the variant returned goes to `VSEL` (R192, R212). -/
def selectEffect (ctx : Nat) (s : State) (c : Context) : State :=
  (s.setCtx ctx (locked countCall c)).withLane { s.lane with vsel := chosenVariant c }

/-- What UPDATE(ctx, v, elapsed, bytes) does to the state (R193). -/
def updateEffect (ctx : Nat) (v : Variant) (elapsed : Wide) (bytes : Nat) (s : State) (c : Context) : State :=
  s.setCtx ctx (locked (foldSample v elapsed.toNat bytes) c)

/-- `SELECT(ctx)` (R192). -/
def execSelect (ctx : Nat) (s : State) : Host.Outcome State Fault Refusal := transact ctx s (selectEffect ctx s)

/-- `UPDATE(ctx, v, elapsed, bytes)` (R193). -/
def execUpdate (ctx : Nat) (v : Variant) (elapsed : Wide) (bytes : Nat) (s : State) :
    Host.Outcome State Fault Refusal :=
  transact ctx s (updateEffect ctx v elapsed bytes s)

end Sys2Proof.Machine
end

