-- ==== Sys2Proof/Machine/Command.lean ====
section
/-! DEFINITION. The dispatch entry point (43_dispatch.md): the host's contract, the start of a DECOMPRESS command, and
the end of one (the response). Between the two, the lane takes the steps of the decode. -/

namespace Sys2Proof.Machine

/-- The lanes other than the acting one (R76). -/
def State.otherLanes (s : State) : List Lane := s.lanesBelow ++ s.lanesAbove

/-- The first precondition of R211 that a command breaks on the acting lane, if any: (e) the lane is idle; (b) sizes and
wrap; (d) the context exists; and, unless a size is zero, (a) allocation and (c) disjointness. -/
def contractProblem (cmd : Command) (s : State) : Option Refusal :=
  if s.lane.state != .idle then some .laneBusy
  else if decide (Config.maxSize < cmd.sourceSize) || decide (Config.maxSize < cmd.destSize) then some .sizeAboveMax
  else if decide (Config.addrLimit < cmd.source + cmd.sourceSize + s.params.slack)
      || decide (Config.addrLimit ≤ cmd.dest) || decide (Config.addrLimit < cmd.dest + cmd.destSize) then some .spanWraps
  else if s.ctxs.length ≤ cmd.stats then some .noSuchContext
  else if trivialSizes cmd.sourceSize cmd.destSize then none
  else
    match spanProblem s.params.slack s.regions cmd.source cmd.sourceSize cmd.dest cmd.destSize with
    | some r => some r
    | none =>
      if s.otherLanes.all fun l =>
          !l.holdsSpans || (l.avoids s.params.slack cmd.source (cmd.sourceSize + s.params.slack)
            && l.avoids s.params.slack cmd.dest cmd.destSize)
      then none else some .spansOfRunningCommand

/-- The command registers are latched and the diagnostic registers cleared (R210, R212, R262). -/
def latch (cmd : Command) (s : State) : State :=
  s.withLane { s.lane with
    srcBase := cmd.source, srcSize := cmd.sourceSize, dstBase := cmd.dest, dstSize := cmd.destSize, ctx := cmd.stats,
    fcause := .none, fip := 0, fop := 0 }

/-- A decode starts: `IP <- 0`, `OP <- 0`, and the machine enters ReadToken (R150). -/
def startDecode (s : State) : State :=
  s.withLane { s.lane with ip := 0, op := 0, state := .readToken, inExt := false }

/-- The start of a measured command: one SELECT, then `t0 <- TIME` (R215). -/
def startMeasured (s : State) : Host.Outcome State Fault Refusal :=
  transact s.lane.ctx s fun c =>
    let s := selectEffect s.lane.ctx s c
    startDecode (s.withLane { s.lane with t0 := s.time })

/-- A measured command whose context's lock is held is not accepted yet: its SELECT waits (R33, R248). -/
def selectWaits (cmd : Command) (s : State) : Bool :=
  measuredSizes cmd.sourceSize cmd.destSize && (s.ctxs[cmd.stats]?.map (·.lock)).getD false

/-- `DECOMPRESS(cmd)` up to its first decoding step (R212): refused if the contract is broken (R243); latched; then
trivially done (R213), or decoding with the narrowest variant (R214), or with the selected one, timed (R215). The steps of
the decode follow one by one, and `respond` ends the command. -/
def execDecompress (cmd : Command) (s : State) : Host.Outcome State Fault Refusal :=
  match contractProblem cmd s with
  | some r => .refused r
  | none =>
    if selectWaits cmd s then .next s
    else if trivialSizes cmd.sourceSize cmd.destSize then .next ((latch cmd s).goto .done)
    else if measuredSizes cmd.sourceSize cmd.destSize then startMeasured (latch cmd s)
    else
      let s := latch cmd s
      .next (startDecode (s.withLane { s.lane with vsel := 0 }))

/-- The working registers of a lane that is idle again hold free values (R240, 93 item 14; log entry 7). -/
def Lane.forgetWorking (d : Nat) (l : Lane) : Lane :=
  { l with
    ip := (Config.freeWord d 0).toNat
    op := (Config.freeWord d 1).toNat
    tok := (Config.freeWord d 2).setWidth 8
    len := (Config.freeWord d 3).toNat
    off := (Config.freeWord d 4).setWidth 16
    mp := (Config.freeWord d 5).toNat
    cend := (Config.freeWord d 6).toNat
    vec := (List.range 32).map fun j => (Config.freeWord d (7 + j)).setWidth 8 }

/-- After `ok` = 0 every byte of `DST[0 .. D)` holds a free value (R216, R240, D26; log entry 6). -/
def forgetOutput (s : State) : State :=
  if s.lane.state = .failed then s.withMem (s.mem.forget s.draws s.lane.dstBase s.lane.dstSize) else s

/-- The lane's registers after the response (R29, R30, R242): `RESULT` is the verdict and `STATE` is `Idle`. A trivial
command has changed no working register (R150, R213); after any other they are unspecified. -/
def Lane.respondWith (d : Nat) (l : Lane) : Lane :=
  let w := if trivialSizes l.srcSize l.dstSize then l else l.forgetWorking d
  { w with result := verdict l.state, state := .idle, inExt := false }

/-- The response is delivered (R216, R242); one draw is used. -/
def deliver (s : State) : State :=
  { (forgetOutput s).withLane (s.lane.respondWith s.draws) with draws := s.draws + 1 }

/-- The end of a command whose decode has ended (R212): a measured command reads `TIME` and performs UPDATE, whether it
succeeded or failed (R217); then the response is delivered. It waits while the context's lock is held. -/
def respond (s : State) : Host.Outcome State Fault Refusal :=
  if measuredSizes s.lane.srcSize s.lane.dstSize then
    transact s.lane.ctx s fun c =>
      deliver (updateEffect s.lane.ctx s.lane.vsel (s.time - s.lane.t0) s.lane.dstSize s c)
  else .next (deliver s)

end Sys2Proof.Machine
end

