-- ==== Sys2Proof/Machine/Copy.lean ====
section
/-! DEFINITION. The twelve micro-operations of the copy engine (40_overlap_copy_primitives.md). Outside its
preconditions a micro-operation has no defined meaning and is refused (R132, 93 item 13); a returned match pointer is
assigned to `MP` (R121, R161). -/

namespace Sys2Proof.Machine

/-- A micro-operation runs when its preconditions hold, on spans that meet the contract. -/
def microOp (ok : Bool) (s : State) (k : State → State) : Host.Outcome State Fault Refusal :=
  if ok then onSpans s fun s => .next (k s) else .refused .preconditionBroken

/-- `COPYOVERLAP_W`: `1 ≤ n < W`, `t = m + n`, `t < D` (R124). -/
def overlapOk (w t m n : Nat) (s : State) : Bool := overlapOperandsOk w t m n && decide (t < s.lane.dstSize)

/-- `WILDCOPYOUT_W`: `s + W ≤ t`, `t + size ≤ D` (R122). -/
def wildOutOk (w t src size : Nat) (s : State) : Bool :=
  plainOperandsOk w t src && decide (t + size ≤ s.lane.dstSize)

/-- `WILDCOPYIN_W`: `s + ceilW(size) ≤ SRC_SIZE + SLACK`, `t + size ≤ D` (R123). -/
def wildInOk (w t src size : Nat) (s : State) : Bool :=
  decide (src + ceilTo w size ≤ s.lane.srcSize + s.params.slack) && decide (t + size ≤ s.lane.dstSize)

/-- `COPYOVERLAP_8(t, m, n)` (R124). -/
def execCopyOverlap8 (t m n : Nat) (s : State) : Host.Outcome State Fault Refusal :=
  microOp (overlapOk 8 t m n s) s (copyOverlap 8 t m n)

/-- `COPYOVERLAP_16(t, m, n)` (R124). -/
def execCopyOverlap16 (t m n : Nat) (s : State) : Host.Outcome State Fault Refusal :=
  microOp (overlapOk 16 t m n s) s (copyOverlap 16 t m n)

/-- `COPYOVERLAP_32(t, m, n)` (R124). -/
def execCopyOverlap32 (t m n : Nat) (s : State) : Host.Outcome State Fault Refusal :=
  microOp (overlapOk 32 t m n s) s (copyOverlap 32 t m n)

/-- `COPYFROMOUTPUT_8(t, s)` (R121). -/
def execCopyFromOutput8 (t src : Nat) (s : State) : Host.Outcome State Fault Refusal :=
  microOp (plainOperandsOk 8 t src) s (copyFromOutput 8 t src)

/-- `COPYFROMOUTPUT_16(t, s)` (R121). -/
def execCopyFromOutput16 (t src : Nat) (s : State) : Host.Outcome State Fault Refusal :=
  microOp (plainOperandsOk 16 t src) s (copyFromOutput 16 t src)

/-- `COPYFROMOUTPUT_32(t, s)` (R121). -/
def execCopyFromOutput32 (t src : Nat) (s : State) : Host.Outcome State Fault Refusal :=
  microOp (plainOperandsOk 32 t src) s (copyFromOutput 32 t src)

/-- `WILDCOPYIN_8(t, s, size)` (R123). -/
def execWildCopyIn8 (t src size : Nat) (s : State) : Host.Outcome State Fault Refusal :=
  microOp (wildInOk 8 t src size s) s (wildCopyIn 8 t src size)

/-- `WILDCOPYIN_16(t, s, size)` (R123). -/
def execWildCopyIn16 (t src size : Nat) (s : State) : Host.Outcome State Fault Refusal :=
  microOp (wildInOk 16 t src size s) s (wildCopyIn 16 t src size)

/-- `WILDCOPYIN_32(t, s, size)` (R123). -/
def execWildCopyIn32 (t src size : Nat) (s : State) : Host.Outcome State Fault Refusal :=
  microOp (wildInOk 32 t src size s) s (wildCopyIn 32 t src size)

/-- `WILDCOPYOUT_8(t, s, size)` (R122). -/
def execWildCopyOut8 (t src size : Nat) (s : State) : Host.Outcome State Fault Refusal :=
  microOp (wildOutOk 8 t src size s) s (wildCopyOut 8 t src size)

/-- `WILDCOPYOUT_16(t, s, size)` (R122). -/
def execWildCopyOut16 (t src size : Nat) (s : State) : Host.Outcome State Fault Refusal :=
  microOp (wildOutOk 16 t src size s) s (wildCopyOut 16 t src size)

/-- `WILDCOPYOUT_32(t, s, size)` (R122). -/
def execWildCopyOut32 (t src size : Nat) (s : State) : Host.Outcome State Fault Refusal :=
  microOp (wildOutOk 32 t src size s) s (wildCopyOut 32 t src size)

end Sys2Proof.Machine
end

