-- ==== Sys2Proof/Machine/Decoder.lean ====
section
/-! DEFINITION. The six steps of the block decoder (41_block_decoder.md), each as one operation on the state. W is the
copy width of the lane's variant; S and D are its latched sizes. -/

namespace Sys2Proof.Machine

/-- ReadToken, with the token byte at hand (R152). -/
def readToken (tok : Byte) (s : State) : Flow :=
  if s.lane.srcSize ≤ s.lane.ip then .ended (raiseFail .tokenEos s)
  else
    .goesOn (s.withLane { s.lane with
      tok := tok, ip := s.lane.ip + 1, len := literalCode tok, state := .extendLiteralLength, inExt := false })

/-- One extension byte is consumed: `IP <- IP + 1`, `LEN <- LEN + b` (R153). -/
def extendByte (b : Byte) (s : State) : State :=
  s.withLane { s.lane with ip := s.lane.ip + 1, len := s.lane.len + b.toNat }

/-- The `repeat` of EXTEND(cause) over at most `fuel` bytes (R153); with `fuel = S − IP` it never stops for want of fuel. -/
def extendLoop (cause : Cause) : Nat → State → Flow
  | 0, s => .ended (raiseFail cause s)
  | fuel + 1, s =>
    if s.lane.srcSize ≤ s.lane.ip then .ended (raiseFail cause s)
    else
      let b := s.src s.lane.ip
      if b = 255#8 then extendLoop cause fuel (extendByte b s) else .goesOn (extendByte b s)

/-- EXTEND(cause) (R153): every byte is read only after the test that it is there. -/
def extend (cause : Cause) (s : State) : Flow := extendLoop cause (s.lane.srcSize - s.lane.ip) s

/-- ExtendLiteralLength: `if LEN = 15: EXTEND(F_LITEXT_EOS)` (R154). -/
def extendLiteralLength (s : State) : Flow :=
  (if s.lane.len = 15 then extend .litExtEos s else .goesOn s).andThen fun s => .goesOn (s.goto .copyLiterals)

/-- CopyLiterals, second part: success, or both cursors advance (R157). -/
def finishLiterals (s : State) : Flow :=
  if s.lane.cend = s.lane.dstSize then .ended (succeed s)
  else .goesOn (s.withLane { s.lane with ip := s.lane.ip + s.lane.len, op := s.lane.cend, state := .readMatch })

/-- CopyLiterals (R155, R157): the three tests in the order given, then the copy, then success or advance. -/
def copyLiterals (s : State) : Flow :=
  let s := s.withLane { s.lane with cend := s.lane.op + s.lane.len }
  if s.lane.dstSize < s.lane.cend then .ended (raiseFail .litDst s)
  else if s.lane.srcSize < s.lane.ip + s.lane.len then .ended (raiseFail .litSrc s)
  else if s.lane.srcSize + s.params.slack < s.lane.ip + ceilTo s.W s.lane.len then .ended (raiseFail .litSlack s)
  else finishLiterals (wildCopyIn s.W s.lane.op s.lane.ip s.lane.len s)

/-- ReadMatch once the offset's two bytes are known to be there (R158, R159): the offset is taken, then tested for 0, then
against `OP`; then `MP <- OP − OFF`. -/
def takeOffset (off : Half) (s : State) : Flow :=
  let s := s.withLane { s.lane with off := off, ip := s.lane.ip + 2 }
  if off = 0#16 then .ended (raiseFail .offsetZero s)
  else if s.lane.op < off.toNat then .ended (raiseFail .offsetRange s)
  else .goesOn (s.withLane { s.lane with mp := s.lane.op - off.toNat, state := .extendMatchLength })

/-- ReadMatch for an offset already decoded: the test that two bytes are left comes first (R158). -/
def readOffset (off : Half) (s : State) : Flow :=
  if s.lane.srcSize - s.lane.ip < 2 then .ended (raiseFail .offsetEos s) else takeOffset off s

/-- ReadMatch (R158, R159): the offset is the two stream bytes at `IP`. -/
def readMatch (s : State) : Flow := readOffset (offsetOf (s.src s.lane.ip) (s.src (s.lane.ip + 1))) s

/-- `LEN <- TOK[3:0]`, the start of ExtendMatchLength (R160). -/
def loadMatchCode (s : State) : State := s.withLane { s.lane with len := matchCode s.lane.tok }

/-- `LEN <- LEN + 4`, the end of ExtendMatchLength (R160). -/
def addMinMatch (s : State) : State :=
  s.withLane { s.lane with len := s.lane.len + Config.minMatch, state := .copyMatch }

/-- ExtendMatchLength (R160). -/
def extendMatchLength (s : State) : Flow :=
  let s := loadMatchCode s
  (if s.lane.len = 15 then extend .matExtEos s else .goesOn s).andThen fun s => .goesOn (addMinMatch s)

/-- The first stride of CopyMatch: an overlap copy if `OFF < W`, else a plain stride (R161). -/
def firstMatchStride (s : State) : State :=
  if s.lane.off.toNat < s.W then copyOverlap s.W s.lane.op s.lane.mp s.lane.off.toNat s
  else copyFromOutput s.W s.lane.op s.lane.mp s

/-- The first two strides of CopyMatch, with `OP` advanced by W between them (R161). -/
def matchStrides (s : State) : State :=
  let s := firstMatchStride s
  let s := s.withLane { s.lane with op := s.lane.op + s.W }
  copyFromOutput s.W s.lane.op s.lane.mp s

/-- `OP <- CEND`, the end of CopyMatch, and back to step 1 (R161, R162). -/
def finishMatch (s : State) : State := s.withLane { s.lane with op := s.lane.cend, state := .readToken }

/-- CopyMatch (R161). -/
def copyMatch (s : State) : Flow :=
  let s := s.withLane { s.lane with cend := s.lane.op + s.lane.len }
  if s.lane.dstSize < s.lane.cend then .ended (raiseFail .matchDst s)
  else
    let s := matchStrides s
    if 2 * s.W < s.lane.len then
      if s.lane.dstSize < s.lane.cend then .ended (raiseFail .matchDst2 s)
      else
        .goesOn (finishMatch (wildCopyOut s.W (s.lane.op + s.W) s.lane.mp (s.lane.cend - (s.lane.op + s.W)) s))
    else .goesOn (finishMatch s)

end Sys2Proof.Machine
end

