-- ==== Sys2Proof/Machine/Element.lean ====
section
/-! DEFINITION. The elements inside a sequence as steps of their own: an extension byte (R153) and the offset field
(R158, R159). A lane meets them in `STATE` ExtendLiteralLength, ExtendMatchLength and ReadMatch. -/

namespace Sys2Proof.Machine

/-- A lane is inside the EXTEND loop of step 2 or step 5. -/
def State.extending (s : State) : Bool :=
  s.lane.inExt && (s.lane.state == .extendLiteralLength || s.lane.state == .extendMatchLength)

/-- An extension byte is executed inside an EXTEND loop, after the test `IP < S` (R153). -/
def atExtension (s : State) (k : State → State) : Host.Outcome State Fault Refusal :=
  if s.extending then
    if s.lane.srcSize ≤ s.lane.ip then .next (raiseFail (eosCause s.lane.state) s) else .next (k s)
  else .refused .elementOutOfPlace

/-- The end of an EXTEND loop: step 2 goes to CopyLiterals (R154), step 5 adds the bias and goes to CopyMatch (R160). -/
def leaveExtension (s : State) : State :=
  let s := s.withLane { s.lane with inExt := false }
  if s.lane.state = .extendMatchLength then addMinMatch s else s.goto .copyLiterals

/-- `EXT.CONT`: add 255 and read another extension byte (R100, R153). -/
def execExtCont (s : State) : Host.Outcome State Fault Refusal := atExtension s (extendByte 255#8)

/-- `EXT.END`: add the byte and end the extension (R100, R153). -/
def execExtEnd (value : Byte) (s : State) : Host.Outcome State Fault Refusal :=
  atExtension s fun s => leaveExtension (extendByte value s)

/-- `OFFSET`: ReadMatch with the decoded offset (R158, R159). -/
def execOffset (off : Half) (s : State) : Host.Outcome State Fault Refusal :=
  if s.lane.state = .readMatch then .next (readOffset off s).state else .refused .elementOutOfPlace

end Sys2Proof.Machine
end

