-- ==== Sys2Proof/Machine/Sequence.lean ====
section
/-! DEFINITION. The four sequence forms (R163 to R166). A form is executed by a lane at a sequence boundary (`STATE` =
ReadToken) and runs the whole sequence: to the next boundary, to success, or to a failure, each of which is a next state
of the machine. -/

namespace Sys2Proof.Machine

/-- A stream element is executed by a lane whose spans meet the contract and whose `STATE` is the step that reads it. -/
def atToken (s : State) (k : State → Flow) : Host.Outcome State Fault Refusal :=
  if s.lane.state = .readToken then onSpans s fun s => .next (k s).state else .refused .elementOutOfPlace

/-- `SEQ`: ReadToken; CopyLiterals; ReadMatch; `LEN <- TOK[3:0] + 4`; CopyMatch (R163). -/
def execSeq (ll ml : Nibble) (s : State) : Host.Outcome State Fault Refusal :=
  atToken s fun s =>
    ((((readToken (tokenByte ll ml) s).andThen copyLiterals).andThen readMatch).andThen fun s =>
      .goesOn (addMinMatch (loadMatchCode s))).andThen copyMatch

/-- `SEQ.XL`: ReadToken; EXTEND(F_LITEXT_EOS); CopyLiterals; ReadMatch; `LEN <- TOK[3:0] + 4`; CopyMatch (R164). -/
def execSeqXL (ml : Nibble) (s : State) : Host.Outcome State Fault Refusal :=
  atToken s fun s =>
    (((((readToken (tokenByte 15#4 ml) s).andThen (extend .litExtEos)).andThen copyLiterals).andThen readMatch).andThen
      fun s => .goesOn (addMinMatch (loadMatchCode s))).andThen copyMatch

/-- `SEQ.XM`: ReadToken; CopyLiterals; ReadMatch; `LEN <- 15`; EXTEND(F_MATEXT_EOS); `LEN <- LEN + 4`; CopyMatch (R165). -/
def execSeqXM (ll : Nibble) (s : State) : Host.Outcome State Fault Refusal :=
  atToken s fun s =>
    ((((readToken (tokenByte ll 15#4) s).andThen copyLiterals).andThen readMatch).andThen fun s =>
      (extend .matExtEos (s.withLane { s.lane with len := 15 })).andThen fun s => .goesOn (addMinMatch s)).andThen
      copyMatch

/-- `SEQ.XLXM`: both extensions (R166). -/
def execSeqXLXM (s : State) : Host.Outcome State Fault Refusal :=
  atToken s fun s =>
    (((((readToken 0xFF#8 s).andThen (extend .litExtEos)).andThen copyLiterals).andThen readMatch).andThen fun s =>
      (extend .matExtEos (s.withLane { s.lane with len := 15 })).andThen fun s => .goesOn (addMinMatch s)).andThen
      copyMatch

end Sys2Proof.Machine
end

