-- ==== Sys2Proof/Machine/Dispatch.lean ====
section
/-! DEFINITION. The one place that says which meaning each operation has. -/

namespace Sys2Proof.Machine

def exec (i : Instr) (s : State) : Host.Outcome State Fault Refusal :=
  match i with
  | .seq ll ml => Sys2Proof.Machine.execSeq ll ml s
  | .seqXL ml => Sys2Proof.Machine.execSeqXL ml s
  | .seqXM ll => Sys2Proof.Machine.execSeqXM ll s
  | .seqXLXM => Sys2Proof.Machine.execSeqXLXM s
  | .extCont => Sys2Proof.Machine.execExtCont s
  | .extEnd value => Sys2Proof.Machine.execExtEnd value s
  | .offset off => Sys2Proof.Machine.execOffset off s
  | .copyOverlap8 t m n => Sys2Proof.Machine.execCopyOverlap8 t m n s
  | .copyOverlap16 t m n => Sys2Proof.Machine.execCopyOverlap16 t m n s
  | .copyOverlap32 t m n => Sys2Proof.Machine.execCopyOverlap32 t m n s
  | .copyFromOutput8 t src => Sys2Proof.Machine.execCopyFromOutput8 t src s
  | .copyFromOutput16 t src => Sys2Proof.Machine.execCopyFromOutput16 t src s
  | .copyFromOutput32 t src => Sys2Proof.Machine.execCopyFromOutput32 t src s
  | .wildCopyIn8 t src size => Sys2Proof.Machine.execWildCopyIn8 t src size s
  | .wildCopyIn16 t src size => Sys2Proof.Machine.execWildCopyIn16 t src size s
  | .wildCopyIn32 t src size => Sys2Proof.Machine.execWildCopyIn32 t src size s
  | .wildCopyOut8 t src size => Sys2Proof.Machine.execWildCopyOut8 t src size s
  | .wildCopyOut16 t src size => Sys2Proof.Machine.execWildCopyOut16 t src size s
  | .wildCopyOut32 t src size => Sys2Proof.Machine.execWildCopyOut32 t src size s
  | .select ctx => Sys2Proof.Machine.execSelect ctx s
  | .update ctx v elapsed bytes => Sys2Proof.Machine.execUpdate ctx v elapsed bytes s
  | .decompress cmd => Sys2Proof.Machine.execDecompress cmd s

end Sys2Proof.Machine
end

