-- ==== Sys2Proof/Machine/Lane.lean ====
section
/-! DEFINITION. One step of a lane (R20 (b), R30). At a place where the stream's next element is read, the lane fetches it
at `IP`, decodes it and executes it; elsewhere it performs the step its `STATE` names; a lane whose decode has ended ends
its command; an idle lane does nothing (R248). -/

namespace Sys2Proof.Machine

/-- The kind of stream element the lane reads next, if its position is one at which it reads one. -/
def Lane.slot (l : Lane) : Option Slot :=
  match l.state with
  | .readToken => some .token
  | .readMatch => some .field
  | .extendLiteralLength | .extendMatchLength => if l.inExt then some .ext else none
  | .idle | .copyLiterals | .copyMatch | .done | .failed => none

/-- The stream bytes from `IP` on, as many as the element can take and the block still has (R61: the parser reads below
`SRC_SIZE` only). -/
def fetchBytes (slot : Slot) (s : State) : List Byte :=
  s.srcRead s.lane.ip (min slot.size (s.lane.srcSize - s.lane.ip))

/-- Fetch, decode and execute the element at `IP`; where the block ends first the lane raises the cause of its position
(R152, R153, R158). -/
def fetchStep (slot : Slot) (s : State) : Host.Outcome State Fault Refusal :=
  match decode slot (fetchBytes slot s) with
  | .ok (i, _) => exec i s
  | .error _ => .next (raiseFail (eosCause s.lane.state) s)

/-- A step of the decoder that reads no stream element: the test at the start of an extension (R154, R160), and the two
copies (R155, R161). -/
def innerStep (s : State) : Host.Outcome State Fault Refusal :=
  match s.lane.state with
  | .extendLiteralLength =>
    .next (if s.lane.len = 15 then s.withLane { s.lane with inExt := true } else s.goto .copyLiterals)
  | .extendMatchLength =>
    let s := loadMatchCode s
    .next (if s.lane.len = 15 then s.withLane { s.lane with inExt := true } else addMinMatch s)
  | .copyLiterals => .next (copyLiterals s).state
  | .copyMatch => .next (copyMatch s).state
  | .idle | .readToken | .readMatch | .done | .failed => .next s

/-- One step of the acting lane. -/
def laneStep (s : State) : Host.Outcome State Fault Refusal :=
  match s.lane.state with
  | .idle => .next s
  | .done | .failed => respond s
  | .readToken | .extendLiteralLength | .copyLiterals | .readMatch | .extendMatchLength | .copyMatch =>
    onSpans s fun s =>
      match s.lane.slot with
      | some slot => fetchStep slot s
      | none => innerStep s

/-- The same step at the grain of R30: at a token it performs ReadToken alone (R152) and goes on to step 2, where
`laneStep` runs the whole sequence. -/
def microStep (s : State) : Host.Outcome State Fault Refusal :=
  if s.lane.state = .readToken then
    onSpans s fun s =>
      match fetchBytes .token s with
      | tok :: _ => .next (readToken tok s).state
      | [] => .next (raiseFail .tokenEos s)
  else laneStep s

end Sys2Proof.Machine
end

