-- ==== Sys2Proof/Machine/HostSide.lean ====
section
/-! DEFINITION. The host's side (R20 (a), R219): its moves, what it can observe, whose turn it is, and one step of the
whole core. -/

namespace Sys2Proof.Machine

/-! ### What the host can observe (R247); reading it changes nothing (when it may: log entry 28) -/

/-- The registers of a lane the host can read (R22, R247). -/
structure LaneView where
  state : LaneState
  result : Bool
  fcause : Cause
  fip : Nat
  fop : Nat
  vsel : Variant
  deriving DecidableEq, Repr

/-- The registers of a context the host can read (R32, R247). -/
structure ContextView where
  est : Vector Wide 3
  cnt : Vector Count 3
  calls : Count
  deriving DecidableEq, Repr

/-- What the host reads of a lane. It is defined in every `STATE`: R247 sets no time for the read, while R22, R31 and R219
speak of the time after the response (DESIGN CHOICE, log entry 28). -/
def Lane.view (l : Lane) : LaneView := ⟨l.state, l.result, l.fcause, l.fip, l.fop, l.vsel⟩

/-- What the host reads of a context: a snapshot between two transactions. -/
def Context.view (c : Context) : ContextView := ⟨c.est, c.cnt, c.calls⟩

/-! ### Turns -/

/-- The state with the lane of the given number acting; `none` if there is no such lane. -/
def State.focus (s : State) (laneNo : Nat) : Option State :=
  match s.lanes.drop laneNo with
  | l :: above => some { s with lanesBelow := s.lanes.take laneNo, lane := l, lanesAbove := above }
  | [] => none

/-- A step for the lane of the given number. -/
def onLane (s : State) (laneNo : Nat) (k : State → Host.Outcome State Fault Refusal) :
    Host.Outcome State Fault Refusal :=
  match s.focus laneNo with
  | some s => k s
  | none => .refused .noSuchLane

/-! ### The host's moves -/

/-- The host makes memory accessible to the core (R263). -/
def hostProvide (r : Region) (s : State) : Host.Outcome State Fault Refusal :=
  if Config.addrLimit < r.base + r.size then .fault .noSuchAddress
  else .next { s with regions := s.regions ++ [r] }

/-- The host stores bytes in its memory; not into a span of a running command (R76, R219). -/
def hostStore (addr : Nat) (bytes : List Byte) (s : State) : Host.Outcome State Fault Refusal :=
  if Config.addrLimit < addr + bytes.length then .fault .noSuchAddress
  else if s.lanes.all fun l => !l.holdsSpans || l.avoids s.params.slack addr bytes.length then
    .next (s.withMem (s.mem.writeBytes addr bytes))
  else .refused .hostStoreIntoSpan

/-- The reset of the whole core, only while every lane is idle (R260, R219): lanes and contexts take their reset values;
`TIME`, the memory and the host's own affairs are not reset (R38). -/
def hostReset (s : State) : Host.Outcome State Fault Refusal :=
  if s.lanes.all fun l => l.state == .idle then
    .next { s with
      lanesBelow := s.lanesBelow.map fun _ => Lane.reset
      lane := Lane.reset
      lanesAbove := s.lanesAbove.map fun _ => Lane.reset
      ctxs := s.ctxs.map fun _ => Context.reset }
  else .refused .resetWhileRunning

/-- The command at the head of the host's moves is one the lane must wait for (R33). -/
def commandWaits (cmd : Command) (s : State) : Bool := (contractProblem cmd s).isNone && selectWaits cmd s

/-- The host issues a command to a lane (R210); while its SELECT has to wait, the move stays where it is. -/
def hostIssue (laneNo : Nat) (cmd : Command) (rest : List HostMove) (s : State) : Host.Outcome State Fault Refusal :=
  onLane s laneNo fun s => if commandWaits cmd s then .next s else exec (.decompress cmd) { s with host := rest }

/-- The host's next move; with none to make it does nothing. -/
def hostStep (s : State) : Host.Outcome State Fault Refusal :=
  match s.host with
  | [] => .next s
  | .provide r :: rest => hostProvide r { s with host := rest }
  | .store addr bytes :: rest => hostStore addr bytes { s with host := rest }
  | .issue laneNo cmd :: rest => hostIssue laneNo cmd rest s
  | .reset :: rest => hostReset { s with host := rest }

/-! ### One step of the core -/

/-- `TIME` advances by a free amount and never wraps (R34, D15); one draw is used. -/
def State.tick (s : State) : State :=
  { s with time := saturate 64 (s.time.toNat + Config.tick s.draws), draws := s.draws + 1 }

/-- The number of the first lane that runs a command, if one does. -/
def State.runningLane (s : State) : Option Nat := s.lanes.findIdx? fun l => l.state != .idle

/-- The turn where the agenda lays nothing down (log entry 15): the acting lane goes on until it is idle, then the first lane
that still runs a command does, so that every command comes to its response (R272), and with no command running the host
moves. -/
def defaultTurn (s : State) : Host.Outcome State Fault Refusal :=
  if s.lane.state = .idle then
    match s.runningLane with
    | some laneNo => onLane s laneNo laneStep
    | none => hostStep s
  else laneStep s

/-- The agent whose turn it is moves. -/
def agentStep (s : State) : Host.Outcome State Fault Refusal :=
  match s.agenda with
  | .host :: rest => hostStep { s with agenda := rest }
  | .lane laneNo :: rest => onLane { s with agenda := rest } laneNo laneStep
  | [] => defaultTurn s

/-- One step of the core: the timer moves, then one agent does. -/
def coreStep (s : State) : Host.Outcome State Fault Refusal := agentStep s.tick

/-! ### A word placed where the core fetches next -/

/-- Where `withFetchWord` places the stream. -/
def fetchSrcBase : Nat := 0

/-- The length of the block `withFetchWord` places: longer than any one sequence whose later bytes are 0. -/
def fetchSrcSize : Nat := 64

/-- Where `withFetchWord` places the output. -/
def fetchDstBase : Nat := 0x100000

/-- The output size for a stream element of the given slot: below the threshold, or room for every offset. -/
def fetchDstSize : Slot → Nat
  | .field => 0x10000
  | _ => 1024

/-- The output cursor: at the start for a token, past the largest offset for the offset field. -/
def fetchOp : Slot → Nat
  | .field => 0xFFFF
  | _ => 0

/-- The bytes of an opcode-table word in stream order, with zeros up to the block's end. -/
def wordBytes (nbits w : Nat) : List Byte := (List.range fetchSrcSize).map fun i => tableByte (w % 2 ^ nbits) i

/-- The acting lane at the place where an element of the slot is read, with a block at `fetchSrcBase`. -/
def fetchLane (slot : Slot) (l : Lane) : Lane :=
  { l with
    ip := 0, op := fetchOp slot, srcBase := fetchSrcBase, srcSize := fetchSrcSize, dstBase := fetchDstBase,
    dstSize := fetchDstSize slot, inExt := false
    state := match slot with
      | .field => .readMatch
      | _ => .readToken }

/-- The state in which the acting lane's next step fetches the given word: its block is placed in memory, both spans are
made accessible, and the turn is the lane's. -/
def fetchSetup (nbits w : Nat) (s : State) : State :=
  { s with
    lane := fetchLane (tableSlot nbits) s.lane
    mem := s.mem.writeBytes fetchSrcBase (wordBytes nbits w)
    regions := s.regions ++
      [⟨fetchSrcBase, fetchSrcSize + s.params.slack, false⟩, ⟨fetchDstBase, fetchDstSize (tableSlot nbits), true⟩]
    agenda := [] }

end Sys2Proof.Machine
end

