-- ==== Sys2Proof/Machine/Step.lean ====
section
/-! DEFINITION. The step of the machine, and the placing of a word where it fetches its next instruction. -/

namespace Sys2Proof.Machine

/-- One step of the core. -/
def step (s : State) : Host.Outcome State Fault Refusal := coreStep s

/-- The state with the given table word stored where the next step fetches its instruction (log entry 13). -/
def State.withFetchWord (s : State) (nbits w : Nat) : State := fetchSetup nbits w s

end Sys2Proof.Machine
end

