-- ==== Sys2Proof/Machine/Reference.lean ====
section
/-! DEFINITION. The reference decoder REF (R167): the byte-exact meaning of a block, with no strides and no width. It is
no part of the machine's step; statements compare the machine with it. S is the length of `src`, and `op` is always the
length of the output so far. -/

namespace Sys2Proof.Machine

/-- What REF returns (R167). -/
inductive RefResult where
  | ok (out : List Byte)
  | fail (cause : Cause) (ip op : Nat)
  deriving DecidableEq, Repr

/-- What one sequence does to REF's variables: on to the next one, or a result. -/
inductive RefStep where
  | more (ip : Nat) (out : List Byte)
  | stop (r : RefResult)
  deriving DecidableEq, Repr

/-- An extension run from `ip` on, added to `len`: the length and the cursor after it, or the cursor at which the block
ended first. With `fuel = S − ip` it never stops for want of fuel. -/
def refExtend (src : List Byte) : Nat → Nat → Nat → Except Nat (Nat × Nat)
  | 0, ip, _ => .error ip
  | fuel + 1, ip, len =>
    if src.length ≤ ip then .error ip
    else
      let b := src.getD ip 0#8
      if b = 255#8 then refExtend src fuel (ip + 1) (len + b.toNat) else .ok (len + b.toNat, ip + 1)

/-- The length a 4-bit code stands for, its extension at `ip` (R92, R93, R95). -/
def refLength (src : List Byte) (code : Nibble) (ip : Nat) : Except Nat (Nat × Nat) :=
  if code = 15#4 then refExtend src (src.length - ip) ip 15 else .ok (code.toNat, ip)

/-- The match loop: `out <- out ++ [ out[op + j − off] ]` for `j` = 0, 1, …, one byte at a time. -/
def refCopy (off : Nat) : Nat → List Byte → List Byte
  | 0, out => out
  | m + 1, out => refCopy off m (out ++ [out.getD (out.length - off) 0#8])

/-- The match part of a sequence, from the offset on. -/
def refMatch (src : List Byte) (d : Nat) (ml : Nibble) (ip : Nat) (out : List Byte) : RefStep :=
  if src.length - ip < 2 then .stop (.fail .offsetEos ip out.length)
  else
    let off := (offsetOf (src.getD ip 0#8) (src.getD (ip + 1) 0#8)).toNat
    if off = 0 then .stop (.fail .offsetZero (ip + 2) out.length)
    else if out.length < off then .stop (.fail .offsetRange (ip + 2) out.length)
    else
      match refLength src ml (ip + 2) with
      | .error ip => .stop (.fail .matExtEos ip out.length)
      | .ok (m, ip) =>
        if d < out.length + (m + Config.minMatch) then .stop (.fail .matchDst ip out.length)
        else .more ip (refCopy off (m + Config.minMatch) out)

/-- One pass of REF's loop: one sequence. -/
def refSequence (src : List Byte) (d ip : Nat) (out : List Byte) : RefStep :=
  if src.length ≤ ip then .stop (.fail .tokenEos ip out.length)
  else
    match refLength src (tokLL (src.getD ip 0#8)) (ip + 1) with
    | .error ip => .stop (.fail .litExtEos ip out.length)
    | .ok (len, litAt) =>
      if d < out.length + len then .stop (.fail .litDst litAt out.length)
      else if src.length < litAt + len then .stop (.fail .litSrc litAt out.length)
      else if out.length + len = d then .stop (.ok (out ++ (src.drop litAt).take len))
      else refMatch src d (tokML (src.getD ip 0#8)) (litAt + len) (out ++ (src.drop litAt).take len)

/-- REF's loop over at most `fuel` sequences; `S + 1` is enough, since each moves `ip` forward within S. -/
def refLoop (src : List Byte) (d : Nat) : Nat → Nat → List Byte → RefResult
  | 0, ip, out => .fail .tokenEos ip out.length
  | fuel + 1, ip, out =>
    match refSequence src d ip out with
    | .stop r => r
    | .more ip out => refLoop src d fuel ip out

/-- `REF(src, S, D)` (R167). -/
def ref (src : List Byte) (d : Nat) : RefResult :=
  if src.length = 0 ∨ d = 0 then .ok [] else refLoop src d (src.length + 1) 0 []

end Sys2Proof.Machine
end

