-- ==== Sys2Proof/Safety.lean ====
section
/-! DEFINITION. The words statements are made in: the contract a running command meets, the invariants of a run, the run
of one lane to the end of its decode, and what a sequence's operands and results are. -/

namespace Sys2Proof.Machine

/-! ### The contract -/

/-- The latched spans of the acting lane meet R211 (a), (b) and (c): they do not wrap, they are accessible, and they do not
meet each other. -/
def State.SpansOk (s : State) : Prop :=
  s.lane.srcBase + s.lane.srcSize + s.params.slack ≤ Config.addrLimit
    ∧ s.lane.dstBase + s.lane.dstSize ≤ Config.addrLimit
    ∧ spanProblem s.params.slack s.regions s.lane.srcBase s.lane.srcSize s.lane.dstBase s.lane.dstSize = none

/-- `SLACK ≥ 31` (R8, R9). -/
def State.SlackOk (s : State) : Prop := Config.minSlack ≤ s.params.slack

/-- The acting lane is at a sequence boundary of a running command: `STATE` = ReadToken, spans in order, `IP ≤ S`,
`OP ≤ D` (R37). -/
def State.AtBoundary (s : State) : Prop :=
  s.SlackOk ∧ s.SpansOk ∧ s.lane.state = .readToken ∧ s.lane.ip ≤ s.lane.srcSize ∧ s.lane.op ≤ s.lane.dstSize

/-- A decode has just been started: the first sequence boundary of a command with both sizes positive, its diagnostic
registers cleared (R150, R262). -/
def State.AtStart (s : State) : Prop :=
  s.AtBoundary ∧ s.lane.ip = 0 ∧ s.lane.op = 0 ∧ 0 < s.lane.srcSize ∧ 0 < s.lane.dstSize
    ∧ s.lane.fcause = .none ∧ s.lane.fip = 0 ∧ s.lane.fop = 0

/-! ### Contents -/

/-- The compressed block `SRC[0 .. S)` of the acting lane. -/
def State.block (s : State) : List Byte := s.srcRead 0 s.lane.srcSize

/-- The first n output bytes `DST[0 .. n)` of the acting lane. -/
def State.output (s : State) (n : Nat) : List Byte := s.dstRead 0 n

/-- Every byte of memory whose address is outside `[b, e)` is the same in both states. -/
def SameOutside (s t : State) (b e : Nat) : Prop := ∀ a, a < b ∨ e ≤ a → t.mem.read a = s.mem.read a

/-- Two states differ at most in memory and in the acting lane's registers. -/
def SameAround (s t : State) : Prop := t = (s.withMem t.mem).withLane t.lane

/-- The acting lane's registers that no stream element and no copy writes: the command registers, `RESULT`, `VSEL` and the
time the decode began (R28, R29, R31). -/
def SameCommand (l l' : Lane) : Prop :=
  l'.srcBase = l.srcBase ∧ l'.srcSize = l.srcSize ∧ l'.dstBase = l.dstBase ∧ l'.dstSize = l.dstSize ∧ l'.ctx = l.ctx
    ∧ l'.result = l.result ∧ l'.vsel = l.vsel ∧ l'.t0 = l.t0

/-- The diagnostic registers are the same (R31). -/
def SameDiagnosis (l l' : Lane) : Prop := l'.fcause = l.fcause ∧ l'.fip = l.fip ∧ l'.fop = l.fop

/-- The state differs from `s` in memory, in `MP` and in `VEC` at most: what a copy may change. -/
def OnlyCopied (s t : State) : Prop :=
  t = (s.withMem t.mem).withLane { s.lane with mp := t.lane.mp, vec := t.lane.vec }

/-! ### Runs -/

/-- At most `k` steps of the acting lane, stopping when its decode has ended. -/
def runLane : Nat → State → Host.Outcome State Fault Refusal
  | 0, s => .next s
  | k + 1, s =>
    if s.lane.state.decoding then
      match laneStep s with
      | .next t => runLane k t
      | .fault r => .fault r
      | .refused r => .refused r
    else .next s

/-- `k` steps of the acting lane at the grain of R30. -/
def microRun : Nat → State → Host.Outcome State Fault Refusal
  | 0, s => .next s
  | k + 1, s =>
    match microStep s with
    | .next t => microRun k t
    | .fault r => .fault r
    | .refused r => .refused r

/-- `k` steps of the core. -/
def coreRun : Nat → State → Host.Outcome State Fault Refusal
  | 0, s => .next s
  | k + 1, s =>
    match step s with
    | .next t => coreRun k t
    | .fault r => .fault r
    | .refused r => .refused r

/-- `contextAt k` is what the SELECT number `k` on one context finds there: each counts one call, and any number of UPDATEs,
which leave `CALLS` alone, may come between one SELECT and the next (R192, R193, R196). -/
def SelectHistory (contextAt : Nat → Context) : Prop :=
  ∀ k, (contextAt (k + 1)).calls = (contextAt k).calls + 1#32

/-- The variants that `m` consecutive SELECTs of a history return, from number `n` on (R192, R195). -/
def selections (contextAt : Nat → Context) (n m : Nat) : List Variant :=
  (List.range m).map fun k => chosenVariant (contextAt (n + k))

/-- The acting lane's decode ended as REF's result says: `Done` with the output in `DST[0 .. D)`, or `Failed` with the
cause and the two cursors recorded (R168). -/
def EndsAs (r : RefResult) (t : State) : Prop :=
  match r with
  | .ok out => t.lane.state = .done ∧ t.lane.fcause = .none ∧ t.output t.lane.dstSize = out
  | .fail c ip op => t.lane.state = .failed ∧ t.lane.fcause = c ∧ t.lane.fip = ip ∧ t.lane.fop = op

/-- REF's loop, started at the beginning of the block, comes to the sequence at `ip` with the output `out`. -/
inductive RefReaches (src : List Byte) (d : Nat) : Nat → List Byte → Prop where
  | start : RefReaches src d 0 []
  | sequence {ip ip' : Nat} {out out' : List Byte} :
      RefReaches src d ip out → refSequence src d ip out = .more ip' out' → RefReaches src d ip' out'

/-! ### Sequences -/

/-- The operands of a non-final sequence that stands at `IP` and runs to its end: token, literal length `l`, first literal
at `litAt`, offset, match length `m`, first byte after it at `next` (R90 to R97). -/
def NonFinalAt (s : State) (tok : Byte) (l litAt off m next : Nat) : Prop :=
  s.lane.ip < s.lane.srcSize
    ∧ refLength s.block (tokLL tok) (s.lane.ip + 1) = .ok (l, litAt)
    ∧ s.lane.op + l < s.lane.dstSize
    ∧ litAt + l + 2 ≤ s.lane.srcSize
    ∧ off = (offsetOf (s.src (litAt + l)) (s.src (litAt + l + 1))).toNat
    ∧ 1 ≤ off ∧ off ≤ s.lane.op + l
    ∧ Config.minMatch ≤ m ∧ refLength s.block (tokML tok) (litAt + l + 2) = .ok (m - Config.minMatch, next)
    ∧ s.lane.op + l + m ≤ s.lane.dstSize

/-- What such a sequence leaves: the cursors past it, its registers, the committed prefix untouched, the literals copied,
and the match, byte by byte, the byte `off` before it. -/
def NonFinalDone (s t : State) (tok : Byte) (l litAt off m next : Nat) : Prop :=
  t.lane.state = .readToken ∧ t.lane.ip = next ∧ t.lane.op = s.lane.op + l + m
    ∧ t.lane.tok = tok ∧ t.lane.off.toNat = off ∧ t.lane.len = m ∧ t.lane.cend = s.lane.op + l + m
    ∧ t.lane.inExt = false
    ∧ SameDiagnosis s.lane t.lane
    ∧ (∀ j, j < s.lane.op → t.dst j = s.dst j)
    ∧ (∀ j, j < l → t.dst (s.lane.op + j) = s.src (litAt + j))
    ∧ (∀ j, j < m → t.dst (s.lane.op + l + j) = t.dst (s.lane.op + l + j - off))

/-- The operands of the final sequence at `IP`: its literals end exactly at D (R97). -/
def FinalAt (s : State) (tok : Byte) (l litAt : Nat) : Prop :=
  s.lane.ip < s.lane.srcSize
    ∧ refLength s.block (tokLL tok) (s.lane.ip + 1) = .ok (l, litAt)
    ∧ s.lane.op + l = s.lane.dstSize
    ∧ litAt + l ≤ s.lane.srcSize

/-- What the final sequence leaves: `Done`, `IP` and `OP` as they were at the start of its CopyLiterals, the literals
copied (R157). -/
def FinalDone (s t : State) (tok : Byte) (l litAt : Nat) : Prop :=
  t.lane.state = .done ∧ t.lane.ip = litAt ∧ t.lane.op = s.lane.op
    ∧ t.lane.tok = tok ∧ t.lane.len = l ∧ t.lane.cend = s.lane.dstSize
    ∧ t.lane.off = s.lane.off ∧ t.lane.mp = s.lane.mp ∧ t.lane.inExt = false
    ∧ SameDiagnosis s.lane t.lane
    ∧ (∀ j, j < s.lane.op → t.dst j = s.dst j)
    ∧ (∀ j, j < l → t.dst (s.lane.op + j) = s.src (litAt + j))

/-- One past the last DST index a sequence of literal length `l` and match length `m` may store at, before the clip at D:
the literal strides, then two match strides and those of the wild copy (R155, R161, R269). -/
def storedEnd (w op l m : Nat) : Nat :=
  max (op + ceilTo w l) (op + l + 2 * w + if 2 * w < m then ceilTo w (m - 2 * w) else 0)

/-- The form `i`, executed on a non-final sequence whose token is `tok`, runs: its result and its frame. -/
def SequenceRuns (i : Instr) (tok : Byte) : Prop :=
  ∀ (s : State) (l litAt off m next : Nat), s.mem.wf → s.AtBoundary → NonFinalAt s tok l litAt off m next →
    ∃ t, exec i s = .next t ∧ NonFinalDone s t tok l litAt off m next
      ∧ SameAround s t ∧ SameCommand s.lane t.lane
      ∧ SameOutside s t (s.lane.dstBase + s.lane.op)
          (s.lane.dstBase + min s.lane.dstSize (storedEnd s.W s.lane.op l m))

/-- The form `i`, executed on a final sequence whose token is `tok`, runs: its result and its frame. -/
def FinalSequenceRuns (i : Instr) (tok : Byte) : Prop :=
  ∀ (s : State) (l litAt : Nat), s.mem.wf → s.AtBoundary → FinalAt s tok l litAt →
    ∃ t, exec i s = .next t ∧ FinalDone s t tok l litAt
      ∧ SameAround s t ∧ SameCommand s.lane t.lane
      ∧ SameOutside s t (s.lane.dstBase + s.lane.op) (s.lane.dstBase + s.lane.dstSize)

/-! ### Micro-operations -/

/-- A copy of `n` lanes stored at `pos` is done: only memory, `MP` and `VEC` differ, `MP` is `mp`, every active lane's byte
is the given one, and no byte outside the active lanes has changed (R66, R120). -/
def CopyStored (s t : State) (pos n : Nat) (byte : Nat → Byte) (mp : Nat) : Prop :=
  OnlyCopied s t ∧ t.lane.mp = mp
    ∧ (∀ j, j < n → pos + j < s.lane.dstSize → t.dst (pos + j) = byte j)
    ∧ SameOutside s t (s.lane.dstBase + pos) (s.lane.dstBase + min s.lane.dstSize (pos + n))

/-- `i` is `COPYFROMOUTPUT_W` of width `w`, and runs as R121 says. -/
def PlainCopyRuns (w : Nat) (i : Nat → Nat → Instr) : Prop :=
  ∀ (s : State) (t src : Nat), s.mem.wf → s.SpansOk → src + w ≤ t →
    ∃ u, exec (i t src) s = .next u ∧ CopyStored s u t w (fun j => s.dst (src + j)) (src + w)

/-- `i` is `WILDCOPYIN_W` of width `w`, and runs as R123 says. -/
def WildCopyInRuns (w : Nat) (i : Nat → Nat → Nat → Instr) : Prop :=
  ∀ (s : State) (t src size : Nat), s.mem.wf → s.SpansOk →
    src + ceilTo w size ≤ s.lane.srcSize + s.params.slack → t + size ≤ s.lane.dstSize →
    ∃ u, exec (i t src size) s = .next u ∧ CopyStored s u t (ceilTo w size) (fun j => s.src (src + j)) s.lane.mp

/-- `i` is `WILDCOPYOUT_W` of width `w`, and runs as R122 says: each byte stored is the byte at the load index, which an
earlier stride may have stored. -/
def WildCopyOutRuns (w : Nat) (i : Nat → Nat → Nat → Instr) : Prop :=
  ∀ (s : State) (t src size : Nat), s.mem.wf → s.SpansOk → src + w ≤ t → t + size ≤ s.lane.dstSize →
    ∃ u, exec (i t src size) s = .next u ∧ CopyStored s u t (ceilTo w size) (fun j => u.dst (src + j)) s.lane.mp

/-- `i` is `COPYOVERLAP_W` of width `w`, and runs as R124 and R126 say. -/
def OverlapRuns (w : Nat) (i : Nat → Nat → Nat → Instr) : Prop :=
  ∀ (s : State) (m n : Nat), s.mem.wf → s.SpansOk → 1 ≤ n → n < w → m + n < s.lane.dstSize →
    ∃ u, exec (i (m + n) m n) s = .next u
      ∧ CopyStored s u (m + n) w (fun j => s.dst (m + j % n)) (m + if w % n = 0 then n else w % n)

/-- The same state with the other realisation of the overlap copy, or the same (R8, D23). -/
def State.withOcpu (s : State) (o : Config.OcpuImpl) : State := { s with params := { s.params with ocpuImpl := o } }

/-- The overlap copy `overlap` and the plain stride `plain` of width `w` follow each other in phase (R131). -/
def StaysInPhase (w : Nat) (overlap : Nat → Nat → Nat → Instr) (plain : Nat → Nat → Instr) : Prop :=
  ∀ (s : State) (m n : Nat), s.mem.wf → s.SpansOk → 1 ≤ n → n < w → m + n < s.lane.dstSize →
    ∃ u v, exec (overlap (m + n) m n) s = .next u ∧ exec (plain (m + n + w) u.lane.mp) u = .next v
      ∧ ∀ x, m ≤ x → x < m + n + 2 * w → x < s.lane.dstSize → v.dst x = s.dst (m + (x - m) % n)

/-- The two realisations of the overlap copy `overlap` of width `w` store the same bytes and return the same pointer (R129). -/
def RealisationsAgree (w : Nat) (overlap : Nat → Nat → Nat → Instr) : Prop :=
  ∀ (s : State) (m n : Nat), s.mem.wf → s.SpansOk → 1 ≤ n → n < w → m + n < s.lane.dstSize →
    ∃ u v, exec (overlap (m + n) m n) (s.withOcpu .shuffle) = .next u
      ∧ exec (overlap (m + n) m n) (s.withOcpu .scalar) = .next v ∧ u.mem = v.mem ∧ u.lane.mp = v.lane.mp

/-- The four micro-operations of width `w` are refused outside the preconditions of R121 to R124; and one that runs raises
no failure and leaves `STATE` as it was (R132). -/
def RefusesOutside (w : Nat) (overlap : Nat → Nat → Nat → Instr) (plain : Nat → Nat → Instr)
    (wildIn wildOut : Nat → Nat → Nat → Instr) : Prop :=
  ∀ (s : State) (t m n src size : Nat),
    (n < 1 ∨ w ≤ n ∨ t ≠ m + n ∨ s.lane.dstSize ≤ t → exec (overlap t m n) s = .refused .preconditionBroken)
    ∧ (t < src + w → exec (plain t src) s = .refused .preconditionBroken)
    ∧ (s.lane.srcSize + s.params.slack < src + ceilTo w size ∨ s.lane.dstSize < t + size →
        exec (wildIn t src size) s = .refused .preconditionBroken)
    ∧ (t < src + w ∨ s.lane.dstSize < t + size → exec (wildOut t src size) s = .refused .preconditionBroken)
    ∧ ∀ (i : Instr) (u : State),
        i = overlap t m n ∨ i = plain t src ∨ i = wildIn t src size ∨ i = wildOut t src size →
        exec i s = .next u → u.lane.state = s.lane.state ∧ SameDiagnosis s.lane u.lane

/-! ### The host's contract, address by address -/

/-- An address of the source span, slack included, of a command (R68). -/
def InSource (slack : Nat) (base size a : Nat) : Prop := base ≤ a ∧ a < base + size + slack

/-- An address of the destination span of a command (R68). -/
def InDest (base size a : Nat) : Prop := base ≤ a ∧ a < base + size

/-- A byte of either span of the command that runs on a lane (R76). -/
def Lane.InSpans (slack : Nat) (l : Lane) (a : Nat) : Prop :=
  InSource slack l.srcBase l.srcSize a ∨ InDest l.dstBase l.dstSize a

/-- The command breaks R211 on the acting lane: (e), (b), (d), and, if neither size is zero, (a) and (c), said of
addresses (R211, R243). -/
def ContractBroken (cmd : Command) (s : State) : Prop :=
  s.lane.state ≠ .idle
    ∨ Config.maxSize < cmd.sourceSize ∨ Config.maxSize < cmd.destSize
    ∨ Config.addrLimit < cmd.source + cmd.sourceSize + s.params.slack
    ∨ Config.addrLimit ≤ cmd.dest ∨ Config.addrLimit < cmd.dest + cmd.destSize
    ∨ s.ctxs.length ≤ cmd.stats
    ∨ (0 < cmd.sourceSize ∧ 0 < cmd.destSize
        ∧ ((∃ a, InSource s.params.slack cmd.source cmd.sourceSize a ∧ ∀ r ∈ s.regions, r.holds a = false)
          ∨ (∃ a, InDest cmd.dest cmd.destSize a ∧ ∀ r ∈ s.regions, r.writable = true → r.holds a = false)
          ∨ (∃ a, InSource s.params.slack cmd.source cmd.sourceSize a ∧ InDest cmd.dest cmd.destSize a)
          ∨ ∃ l ∈ s.otherLanes, l.holdsSpans = true ∧ ∃ a, l.InSpans s.params.slack a
              ∧ (InSource s.params.slack cmd.source cmd.sourceSize a ∨ InDest cmd.dest cmd.destSize a)))

/-- The acting lane's registers once a command is latched (R210, R212). -/
def Lane.latched (l : Lane) (cmd : Command) : Lane :=
  { l with
    srcBase := cmd.source, srcSize := cmd.sourceSize, dstBase := cmd.dest, dstSize := cmd.destSize, ctx := cmd.stats,
    fcause := .none, fip := 0, fop := 0 }

/-- It is a lane's turn, and `u` is the state in which it takes its step: the timer has moved. The turn is the acting lane's,
or, once that is idle, the first running lane's, or that of the lane the agenda names (log entry 15). -/
def State.TurnOf (s u : State) : Prop :=
  (s.agenda = [] ∧ s.lane.state ≠ .idle ∧ u = s.tick)
    ∨ (s.agenda = [] ∧ s.lane.state = .idle ∧ ∃ k l, s.lanes[k]? = some l ∧ l.state ≠ .idle
        ∧ (∀ l' ∈ s.lanes.take k, l'.state = .idle) ∧ s.tick.focus k = some u)
    ∨ ∃ k rest, s.agenda = .lane k :: rest ∧ ({ s.tick with agenda := rest }).focus k = some u

/-- The host's read of `VSEL` after a SELECT is the variant R192 names: a probe, or the least index of a maximal `EST`. -/
def SelectedVariant (c : Context) (v : Variant) : Prop :=
  (c.calls.toNat % 64 < 3 → v.val = c.calls.toNat % 64)
    ∧ (3 ≤ c.calls.toNat % 64 → (∀ u : Variant, c.est[u] ≤ c.est[v]) ∧ ∀ u : Variant, u < v → c.est[u] < c.est[v])

/-- `c'` is `c` with one sample of variant `v` folded in (R193, R194), all else as it was. -/
def SampleFolded (v : Variant) (elapsed bytes : Nat) (c c' : Context) : Prop :=
  let s := min (bytes * 2 ^ 16 / max elapsed 1) (2 ^ 64 - 1)
  (c.cnt[v] = 0#32 → c'.est[v].toNat = s)
    ∧ (c.cnt[v] ≠ 0#32 → c'.est[v].toNat = c.est[v].toNat - c.est[v].toNat / 8 + s / 8)
    ∧ c'.cnt[v].toNat = min (c.cnt[v].toNat + 1) (2 ^ 32 - 1)
    ∧ (∀ u : Variant, u ≠ v → c'.est[u] = c.est[u] ∧ c'.cnt[u] = c.cnt[u])
    ∧ c'.calls = c.calls ∧ c'.lock = c.lock

/-- Everything but memory and the acting lane's registers is the same, and so are its command registers: what the end of a
command without a measurement leaves (R216, R240, R242). -/
def Responded (s t : State) : Prop :=
  t.lane.state = .idle ∧ t.lane.result = decide (s.lane.state = .done) ∧ t.lane.inExt = false
    ∧ SameDiagnosis s.lane t.lane
    ∧ t.lane.srcBase = s.lane.srcBase ∧ t.lane.srcSize = s.lane.srcSize ∧ t.lane.dstBase = s.lane.dstBase
    ∧ t.lane.dstSize = s.lane.dstSize ∧ t.lane.ctx = s.lane.ctx ∧ t.lane.vsel = s.lane.vsel ∧ t.lane.t0 = s.lane.t0
    ∧ (s.lane.state = .done → t.mem = s.mem)
    ∧ SameOutside s t s.lane.dstBase (s.lane.dstBase + s.lane.dstSize)
    ∧ t = { s with lane := t.lane, mem := t.mem, ctxs := t.ctxs, draws := s.draws + 1 }

/-! ### Invariants -/

/-- A running command meets the contract it was accepted under (R211 (a) to (d)). -/
def Lane.Contract (p : Config.Params) (rs : List Region) (nCtx : Nat) (l : Lane) : Prop :=
  l.state ≠ .idle →
    l.ctx < nCtx ∧ l.srcSize ≤ Config.maxSize ∧ l.dstSize ≤ Config.maxSize
      ∧ l.srcBase + l.srcSize + p.slack ≤ Config.addrLimit ∧ l.dstBase + l.dstSize ≤ Config.addrLimit
      ∧ (l.holdsSpans = true → spanProblem p.slack rs l.srcBase l.srcSize l.dstBase l.dstSize = none)

/-- Two lanes' commands have no byte of their spans in common (R76). -/
def Lane.Apart (p : Config.Params) (l l' : Lane) : Prop :=
  l.holdsSpans = true → l'.holdsSpans = true →
    l'.avoids p.slack l.srcBase (l.srcSize + p.slack) = true ∧ l'.avoids p.slack l.dstBase l.dstSize = true

/-- The shape of the instance and the contracts of all running commands. -/
def ContractInv (s : State) : Prop :=
  s.params.wf ∧ s.lanes.length = s.params.nLanes ∧ s.ctxs.length = s.params.nCtx
    ∧ (∀ l ∈ s.lanes, l.Contract s.params s.regions s.ctxs.length)
    ∧ s.lanes.Pairwise (Lane.Apart s.params)

/-- What a lane's cursors and lengths satisfy at each position of a decode, and its diagnostic registers (R23, R24, R25,
R31, R37, R154, R159, R160). -/
def Lane.CursorsOk (l : Lane) : Prop :=
  (l.state.decoding = true →
      0 < l.srcSize ∧ 0 < l.dstSize ∧ l.ip ≤ l.srcSize ∧ l.op ≤ l.dstSize
        ∧ l.fcause = .none ∧ l.fip = 0 ∧ l.fop = 0)
    ∧ (l.state = .readToken ∨ l.state = .copyLiterals ∨ l.state = .readMatch ∨ l.state = .copyMatch → l.inExt = false)
    ∧ (l.state = .readMatch ∨ l.state = .extendMatchLength ∨ l.state = .copyMatch → l.op < l.dstSize)
    ∧ (l.state = .extendMatchLength ∨ l.state = .copyMatch →
        1 ≤ l.off.toNat ∧ l.off.toNat ≤ l.op ∧ l.mp = l.op - l.off.toNat)
    ∧ (l.state = .copyMatch → Config.minMatch ≤ l.len)
    ∧ (l.state = .done → l.fcause = .none ∧ l.fip = 0 ∧ l.fop = 0)
    ∧ (l.state = .failed →
        0 < l.srcSize ∧ 0 < l.dstSize ∧ l.fcause ≠ .none ∧ l.fip ≤ l.srcSize ∧ l.fop ≤ l.dstSize)

/-- Every lane's cursors are in order. -/
def CursorInv (s : State) : Prop := ∀ l ∈ s.lanes, l.CursorsOk

/-- No lock is held between two steps (R33), and no lane has read a time that lies ahead (R34, R215). -/
def ClockAndLockInv (s : State) : Prop :=
  (∀ c ∈ s.ctxs, c.lock = false) ∧ ∀ l ∈ s.lanes, l.t0 ≤ s.time

/-- `LEN` stays within what the bytes read so far can add up to (R25, R171). -/
def Lane.LengthOk (l : Lane) : Prop :=
  (l.state = .extendLiteralLength ∨ l.state = .copyLiterals ∨ l.state = .readMatch ∨ l.state = .extendMatchLength →
      l.len ≤ 15 + 255 * l.ip)
    ∧ (l.state = .copyMatch → l.len ≤ 19 + 255 * l.ip)

/-- Every `AW`-bit register of a lane holds an `AW`-bit number (R10, R21, R28, R31). -/
def Lane.Fits (l : Lane) : Prop :=
  l.ip < Config.addrLimit ∧ l.op < Config.addrLimit ∧ l.len < Config.addrLimit ∧ l.mp < Config.addrLimit
    ∧ l.cend < Config.addrLimit ∧ l.srcBase < Config.addrLimit ∧ l.srcSize < Config.addrLimit
    ∧ l.dstBase < Config.addrLimit ∧ l.dstSize < Config.addrLimit ∧ l.fip < Config.addrLimit
    ∧ l.fop < Config.addrLimit ∧ l.vec.length = 32

/-- No register overflows its width, with what that rests on (R10, R25). -/
def RegistersFit (s : State) : Prop :=
  ContractInv s ∧ CursorInv s ∧ ∀ l ∈ s.lanes, l.LengthOk ∧ l.Fits

end Sys2Proof.Machine
end

