-- ==== Sys2Proof/Certificates/Slice0/Obligations.lean ====
section
/-! DEFINITION. The statements the model is asked to meet. Each docstring names the rules of the spec it comes from; where
a clause is the model's own choice it names the log entry. -/

open Sys2Proof Sys2Proof.Machine

/-! ### Encoding -/

/-- R90, R91, R94, R96, R100: whatever follows, the decoder reads a well-formed operation back from its encoding, and
nothing of what follows is consumed. -/
def Obligations.DecodeInvertsEncode : Prop :=
  ∀ (i : Instr) (slot : Slot) (rest : List Byte), i.wf = true → i.slot = some slot →
    decode slot (encode i ++ rest) = .ok (i, rest)

/-- R90, R96, R99 (a), R100: what the decoder reads is a well-formed operation of the slot, its encoding is exactly the
bytes consumed, and only a stream that is too short for the slot is refused. -/
def Obligations.EncodeInvertsDecode : Prop :=
  (∀ (slot : Slot) (bytes rest : List Byte) (i : Instr), decode slot bytes = .ok (i, rest) →
    i.wf = true ∧ i.slot = some slot ∧ encode i ++ rest = bytes)
  ∧ ∀ (slot : Slot) (bytes : List Byte),
      decode slot bytes = .error (.streamEnds slot) ↔ bytes.length < slot.size

/-- R96: the two nibbles alone select the form of a token. -/
def Obligations.TokenFormFollowsFromNibbles : Prop :=
  ∀ b : Byte,
    (b.toNat / 16 = 15 ∧ b.toNat % 16 = 15 → decodeToken b = .seqXLXM)
    ∧ (b.toNat / 16 = 15 ∧ b.toNat % 16 ≠ 15 → decodeToken b = .seqXL (BitVec.ofNat 4 (b.toNat % 16)))
    ∧ (b.toNat / 16 ≠ 15 ∧ b.toNat % 16 = 15 → decodeToken b = .seqXM (BitVec.ofNat 4 (b.toNat / 16)))
    ∧ (b.toNat / 16 ≠ 15 ∧ b.toNat % 16 ≠ 15 →
        decodeToken b = .seq (BitVec.ofNat 4 (b.toNat / 16)) (BitVec.ofNat 4 (b.toNat % 16)))

/-- The words of the spec's encoding tables (95 sections 4.1 to 4.3) decode to the operations they stand for. -/
def Obligations.SpecWordsDecode : Prop :=
  decode .token [0x32#8] = .ok (.seq 3#4 2#4, [])
  ∧ decode .token [0xEE#8] = .ok (.seq 14#4 14#4, [])
  ∧ decode .token [0xF0#8] = .ok (.seqXL 0#4, [])
  ∧ decode .token [0x2F#8] = .ok (.seqXM 2#4, [])
  ∧ decode .token [0xFF#8] = .ok (.seqXLXM, [])
  ∧ decode .ext [0xFF#8, 0x01#8] = .ok (.extCont, [0x01#8])
  ∧ decode .ext [0xFE#8] = .ok (.extEnd 254#8, [])
  ∧ decode .field [0x34#8, 0x12#8] = .ok (.offset 0x1234#16, [])
  ∧ decode .field [0x00#8, 0x01#8] = .ok (.offset 256#16, [])

/-- R92: a run of k bytes 255 and a last byte that is not 255 has the value 255·k plus the last byte; every run that reads
is one of these; and a value has exactly one spelling. A length from 15 on is written as code 15 and the extension of the
length less 15. -/
def Obligations.ExtensionHasOneSpelling : Prop :=
  (∀ (k : Nat) (b : Byte) (rest : List Byte), b ≠ 255#8 →
    readExt (List.replicate k 255#8 ++ b :: rest) = some (255 * k + b.toNat, rest))
  ∧ (∀ (bytes rest : List Byte) (value : Nat), readExt bytes = some (value, rest) ↔ bytes = extBytes value ++ rest)
  ∧ ∀ (n : Nat) (rest : List Byte), 15 ≤ n →
      lengthCode n = 15#4 ∧ readLength (lengthCode n) (lengthExt n ++ rest) = some (n, rest)

/-- R90, R92 to R97, R102, R103: the assembler's bytes of a line parse back to the line, whatever follows; `room` is what
tells a non-final sequence from the final one. -/
def Obligations.AssembledLineParses : Prop :=
  (∀ (lit : List Byte) (off mlen room : Nat) (rest : List Byte), (AsmLine.seqLine lit off mlen).wf = true →
    lit.length ≠ room →
    parseSequence room (assemble (.seqLine lit off mlen) ++ rest) = some (.seqLine lit off mlen, rest))
  ∧ (∀ (lit : List Byte) (ml : Nat) (rest : List Byte), (AsmLine.endLine lit ml).wf = true →
    parseSequence lit.length (assemble (.endLine lit ml) ++ rest) = some (.endLine lit ml, rest))
  ∧ ∀ (b : Byte) (n room : Nat) (rest : List Byte), (AsmLine.repLine b n).wf = true → room ≠ 1 →
    parseSequence room (assemble (.repLine b n) ++ rest) = some (.seqLine [b] 1 (n - 1), rest)

/-! ### Reset -/

/-- R38, R246: after reset every lane is idle with its status and diagnostic registers 0, and every context has no
history and a free lock. These values are the spec's own decision D16. -/
def Obligations.ResetLeavesSpecValues : Prop :=
  ∀ p : Config.Params, p.wf →
    (State.resetWith p).lanes.length = p.nLanes ∧ (State.resetWith p).ctxs.length = p.nCtx
    ∧ (∀ l ∈ (State.resetWith p).lanes, l.state = .idle ∧ l.result = false ∧ l.fcause = .none ∧ l.fip = 0 ∧ l.fop = 0
        ∧ l.vsel = 0)
    ∧ ∀ c ∈ (State.resetWith p).ctxs, (∀ v : Variant, c.est[v] = 0#64 ∧ c.cnt[v] = 0#32) ∧ c.calls = 0#32
        ∧ c.lock = false

/-- R260, R219: the host's reset is refused unless every lane is idle; otherwise it resets every lane and every
context, and nothing else: memory, `TIME` and the host's regions stay. The values after reset are the spec's own
decision D16. How the registers that R38 leaves open are reset is log entry 21. -/
def Obligations.HostResetAppliesToIdleCore : Prop :=
  ∀ s : State,
    ((∃ l ∈ s.lanes, l.state ≠ .idle) → hostReset s = .refused .resetWhileRunning)
    ∧ ((∀ l ∈ s.lanes, l.state = .idle) → ∃ t, hostReset s = .next t
        ∧ t.mem = s.mem ∧ t.time = s.time ∧ t.regions = s.regions ∧ t.params = s.params
        ∧ t.host = s.host ∧ t.agenda = s.agenda
        ∧ t.lanes.length = s.lanes.length ∧ t.ctxs.length = s.ctxs.length
        ∧ (∀ l ∈ t.lanes, l.state = .idle ∧ l.result = false ∧ l.fcause = .none ∧ l.fip = 0 ∧ l.fop = 0 ∧ l.vsel = 0)
        ∧ ∀ c ∈ t.ctxs, (∀ v : Variant, c.est[v] = 0#64 ∧ c.cnt[v] = 0#32) ∧ c.calls = 0#32 ∧ c.lock = false)

/-- The invariants below hold of the machine right after reset, for every instance. The registers that R38 leaves open
hold zero there (log entry 1). -/
def Obligations.ResetMeetsInvariants : Prop :=
  ∀ p : Config.Params, p.wf →
    (State.resetWith p).mem.wf ∧ RegistersFit (State.resetWith p) ∧ ClockAndLockInv (State.resetWith p)

/-! ### The step -/

/-- R20, R90: in a lane's turn, at a place where an element of the stream is read, a step of the core is `exec` of the
operation decoded at `IP`, once the timer has moved; and that operation is well formed. That one step at a token
executes the whole decoded form, where R30's ReadToken reads the token alone, is the model's choice (log entry 9); so
are whose turn it is (log entry 15) and that the timer moves in each step (log entry 5). -/
def Obligations.StepRunsDecodedElement : Prop :=
  ∀ (s u : State) (slot : Slot) (i : Instr) (rest : List Byte), s.TurnOf u → u.SpansOk → u.lane.slot = some slot →
    decode slot (fetchBytes slot u) = .ok (i, rest) → step s = exec i u ∧ i.wf = true

/-- R152, R153, R158, R99 (e): in a lane's turn, where the block ends before the element the lane needs, the step is
the failure of that position, and it changes nothing but the lane's failure registers. That an extension cut short
fails is the spec's own decision D7; the diagnostic registers are its decision D11. Whose turn it is and that the timer
moves are the model's choices (log entries 15 and 5). That `RESULT` keeps its old value in `STATE` Failed, where R30
says 0, is log entry 8. -/
def Obligations.StepRaisesWhereBlockEnds : Prop :=
  ∀ (s u : State) (slot : Slot), s.TurnOf u → u.SpansOk → u.lane.slot = some slot →
    u.lane.srcSize < u.lane.ip + slot.size →
    ∃ c, step s = .next (u.withLane { u.lane with
        state := .failed, fcause := c, fip := u.lane.ip, fop := u.lane.op, inExt := false })
      ∧ (u.lane.state = .readToken → c = .tokenEos)
      ∧ (u.lane.state = .extendLiteralLength → c = .litExtEos)
      ∧ (u.lane.state = .readMatch → c = .offsetEos)
      ∧ (u.lane.state = .extendMatchLength → c = .matExtEos)

/-! ### The copy engine -/

/-- R121: result, completion and frame of `COPYFROMOUTPUT_W`. Inactive lanes and the single advance of the pointer are
the spec's own decisions D4 and D22. That the operation works on the acting lane's latched spans, and assigns its
pointer to `MP`, is log entry 25. -/
def Obligations.PlainCopyResult : Prop :=
  PlainCopyRuns 8 .copyFromOutput8 ∧ PlainCopyRuns 16 .copyFromOutput16 ∧ PlainCopyRuns 32 .copyFromOutput32

/-- R123: result, completion and frame of `WILDCOPYIN_W`. Inactive lanes (R66, R120) and the number of strides are the
spec's own decisions D4 and D29. That the operation works on the acting lane's latched spans is log entry 25. -/
def Obligations.WildCopyInResult : Prop :=
  WildCopyInRuns 8 .wildCopyIn8 ∧ WildCopyInRuns 16 .wildCopyIn16 ∧ WildCopyInRuns 32 .wildCopyIn32

/-- R122: result, completion and frame of `WILDCOPYOUT_W`. Inactive lanes and the number of strides are the spec's own
decisions D4 and D29. That the operation works on the acting lane's latched spans is log entry 25. -/
def Obligations.WildCopyOutResult : Prop :=
  WildCopyOutRuns 8 .wildCopyOut8 ∧ WildCopyOutRuns 16 .wildCopyOut16 ∧ WildCopyOutRuns 32 .wildCopyOut32

/-- R124, R125, R126: result, completion and frame of `COPYOVERLAP_W`, in either realisation. Inactive lanes and the
advance where n divides W are the spec's own decisions D4 and D9. That the operation works on the acting lane's latched
spans, and assigns its pointer to `MP`, is log entry 25. -/
def Obligations.OverlapCopyResult : Prop :=
  OverlapRuns 8 .copyOverlap8 ∧ OverlapRuns 16 .copyOverlap16 ∧ OverlapRuns 32 .copyOverlap32

/-- R129: the two realisations of the overlap copy store the same bytes and return the same pointer. That the choice is
a parameter is the spec's own decision D23. The pointer returned is read from `MP` (log entry 25). -/
def Obligations.RealisationsInterchangeable : Prop :=
  RealisationsAgree 8 .copyOverlap8 ∧ RealisationsAgree 16 .copyOverlap16 ∧ RealisationsAgree 32 .copyOverlap32

/-- R126: the advance tables, as printed, and their two properties. The entries where n divides W are the spec's own
decision D9. -/
def Obligations.AdvanceTables : Prop :=
  (List.range 7).map (fun k => advance 8 (k + 1)) = [1, 2, 2, 4, 3, 2, 1]
  ∧ (List.range 15).map (fun k => advance 16 (k + 1)) = [1, 2, 1, 4, 1, 4, 2, 8, 7, 6, 5, 4, 3, 2, 1]
  ∧ (List.range 31).map (fun k => advance 32 (k + 1)) =
      [1, 2, 2, 4, 2, 2, 4, 8, 5, 2, 10, 8, 6, 4, 2, 16, 15, 14, 13, 12, 11, 10, 9, 8, 7, 6, 5, 4, 3, 2, 1]
  ∧ ∀ (v : Variant) (n : Nat), 1 ≤ n → n < width v →
      advance (width v) n = (if width v % n ≠ 0 then width v % n else n)
      ∧ 1 ≤ advance (width v) n ∧ advance (width v) n ≤ n ∧ advance (width v) n % n = width v % n

/-- R131: a plain stride from the pointer an overlap copy returns continues the pattern in phase. R131 is marked as
derived in the spec. The pointer returned is read from `MP` (log entry 25). -/
def Obligations.OverlapStaysInPhase : Prop :=
  StaysInPhase 8 .copyOverlap8 .copyFromOutput8 ∧ StaysInPhase 16 .copyOverlap16 .copyFromOutput16
  ∧ StaysInPhase 32 .copyOverlap32 .copyFromOutput32

/-- R132, 93 item 13: a micro-operation outside its preconditions is refused; and none, when it runs, raises a failure or
moves the lane's position. -/
def Obligations.MicroOpsRefuseOutsidePreconditions : Prop :=
  RefusesOutside 8 .copyOverlap8 .copyFromOutput8 .wildCopyIn8 .wildCopyOut8
  ∧ RefusesOutside 16 .copyOverlap16 .copyFromOutput16 .wildCopyIn16 .wildCopyOut16
  ∧ RefusesOutside 32 .copyOverlap32 .copyFromOutput32 .wildCopyIn32 .wildCopyOut32

/-! ### The steps of the decoder -/

/-- R152: ReadToken, as a step of its own. The diagnostic registers that its failure writes (R240) are the spec's own
decision D11; that the step of this grain is `microStep`, beside the one that runs the whole sequence, is the model's
choice (log entry 9). The model's own `inExt` is cleared (log entry 11). That `RESULT` keeps its old value in `STATE`
Failed, where R30 says 0, is log entry 8. -/
def Obligations.ReadTokenStep : Prop :=
  ∀ s : State, s.SpansOk → s.lane.state = .readToken →
    (s.lane.srcSize ≤ s.lane.ip → microStep s = .next (s.withLane { s.lane with
      fcause := .tokenEos, fip := s.lane.ip, fop := s.lane.op, state := .failed, inExt := false }))
    ∧ (s.lane.ip < s.lane.srcSize → microStep s = .next (s.withLane { s.lane with
        tok := s.src s.lane.ip, ip := s.lane.ip + 1, len := (s.src s.lane.ip).toNat / 16
        state := .extendLiteralLength, inExt := false }))

/-- R100, R153, R154, R160: inside an extension, `EXT.CONT` adds 255 and goes on; `EXT.END` adds its value and ends the
extension, with the bias of 4 added once after a match-length extension; either raises the failure of its step if no
byte is left. That an extension cut short fails is the spec's own decision D7. That a lane is inside an extension is
the model's own register `inExt` (log entry 11), and each byte is an operation of its own (log entry 9). That `RESULT`
keeps its old value in `STATE` Failed, where R30 says 0, is log entry 8. -/
def Obligations.ExtensionBytesAdd : Prop :=
  ∀ s : State, s.lane.inExt = true →
    (s.lane.state = .extendLiteralLength ∨ s.lane.state = .extendMatchLength → s.lane.ip < s.lane.srcSize →
      exec .extCont s = .next (s.withLane { s.lane with ip := s.lane.ip + 1, len := s.lane.len + 255 }))
    ∧ (∀ b : Byte, s.lane.state = .extendLiteralLength → s.lane.ip < s.lane.srcSize →
        exec (.extEnd b) s = .next (s.withLane { s.lane with
          ip := s.lane.ip + 1, len := s.lane.len + b.toNat, state := .copyLiterals, inExt := false }))
    ∧ (∀ b : Byte, s.lane.state = .extendMatchLength → s.lane.ip < s.lane.srcSize →
        exec (.extEnd b) s = .next (s.withLane { s.lane with
          ip := s.lane.ip + 1, len := s.lane.len + b.toNat + 4, state := .copyMatch, inExt := false }))
    ∧ (∀ i : Instr, i = .extCont ∨ (∃ b, i = .extEnd b) → s.lane.srcSize ≤ s.lane.ip →
        (s.lane.state = .extendLiteralLength → exec i s = .next (s.withLane { s.lane with
          fcause := .litExtEos, fip := s.lane.ip, fop := s.lane.op, state := .failed, inExt := false }))
        ∧ (s.lane.state = .extendMatchLength → exec i s = .next (s.withLane { s.lane with
          fcause := .matExtEos, fip := s.lane.ip, fop := s.lane.op, state := .failed, inExt := false })))

/-- R154, R160: a code below 15 takes no extension, a code of 15 does; the match length has the bias of 4. That the
extension has begun is the model's own register `inExt` (log entry 11). -/
def Obligations.ExtensionOnlyForCodeFifteen : Prop :=
  ∀ s : State, s.SpansOk → s.lane.inExt = false →
    (s.lane.state = .extendLiteralLength →
      laneStep s = .next (s.withLane (if s.lane.len = 15 then { s.lane with inExt := true }
        else { s.lane with state := .copyLiterals })))
    ∧ (s.lane.state = .extendMatchLength →
      laneStep s = .next (s.withLane (if s.lane.tok.toNat % 16 = 15 then { s.lane with len := 15, inExt := true }
        else { s.lane with len := s.lane.tok.toNat % 16 + 4, state := .copyMatch })))

/-- R155, R157: CopyLiterals: the tests in their order (the third cannot fire, R169), then the literals are copied and
the decode succeeds or both cursors advance. The second test is the spec's own decision D5. What a failing step leaves
in the working registers is log entry 26. That a success leaves `IP` and `OP` as they are is R157's word against
section 8's (log entry 29). That `RESULT` keeps its old value in `STATE` Done, where R157 and R30 say 1, and in Failed,
where R30 says 0, is log entry 8. -/
def Obligations.CopyLiteralsStep : Prop :=
  ∀ s : State, s.mem.wf → s.SlackOk → s.SpansOk → s.lane.state = .copyLiterals →
    (s.lane.dstSize < s.lane.op + s.lane.len → laneStep s = .next (s.withLane { s.lane with
      cend := s.lane.op + s.lane.len, fcause := .litDst, fip := s.lane.ip, fop := s.lane.op, state := .failed
      inExt := false }))
    ∧ (s.lane.op + s.lane.len ≤ s.lane.dstSize → s.lane.srcSize < s.lane.ip + s.lane.len →
        laneStep s = .next (s.withLane { s.lane with
          cend := s.lane.op + s.lane.len, fcause := .litSrc, fip := s.lane.ip, fop := s.lane.op, state := .failed
          inExt := false }))
    ∧ (s.lane.op + s.lane.len ≤ s.lane.dstSize → s.lane.ip + s.lane.len ≤ s.lane.srcSize →
        ∃ t, laneStep s = .next t
          ∧ t = (s.withMem t.mem).withLane (if s.lane.op + s.lane.len = s.lane.dstSize
              then { s.lane with cend := s.lane.dstSize, state := .done, vec := t.lane.vec }
              else { s.lane with
                cend := s.lane.op + s.lane.len, ip := s.lane.ip + s.lane.len, op := s.lane.op + s.lane.len
                state := .readMatch, vec := t.lane.vec })
          ∧ (∀ j, j < s.lane.len → t.dst (s.lane.op + j) = s.src (s.lane.ip + j))
          ∧ SameOutside s t (s.lane.dstBase + s.lane.op)
              (s.lane.dstBase + min s.lane.dstSize (s.lane.op + ceilTo s.W s.lane.len)))

/-- R94, R158, R159: the offset field: two bytes must be left; then the offset is taken and tested for 0 first, for the
range next; then the match pointer is `OP − OFF`. The test for 0 is the spec's own decision D6. What a failing step
leaves in the working registers is log entry 26. That `RESULT` keeps its old value in `STATE` Failed, where R30 says 0,
is log entry 8. -/
def Obligations.OffsetFieldStep : Prop :=
  ∀ (s : State) (off : Half), s.lane.state = .readMatch → s.lane.ip ≤ s.lane.srcSize →
    (s.lane.srcSize - s.lane.ip < 2 → exec (.offset off) s = .next (s.withLane { s.lane with
      fcause := .offsetEos, fip := s.lane.ip, fop := s.lane.op, state := .failed, inExt := false }))
    ∧ (2 ≤ s.lane.srcSize - s.lane.ip → off.toNat = 0 → exec (.offset off) s = .next (s.withLane { s.lane with
        off := off, ip := s.lane.ip + 2, fcause := .offsetZero, fip := s.lane.ip + 2, fop := s.lane.op
        state := .failed, inExt := false }))
    ∧ (2 ≤ s.lane.srcSize - s.lane.ip → s.lane.op < off.toNat → off.toNat ≠ 0 →
        exec (.offset off) s = .next (s.withLane { s.lane with
          off := off, ip := s.lane.ip + 2, fcause := .offsetRange, fip := s.lane.ip + 2, fop := s.lane.op
          state := .failed, inExt := false }))
    ∧ (2 ≤ s.lane.srcSize - s.lane.ip → 1 ≤ off.toNat → off.toNat ≤ s.lane.op →
        exec (.offset off) s = .next (s.withLane { s.lane with
          off := off, ip := s.lane.ip + 2, mp := s.lane.op - off.toNat, state := .extendMatchLength }))

/-- R161, R162: CopyMatch: the bound is tested, then every byte of the match is the byte `OFF` before it, `OP` is
`CEND`, and the lane is at the next token. What a failing step leaves in the working registers is log entry 26. That
`RESULT` keeps its old value in `STATE` Failed, where R30 says 0, is log entry 8. -/
def Obligations.CopyMatchStep : Prop :=
  ∀ s : State, s.mem.wf → s.SpansOk → s.lane.state = .copyMatch → Config.minMatch ≤ s.lane.len →
    1 ≤ s.lane.off.toNat → s.lane.off.toNat ≤ s.lane.op → s.lane.mp = s.lane.op - s.lane.off.toNat →
    (s.lane.dstSize < s.lane.op + s.lane.len → laneStep s = .next (s.withLane { s.lane with
      cend := s.lane.op + s.lane.len, fcause := .matchDst, fip := s.lane.ip, fop := s.lane.op, state := .failed
      inExt := false }))
    ∧ (s.lane.op + s.lane.len ≤ s.lane.dstSize → ∃ t, laneStep s = .next t
        ∧ t = (s.withMem t.mem).withLane { s.lane with
            cend := s.lane.op + s.lane.len, op := s.lane.op + s.lane.len, state := .readToken
            mp := t.lane.mp, vec := t.lane.vec }
        ∧ (∀ j, j < s.lane.len → t.dst (s.lane.op + j) = t.dst (s.lane.op + j - s.lane.off.toNat))
        ∧ SameOutside s t (s.lane.dstBase + s.lane.op)
            (s.lane.dstBase + min s.lane.dstSize (storedEnd s.W s.lane.op 0 s.lane.len)))

/-! ### Whole sequences -/

/-- R163 to R166, R97: each of the four forms runs a non-final sequence to the next boundary. The split into four forms
is the spec's own decision D28. One step runs the whole sequence, the model's choice (log entry 9). -/
def Obligations.NonFinalSequencesRun : Prop :=
  (∀ ll ml : Nibble, ll ≠ 15#4 → ml ≠ 15#4 → SequenceRuns (.seq ll ml) (tokenByte ll ml))
  ∧ (∀ ml : Nibble, ml ≠ 15#4 → SequenceRuns (.seqXL ml) (tokenByte 15#4 ml))
  ∧ (∀ ll : Nibble, ll ≠ 15#4 → SequenceRuns (.seqXM ll) (tokenByte ll 15#4))
  ∧ SequenceRuns .seqXLXM 0xFF#8

/-- R97, R157, R163 to R166: each of the four forms ends the decode with success on a final sequence, and its low
nibble plays no part. The split into four forms is the spec's own decision D28. One step runs the whole sequence, the
model's choice (log entry 9). That `IP` and `OP` keep the values they had at CopyLiterals is R157's word against
section 8's (log entry 29). That `RESULT` keeps its old value in `STATE` Done, where R157 and R30 say 1, is log entry
8. -/
def Obligations.FinalSequencesSucceed : Prop :=
  (∀ ll ml : Nibble, ll ≠ 15#4 → ml ≠ 15#4 → FinalSequenceRuns (.seq ll ml) (tokenByte ll ml))
  ∧ (∀ ml : Nibble, ml ≠ 15#4 → FinalSequenceRuns (.seqXL ml) (tokenByte 15#4 ml))
  ∧ (∀ ll : Nibble, ll ≠ 15#4 → FinalSequenceRuns (.seqXM ll) (tokenByte ll 15#4))
  ∧ FinalSequenceRuns .seqXLXM 0xFF#8

/-- R167, R168, R233, for one sequence: from any boundary at which a token is left, the decoded form does what one pass
of REF's loop does: the same next cursors and output, or the same verdict with the same cause and cursors. One step
runs the whole sequence, the model's choice (log entry 9). That `RESULT` keeps its old value in `STATE` Done, where
R157 and R30 say 1, and in Failed, where R30 says 0, is log entry 8. -/
def Obligations.SequenceAgreesWithReference : Prop :=
  ∀ s : State, s.mem.wf → s.AtBoundary → s.lane.fcause = .none → s.lane.ip < s.lane.srcSize →
    ∃ t, exec (decodeToken (s.src s.lane.ip)) s = .next t
      ∧ SameAround s t ∧ SameCommand s.lane t.lane
      ∧ SameOutside s t (s.lane.dstBase + s.lane.op) (s.lane.dstBase + s.lane.dstSize)
      ∧ match refSequence s.block s.lane.dstSize s.lane.ip (s.output s.lane.op) with
        | .more ip out => t.lane.state = .readToken ∧ t.lane.ip = ip ∧ t.lane.op = out.length
            ∧ t.output t.lane.op = out ∧ t.lane.fcause = .none
        | .stop r => EndsAs r t

/-- A stream element that stands in a position whose step does not read it is refused: the model's choice (log entry 16);
no decode meets it. -/
def Obligations.ElementsOutOfPlaceAreRefused : Prop :=
  ∀ s : State,
    (s.lane.state ≠ .readToken → ∀ b : Byte, exec (decodeToken b) s = .refused .elementOutOfPlace)
    ∧ (s.lane.state ≠ .readMatch → ∀ off : Half, exec (.offset off) s = .refused .elementOutOfPlace)
    ∧ ((s.lane.inExt = false ∨ (s.lane.state ≠ .extendLiteralLength ∧ s.lane.state ≠ .extendMatchLength)) →
        ∀ b : Byte, exec (decodeExt b) s = .refused .elementOutOfPlace)

/-! ### What changes, and what does not -/

/-- R240, R241, R169: a step in which a decode fails records a cause, `IP` and `OP`, and changes nothing but the lane's
registers and memory; with `SLACK ≥ 31` the cause is none of the two that cannot fire. The diagnostic registers are the
spec's own decision D11. A step at a token is that of a whole sequence, the model's choice (log entry 9). That `RESULT`
keeps its old value in `STATE` Failed, where R30 says 0, is log entry 8. -/
def Obligations.FailureRecordsCauseAndCursors : Prop :=
  ∀ s t : State, s.lane.state.decoding = true → laneStep s = .next t → t.lane.state = .failed →
    t.lane.fcause ≠ .none ∧ t.lane.fip = t.lane.ip ∧ t.lane.fop = t.lane.op
    ∧ SameCommand s.lane t.lane ∧ SameAround s t
    ∧ (s.SlackOk → t.lane.fcause ≠ .litSlack ∧ t.lane.fcause ≠ .matchDst2)

/-- R31: the diagnostic registers change at a failure, are cleared at a command's start, and change at no other time.
The diagnostic registers are the spec's own decision D11. That a command whose SELECT would wait leaves the state as it
is, is log entry 10. -/
def Obligations.DiagnosticsChangeOnlyAtFailure : Prop :=
  (∀ (i : Instr) (s t : State), (∀ cmd, i ≠ .decompress cmd) → exec i s = .next t →
    SameDiagnosis s.lane t.lane
      ∨ (t.lane.state = .failed ∧ t.lane.fcause ≠ .none ∧ t.lane.fip = t.lane.ip ∧ t.lane.fop = t.lane.op))
  ∧ (∀ s t : State, laneStep s = .next t →
    SameDiagnosis s.lane t.lane
      ∨ (s.lane.state.decoding = true ∧ t.lane.state = .failed ∧ t.lane.fcause ≠ .none ∧ t.lane.fip = t.lane.ip
          ∧ t.lane.fop = t.lane.op))
  ∧ ∀ (cmd : Command) (s t : State), exec (.decompress cmd) s = .next t →
      t = s ∨ (t.lane.fcause = .none ∧ t.lane.fip = 0 ∧ t.lane.fop = 0)

/-- R29: `RESULT` is written at the response, and by nothing else. Log entry 8 says how R29 and R30 are read together. -/
def Obligations.ResultWrittenOnlyAtResponse : Prop :=
  (∀ (i : Instr) (s t : State), exec i s = .next t → t.lane.result = s.lane.result)
  ∧ (∀ s t : State, laneStep s = .next t →
      t.lane.result = s.lane.result
        ∨ ((s.lane.state = .done ∨ s.lane.state = .failed) ∧ t.lane.state = .idle
            ∧ t.lane.result = decide (s.lane.state = .done)))

/-- R28, R31: no operation but DECOMPRESS changes a command register, and no step of a lane does. Of the operations,
only DECOMPRESS (R212, R214: `VSEL <- 0` or the variant selected) and SELECT change `VSEL`, and no step of a lane does.
That SELECT by itself writes `VSEL` is the model's choice (log entry 18), and so is that a command's start is the
operation DECOMPRESS and no step of a lane (log entry 14). `VSEL` is the spec's own decision D11. -/
def Obligations.CommandRegistersStayLatched : Prop :=
  (∀ (i : Instr) (s t : State), (∀ cmd, i ≠ .decompress cmd) → exec i s = .next t →
    t.lane.srcBase = s.lane.srcBase ∧ t.lane.srcSize = s.lane.srcSize ∧ t.lane.dstBase = s.lane.dstBase
    ∧ t.lane.dstSize = s.lane.dstSize ∧ t.lane.ctx = s.lane.ctx
    ∧ ((∀ ctx, i ≠ .select ctx) → t.lane.vsel = s.lane.vsel))
  ∧ ∀ s t : State, laneStep s = .next t →
      t.lane.srcBase = s.lane.srcBase ∧ t.lane.srcSize = s.lane.srcSize ∧ t.lane.dstBase = s.lane.dstBase
      ∧ t.lane.dstSize = s.lane.dstSize ∧ t.lane.ctx = s.lane.ctx ∧ t.lane.vsel = s.lane.vsel

/-- R61, R62, R66, R74, R216: no operation and no step of a lane writes a byte outside the lane's `DST[0 .. D)`; on
spans that meet the contract no byte of SRC or its slack is written. That stores past D are clipped is the spec's own
decision D4. The free bytes that a failed command's output takes at the response are among those of `DST[0 .. D)` (log
entry 6). -/
def Obligations.OnlyTheOutputIsWritten : Prop :=
  (∀ (i : Instr) (s t : State), exec i s = .next t →
    SameOutside s t s.lane.dstBase (s.lane.dstBase + s.lane.dstSize)
    ∧ (s.SpansOk → ∀ k, k < s.lane.srcSize + s.params.slack →
        t.mem.read (s.lane.srcBase + k) = s.mem.read (s.lane.srcBase + k)))
  ∧ ∀ s t : State, laneStep s = .next t →
      SameOutside s t s.lane.dstBase (s.lane.dstBase + s.lane.dstSize)
      ∧ (s.SpansOk → ∀ k, k < s.lane.srcSize + s.params.slack →
          t.mem.read (s.lane.srcBase + k) = s.mem.read (s.lane.srcBase + k))

/-- R23, R24, R172: in a step of a decode `IP` and `OP` never move backward, and no byte of the committed prefix is
written. A step at a token is that of a whole sequence, the model's choice (log entry 9). -/
def Obligations.CommittedPrefixIsFinal : Prop :=
  ∀ s t : State, s.lane.state.decoding = true → laneStep s = .next t →
    s.lane.ip ≤ t.lane.ip ∧ s.lane.op ≤ t.lane.op ∧ ∀ j, j < s.lane.op → t.dst j = s.dst j

/-- R269, R27: how far past `CEND` a copy may store: up to W − 1 indices after the literals, up to 2W − 4 after a match of
length up to 2W, up to W − 1 after a longer one, and below D in every case. -/
def Obligations.WildRegionIsBounded : Prop :=
  ∀ s t : State, laneStep s = .next t →
    (s.lane.state = .copyLiterals → SameOutside s t (s.lane.dstBase + s.lane.op)
      (s.lane.dstBase + min s.lane.dstSize (s.lane.op + s.lane.len + (s.W - 1))))
    ∧ (s.lane.state = .copyMatch → Config.minMatch ≤ s.lane.len → s.lane.len ≤ 2 * s.W →
        SameOutside s t (s.lane.dstBase + s.lane.op)
          (s.lane.dstBase + min s.lane.dstSize (s.lane.op + s.lane.len + (2 * s.W - 4))))
    ∧ (s.lane.state = .copyMatch → 2 * s.W < s.lane.len →
        SameOutside s t (s.lane.dstBase + s.lane.op)
          (s.lane.dstBase + min s.lane.dstSize (s.lane.op + s.lane.len + (s.W - 1))))

/-- R20 (b), R218, R244, R248: a lane that is idle does nothing. A step of a lane leaves the other lanes, the
parameters, the regions, the host's moves and `TIME` alone; of the contexts it changes at most the one its command
names. That it changes it only at the end of a command holds because the command's start, with the SELECT that R215 has
the lane perform there, is the operation DECOMPRESS in this model and no step of a lane: the model's choice (log entry
14). -/
def Obligations.LaneStepKeepsTheRest : Prop :=
  ∀ s t : State, laneStep s = .next t →
    (s.lane.state = .idle → t = s)
    ∧ t.lanesBelow = s.lanesBelow ∧ t.lanesAbove = s.lanesAbove ∧ t.params = s.params ∧ t.regions = s.regions
    ∧ t.host = s.host ∧ t.agenda = s.agenda ∧ t.time = s.time
    ∧ t.ctxs.length = s.ctxs.length
    ∧ (∀ k, k ≠ s.lane.ctx ∨ (s.lane.state ≠ .done ∧ s.lane.state ≠ .failed) → t.ctxs[k]? = s.ctxs[k]?)

/-- R71, R76, R218: a step of one lane changes no byte of either span, slack included, of a command that runs on
another lane. The disjointness is the spec's own decision D18. -/
def Obligations.OtherCommandsAreUndisturbed : Prop :=
  ∀ (s t : State) (l : Lane), ContractInv s → CursorInv s → l ∈ s.otherLanes → l.holdsSpans = true →
    laneStep s = .next t → ∀ a, l.InSpans s.params.slack a → t.mem.read a = s.mem.read a

/-! ### Whole decodes -/

/-- R30: the steps at the grain of the state machine and the step that runs a whole sequence agree. The two grains are
the model's choice (log entry 9); the four forms are the spec's own decision D28. -/
def Obligations.MicroStepsComposeToSequence : Prop :=
  ∀ s t : State, s.mem.wf → s.AtBoundary → laneStep s = .next t → ∃ k, 1 ≤ k ∧ microRun k s = .next t

/-- R37: the decoder is at each boundary where REF's loop is, with the same output: this holds at the start of a
decode, and every step from a boundary to a boundary keeps it. A step at a token is that of a whole sequence, the
model's choice (log entry 9). -/
def Obligations.BoundaryFollowsReference : Prop :=
  (∀ s : State, s.AtStart → RefReaches s.block s.lane.dstSize s.lane.ip (s.output s.lane.op))
  ∧ ∀ s t : State, s.mem.wf → s.AtBoundary → RefReaches s.block s.lane.dstSize s.lane.ip (s.output s.lane.op) →
      laneStep s = .next t → t.lane.state = .readToken →
      t.AtBoundary ∧ t.block = s.block ∧ RefReaches t.block t.lane.dstSize t.lane.ip (t.output t.lane.op)

/-- R167, R168: from the start of a decode, for every width, realisation, slack content and initial DST content, the
decode ends with REF's verdict, output, cause and cursors, and nothing outside `DST[0 .. D)` is written. That it ends
within S + 1 steps counts the model's steps, of one whole sequence each, which is the model's choice (log entry 9); at
the grain of R30 it takes more. That `RESULT` keeps its old value in `STATE` Done, where R157 and R30 say 1, and in
Failed, where R30 says 0, is log entry 8. -/
def Obligations.DecodeMatchesReference : Prop :=
  ∀ s : State, s.mem.wf → s.AtStart →
    ∃ t, runLane (s.lane.srcSize + 1) s = .next t ∧ EndsAs (ref s.block s.lane.dstSize) t
      ∧ SameAround s t ∧ SameCommand s.lane t.lane
      ∧ SameOutside s t s.lane.dstBase (s.lane.dstBase + s.lane.dstSize)

/-- R262, R168, R77: two decodes of the same block with the same D end alike and, when they succeed, produce the same bytes,
whatever the variant, the realisation, the slack bytes and DST held. The bound S + 1 counts steps of one whole sequence each,
the model's choice (log entry 9). -/
def Obligations.OutcomeDependsOnBlockAndSizeOnly : Prop :=
  ∀ s s' : State, s.mem.wf → s'.mem.wf → s.AtStart → s'.AtStart →
    s.lane.srcSize = s'.lane.srcSize → s.lane.dstSize = s'.lane.dstSize → s.block = s'.block →
    ∃ t t', runLane (s.lane.srcSize + 1) s = .next t ∧ runLane (s'.lane.srcSize + 1) s' = .next t'
      ∧ t.lane.state = t'.lane.state ∧ SameDiagnosis t.lane t'.lane
      ∧ (t.lane.state = .done → t.output t.lane.dstSize = t'.output t'.lane.dstSize)

/-! ### The command -/

/-- R211, R243: a command is refused exactly when it breaks the host's contract, said address by address. The size
bound and the disjointness are the spec's own decisions D2 and D18; that the model refuses is R243. What is accessible
is the list of regions, and the wrap test counts the slack (log entry 17). -/
def Obligations.ContractDecidesTheCommand : Prop :=
  ∀ (cmd : Command) (s : State),
    (∃ r, exec (.decompress cmd) s = .refused r) ↔ ContractBroken cmd s

/-- R213: a command with a zero size succeeds with no access, no transaction, no read of `TIME`, and `VSEL` kept; its
response is `ok` = 1. That it latches its record and clears the diagnostic registers all the same is log entry 23. The
start and the response are two steps, the model's choice (log entry 14), and the response uses one draw (log entry 4).
That `RESULT` keeps its old value in `STATE` Done, where R30 says 1, and is written at the response, is log entry 8. -/
def Obligations.ZeroSizeCommandSucceeds : Prop :=
  ∀ (cmd : Command) (s : State), ¬ ContractBroken cmd s → cmd.sourceSize = 0 ∨ cmd.destSize = 0 →
    exec (.decompress cmd) s = .next (s.withLane { s.lane.latched cmd with state := .done })
    ∧ ∃ u, laneStep (s.withLane { s.lane.latched cmd with state := .done }) = .next u
        ∧ u = { s with draws := s.draws + 1
                       lane := { s.lane.latched cmd with state := .idle, result := true, inExt := false } }

/-- R214, R150, R262: a command below the threshold starts the decode with the narrowest variant, at `IP` = `OP` = 0,
and touches no context and no timer. The threshold is the spec's own decision D13. The command's start is the operation
DECOMPRESS, the model's choice (log entry 14). -/
def Obligations.SmallCommandStartsNarrowest : Prop :=
  ∀ (cmd : Command) (s : State), ¬ ContractBroken cmd s → 0 < cmd.sourceSize → 0 < cmd.destSize → cmd.destSize < 32768 →
    exec (.decompress cmd) s = .next (s.withLane { s.lane.latched cmd with
      vsel := 0, ip := 0, op := 0, state := .readToken, inExt := false })

/-- R215, R150: a command at or above the threshold performs one SELECT on its context, reads `TIME` into t0, and
starts the decode with the variant selected; while the context's lock is held it waits (log entry 10). The command's
start is the operation DECOMPRESS, the model's choice (log entry 14). The threshold is the spec's own decision D13, the
policy its decision D14. -/
def Obligations.MeasuredCommandSelectsAndTimes : Prop :=
  ∀ (cmd : Command) (s : State) (c : Context), ¬ ContractBroken cmd s → 0 < cmd.sourceSize → 32768 ≤ cmd.destSize →
    s.ctxs[cmd.stats]? = some c →
    (c.lock = true → exec (.decompress cmd) s = .next s)
    ∧ (c.lock = false → ∃ v, SelectedVariant c v
        ∧ exec (.decompress cmd) s = .next { s with
            ctxs := s.ctxs.set cmd.stats { c with calls := c.calls + 1#32 }
            lane := { s.lane.latched cmd with
              vsel := v, t0 := s.time, ip := 0, op := 0, state := .readToken, inExt := false } })

/-- R214, R216, R240, R242: the end of a command that was not measured: `RESULT` is 1 iff the decode succeeded, the
lane is idle again, and no context has changed. That DST is open after a failure is the spec's own decision D26; the
threshold is its decision D13. The end of a command is a step of its own, the model's choice (log entry 14); the free
values it leaves are log entries 6 and 7. -/
def Obligations.UnmeasuredCommandResponds : Prop :=
  ∀ s : State, s.lane.state = .done ∨ s.lane.state = .failed →
    s.lane.srcSize = 0 ∨ s.lane.dstSize < 32768 →
    ∃ t, laneStep s = .next t ∧ Responded s t ∧ t.ctxs = s.ctxs

/-- R215, R216, R217: the end of a measured command, whether its decode succeeded or failed: one UPDATE of the variant
it ran with, with the time since t0 and D bytes; then the response. The UPDATE after a failure is the spec's own
decision D20. The end of a command is a step of its own, the model's choice (log entry 14); the free values it leaves
are log entries 6 and 7. -/
def Obligations.MeasuredCommandUpdatesAndResponds : Prop :=
  ∀ (s : State) (c : Context), s.lane.state = .done ∨ s.lane.state = .failed →
    0 < s.lane.srcSize → 32768 ≤ s.lane.dstSize → s.ctxs[s.lane.ctx]? = some c → c.lock = false → s.lane.t0 ≤ s.time →
    ∃ t c', laneStep s = .next t ∧ Responded s t ∧ t.ctxs = s.ctxs.set s.lane.ctx c'
      ∧ SampleFolded s.lane.vsel (s.time.toNat - s.lane.t0.toNat) s.lane.dstSize c c'

/-- R212, R168, R216: a command from its start to its response returns REF's verdict, and on success the output memory
holds REF's output; nothing outside it is written. Its start, the S + 1 steps of one whole sequence each that its decode may
take, and its response are the model's steps (log entries 9 and 14). -/
def Obligations.CommandReturnsReferenceResult : Prop :=
  ∀ (cmd : Command) (s : State), s.mem.wf → s.SlackOk → ¬ ContractBroken cmd s → 0 < cmd.sourceSize →
    0 < cmd.destSize → (∀ c ∈ s.ctxs, c.lock = false) →
    ∃ t u v, exec (.decompress cmd) s = .next t ∧ runLane (cmd.sourceSize + 1) t = .next u ∧ laneStep u = .next v
      ∧ v.lane.state = .idle
      ∧ (∀ a, a < cmd.dest ∨ cmd.dest + cmd.destSize ≤ a → v.mem.read a = s.mem.read a)
      ∧ match ref (s.mem.readBytes cmd.source cmd.sourceSize) cmd.destSize with
        | .ok out => v.lane.result = true ∧ v.lane.fcause = .none ∧ v.mem.readBytes cmd.dest cmd.destSize = out
        | .fail c ip op => v.lane.result = false ∧ v.lane.fcause = c ∧ v.lane.fip = ip ∧ v.lane.fop = op

/-! ### The selector -/

/-- R192, R33, R73: SELECT counts the call and returns a probe or the least index of a maximal estimate, and no other register
of a context changes. That the variant returned goes to `VSEL` of the acting lane, where R212 has its command write it, is the
model's choice (log entry 18); no other register of a lane changes. While the lock is held SELECT waits, which changes nothing,
and a context that does not exist is refused: the model's choice too (log entry 10). The policy is the spec's own decision
D14. -/
def Obligations.SelectResult : Prop :=
  ∀ (ctx : Nat) (s : State),
    (∀ c, s.ctxs[ctx]? = some c → c.lock = false →
      ∃ v, SelectedVariant c v
        ∧ exec (.select ctx) s = .next { s with
            ctxs := s.ctxs.set ctx { c with calls := c.calls + 1#32 }, lane := { s.lane with vsel := v } })
    ∧ (∀ c, s.ctxs[ctx]? = some c → c.lock = true → exec (.select ctx) s = .next s)
    ∧ (s.ctxs.length ≤ ctx → exec (.select ctx) s = .refused .noSuchContext)

/-- R193, R194, R33, R73: UPDATE folds one sample into `EST[v]` and counts it, and changes nothing else; the new
`EST[v]` lies between the old one and the sample. While the lock is held it waits, which changes nothing; a context
that does not exist is refused (log entry 10). The fixed-point mean is the spec's own decision D14. -/
def Obligations.UpdateResult : Prop :=
  ∀ (ctx : Nat) (v : Variant) (elapsed : Wide) (bytes : Nat) (s : State),
    (∀ c, s.ctxs[ctx]? = some c → c.lock = false →
      ∃ c', exec (.update ctx v elapsed bytes) s = .next { s with ctxs := s.ctxs.set ctx c' }
        ∧ SampleFolded v elapsed.toNat bytes c c'
        ∧ (c.cnt[v] ≠ 0#32 →
            min c.est[v].toNat (min (bytes * 2 ^ 16 / max elapsed.toNat 1) (2 ^ 64 - 1)) ≤ c'.est[v].toNat
            ∧ c'.est[v].toNat ≤ max c.est[v].toNat (min (bytes * 2 ^ 16 / max elapsed.toNat 1) (2 ^ 64 - 1))))
    ∧ (∀ c, s.ctxs[ctx]? = some c → c.lock = true → exec (.update ctx v elapsed bytes) s = .next s)
    ∧ (s.ctxs.length ≤ ctx → exec (.update ctx v elapsed bytes) s = .refused .noSuchContext)

/-- R195: (b) any 64 consecutive SELECTs on a context return each variant at least once; (a) where one variant's estimate is
strictly the largest at each of them, they return it 62 times. In both, whatever UPDATEs come between the SELECTs. The policy
is the spec's own decision D14. -/
def Obligations.SelectorExploresAndExploits : Prop :=
  ∀ (contextAt : Nat → Context) (n : Nat), SelectHistory contextAt →
    (∀ v : Variant, v ∈ selections contextAt n 64)
    ∧ ∀ best : Variant,
        (∀ k, k < 64 → ∀ u : Variant, u ≠ best → (contextAt (n + k)).est[u] < (contextAt (n + k)).est[best]) →
        (selections contextAt n 64).count best = 62

/-! ### Invariants of the whole core -/

/-- R34, R245: `TIME` never decreases. The timer's form is the spec's own decision D15. That it moves by a free amount
in each step, and stops at its largest value, is the model's choice (log entry 5). -/
def Obligations.TimeNeverDecreases : Prop :=
  ∀ s t : State, step s = .next t → s.time ≤ t.time

/-- Every step keeps the canonical form of the memory. -/
def Obligations.MemoryStaysCanonical : Prop :=
  ∀ s t : State, s.mem.wf → step s = .next t → t.mem.wf

/-- R211, R76, R243: every step keeps the contracts of all running commands: each meets the contract it was accepted
under, and no two have a byte in common. The disjointness and the size bound are the spec's own decisions D18 and D2.
What is accessible is the list of regions (log entries 17 and 24). -/
def Obligations.ContractsStayMet : Prop :=
  ∀ s t : State, ContractInv s → step s = .next t → ContractInv t

/-- R23, R24, R25, R37: every step keeps the cursors of every lane in order. It speaks of the model's own `inExt` too
(log entry 11), and a step at a token is that of a whole sequence (log entry 9). -/
def Obligations.CursorsStayInOrder : Prop :=
  ∀ s t : State, CursorInv s → step s = .next t → CursorInv t

/-- R33, R34: between two steps no lock is held, and no t0 lies ahead of `TIME`. `LOCK` as a bit and `t0` as a register
are the model's choices (log entries 10 and 11). -/
def Obligations.LocksAreFreeBetweenSteps : Prop :=
  ∀ s t : State, ClockAndLockInv s → step s = .next t → ClockAndLockInv t

/-- R10, R25, R171: no `AW`-bit register ever overflows. They are natural numbers in this model (log entry 20); the
size bound it rests on is the spec's own decision D2. -/
def Obligations.RegistersNeverOverflow : Prop :=
  ∀ s t : State, RegistersFit s → step s = .next t → RegistersFit t

/-- R76, R219, R74: a move of the host leaves every byte of a running command's spans alone. That the host's moves are
a list and that a forbidden store is refused are log entry 24. -/
def Obligations.HostKeepsOffRunningSpans : Prop :=
  ∀ (s t : State) (l : Lane) (a : Nat), hostStep s = .next t → l ∈ s.lanes → l.holdsSpans = true →
    l.InSpans s.params.slack a → t.mem.read a = s.mem.read a

/-- R272, R218, R170: a command cannot be stopped. A move of the host leaves every register of every running lane as it is;
and where the agenda lays nothing more down, all commands come to their responses before the host moves again, within
S + 6 steps for each lane. The steps are the model's, a whole sequence each at a token (log entry 9), and so is the order
of turns (log entry 15). -/
def Obligations.CommandsRunToTheirResponse : Prop :=
  (∀ (s t : State) (k : Nat) (l : Lane), hostStep s = .next t → s.lanes[k]? = some l → l.state ≠ .idle →
    t.lanes[k]? = some l)
  ∧ ∀ s : State, ContractInv s → CursorInv s → ClockAndLockInv s → s.agenda = [] →
      ∃ k t, k ≤ (s.lanes.map fun l => l.srcSize + 6).sum ∧ coreRun k s = .next t
        ∧ (∀ l ∈ t.lanes, l.state = .idle) ∧ t.lanes.length = s.lanes.length ∧ t.host = s.host
end

