-- ==== Sys2Proof/Laws/State.lean ====
section
/-! SUPPORT. One lemma per field per update of the state, so that no later proof unfolds a record update. -/

namespace Sys2Proof.Machine

/-! ### `withLane` -/

@[simp] theorem State.withLane_params (s : State) (l : Lane) : (s.withLane l).params = s.params := rfl
@[simp] theorem State.withLane_mem (s : State) (l : Lane) : (s.withLane l).mem = s.mem := rfl
@[simp] theorem State.withLane_regions (s : State) (l : Lane) : (s.withLane l).regions = s.regions := rfl
@[simp] theorem State.withLane_lanesBelow (s : State) (l : Lane) : (s.withLane l).lanesBelow = s.lanesBelow := rfl
@[simp] theorem State.withLane_lane (s : State) (l : Lane) : (s.withLane l).lane = l := rfl
@[simp] theorem State.withLane_lanesAbove (s : State) (l : Lane) : (s.withLane l).lanesAbove = s.lanesAbove := rfl
@[simp] theorem State.withLane_ctxs (s : State) (l : Lane) : (s.withLane l).ctxs = s.ctxs := rfl
@[simp] theorem State.withLane_time (s : State) (l : Lane) : (s.withLane l).time = s.time := rfl
@[simp] theorem State.withLane_host (s : State) (l : Lane) : (s.withLane l).host = s.host := rfl
@[simp] theorem State.withLane_agenda (s : State) (l : Lane) : (s.withLane l).agenda = s.agenda := rfl
@[simp] theorem State.withLane_draws (s : State) (l : Lane) : (s.withLane l).draws = s.draws := rfl

/-! ### `withMem` -/

@[simp] theorem State.withMem_params (s : State) (m : Memory) : (s.withMem m).params = s.params := rfl
@[simp] theorem State.withMem_mem (s : State) (m : Memory) : (s.withMem m).mem = m := rfl
@[simp] theorem State.withMem_regions (s : State) (m : Memory) : (s.withMem m).regions = s.regions := rfl
@[simp] theorem State.withMem_lanesBelow (s : State) (m : Memory) : (s.withMem m).lanesBelow = s.lanesBelow := rfl
@[simp] theorem State.withMem_lane (s : State) (m : Memory) : (s.withMem m).lane = s.lane := rfl
@[simp] theorem State.withMem_lanesAbove (s : State) (m : Memory) : (s.withMem m).lanesAbove = s.lanesAbove := rfl
@[simp] theorem State.withMem_ctxs (s : State) (m : Memory) : (s.withMem m).ctxs = s.ctxs := rfl
@[simp] theorem State.withMem_time (s : State) (m : Memory) : (s.withMem m).time = s.time := rfl
@[simp] theorem State.withMem_host (s : State) (m : Memory) : (s.withMem m).host = s.host := rfl
@[simp] theorem State.withMem_agenda (s : State) (m : Memory) : (s.withMem m).agenda = s.agenda := rfl
@[simp] theorem State.withMem_draws (s : State) (m : Memory) : (s.withMem m).draws = s.draws := rfl

/-! ### `withCtxs` -/

@[simp] theorem State.withCtxs_params (s : State) (c : List Context) : (s.withCtxs c).params = s.params := rfl
@[simp] theorem State.withCtxs_mem (s : State) (c : List Context) : (s.withCtxs c).mem = s.mem := rfl
@[simp] theorem State.withCtxs_regions (s : State) (c : List Context) : (s.withCtxs c).regions = s.regions := rfl
@[simp] theorem State.withCtxs_lanesBelow (s : State) (c : List Context) : (s.withCtxs c).lanesBelow = s.lanesBelow := rfl
@[simp] theorem State.withCtxs_lane (s : State) (c : List Context) : (s.withCtxs c).lane = s.lane := rfl
@[simp] theorem State.withCtxs_lanesAbove (s : State) (c : List Context) : (s.withCtxs c).lanesAbove = s.lanesAbove := rfl
@[simp] theorem State.withCtxs_ctxs (s : State) (c : List Context) : (s.withCtxs c).ctxs = c := rfl
@[simp] theorem State.withCtxs_time (s : State) (c : List Context) : (s.withCtxs c).time = s.time := rfl
@[simp] theorem State.withCtxs_host (s : State) (c : List Context) : (s.withCtxs c).host = s.host := rfl
@[simp] theorem State.withCtxs_agenda (s : State) (c : List Context) : (s.withCtxs c).agenda = s.agenda := rfl
@[simp] theorem State.withCtxs_draws (s : State) (c : List Context) : (s.withCtxs c).draws = s.draws := rfl

/-! ### `goto` -/

@[simp] theorem State.goto_params (s : State) (st : LaneState) : (s.goto st).params = s.params := rfl
@[simp] theorem State.goto_mem (s : State) (st : LaneState) : (s.goto st).mem = s.mem := rfl
@[simp] theorem State.goto_regions (s : State) (st : LaneState) : (s.goto st).regions = s.regions := rfl
@[simp] theorem State.goto_lanesBelow (s : State) (st : LaneState) : (s.goto st).lanesBelow = s.lanesBelow := rfl
@[simp] theorem State.goto_lane (s : State) (st : LaneState) : (s.goto st).lane = { s.lane with state := st } := rfl
@[simp] theorem State.goto_lanesAbove (s : State) (st : LaneState) : (s.goto st).lanesAbove = s.lanesAbove := rfl
@[simp] theorem State.goto_ctxs (s : State) (st : LaneState) : (s.goto st).ctxs = s.ctxs := rfl
@[simp] theorem State.goto_time (s : State) (st : LaneState) : (s.goto st).time = s.time := rfl
@[simp] theorem State.goto_host (s : State) (st : LaneState) : (s.goto st).host = s.host := rfl
@[simp] theorem State.goto_agenda (s : State) (st : LaneState) : (s.goto st).agenda = s.agenda := rfl
@[simp] theorem State.goto_draws (s : State) (st : LaneState) : (s.goto st).draws = s.draws := rfl

/-! ### `setMp` -/

@[simp] theorem State.setMp_params (s : State) (m : Nat) : (s.setMp m).params = s.params := rfl
@[simp] theorem State.setMp_mem (s : State) (m : Nat) : (s.setMp m).mem = s.mem := rfl
@[simp] theorem State.setMp_regions (s : State) (m : Nat) : (s.setMp m).regions = s.regions := rfl
@[simp] theorem State.setMp_lanesBelow (s : State) (m : Nat) : (s.setMp m).lanesBelow = s.lanesBelow := rfl
@[simp] theorem State.setMp_lane (s : State) (m : Nat) : (s.setMp m).lane = { s.lane with mp := m } := rfl
@[simp] theorem State.setMp_lanesAbove (s : State) (m : Nat) : (s.setMp m).lanesAbove = s.lanesAbove := rfl
@[simp] theorem State.setMp_ctxs (s : State) (m : Nat) : (s.setMp m).ctxs = s.ctxs := rfl
@[simp] theorem State.setMp_time (s : State) (m : Nat) : (s.setMp m).time = s.time := rfl
@[simp] theorem State.setMp_host (s : State) (m : Nat) : (s.setMp m).host = s.host := rfl
@[simp] theorem State.setMp_agenda (s : State) (m : Nat) : (s.setMp m).agenda = s.agenda := rfl
@[simp] theorem State.setMp_draws (s : State) (m : Nat) : (s.setMp m).draws = s.draws := rfl

/-! ### `loadVec` -/

@[simp] theorem State.loadVec_params (s : State) (bs : List Byte) : (s.loadVec bs).params = s.params := rfl
@[simp] theorem State.loadVec_mem (s : State) (bs : List Byte) : (s.loadVec bs).mem = s.mem := rfl
@[simp] theorem State.loadVec_regions (s : State) (bs : List Byte) : (s.loadVec bs).regions = s.regions := rfl
@[simp] theorem State.loadVec_lanesBelow (s : State) (bs : List Byte) : (s.loadVec bs).lanesBelow = s.lanesBelow := rfl
@[simp] theorem State.loadVec_lane (s : State) (bs : List Byte) : (s.loadVec bs).lane = { s.lane with vec := bs ++ s.lane.vec.drop bs.length } := rfl
@[simp] theorem State.loadVec_lanesAbove (s : State) (bs : List Byte) : (s.loadVec bs).lanesAbove = s.lanesAbove := rfl
@[simp] theorem State.loadVec_ctxs (s : State) (bs : List Byte) : (s.loadVec bs).ctxs = s.ctxs := rfl
@[simp] theorem State.loadVec_time (s : State) (bs : List Byte) : (s.loadVec bs).time = s.time := rfl
@[simp] theorem State.loadVec_host (s : State) (bs : List Byte) : (s.loadVec bs).host = s.host := rfl
@[simp] theorem State.loadVec_agenda (s : State) (bs : List Byte) : (s.loadVec bs).agenda = s.agenda := rfl
@[simp] theorem State.loadVec_draws (s : State) (bs : List Byte) : (s.loadVec bs).draws = s.draws := rfl

/-! ### `dstWrite` -/

@[simp] theorem State.dstWrite_params (s : State) (a : Nat) (bs : List Byte) : (s.dstWrite a bs).params = s.params := rfl
@[simp] theorem State.dstWrite_mem (s : State) (a : Nat) (bs : List Byte) : (s.dstWrite a bs).mem = s.mem.writeBytes (s.lane.dstBase + a) (bs.take (s.lane.dstSize - a)) := rfl
@[simp] theorem State.dstWrite_regions (s : State) (a : Nat) (bs : List Byte) : (s.dstWrite a bs).regions = s.regions := rfl
@[simp] theorem State.dstWrite_lanesBelow (s : State) (a : Nat) (bs : List Byte) : (s.dstWrite a bs).lanesBelow = s.lanesBelow := rfl
@[simp] theorem State.dstWrite_lane (s : State) (a : Nat) (bs : List Byte) : (s.dstWrite a bs).lane = s.lane := rfl
@[simp] theorem State.dstWrite_lanesAbove (s : State) (a : Nat) (bs : List Byte) : (s.dstWrite a bs).lanesAbove = s.lanesAbove := rfl
@[simp] theorem State.dstWrite_ctxs (s : State) (a : Nat) (bs : List Byte) : (s.dstWrite a bs).ctxs = s.ctxs := rfl
@[simp] theorem State.dstWrite_time (s : State) (a : Nat) (bs : List Byte) : (s.dstWrite a bs).time = s.time := rfl
@[simp] theorem State.dstWrite_host (s : State) (a : Nat) (bs : List Byte) : (s.dstWrite a bs).host = s.host := rfl
@[simp] theorem State.dstWrite_agenda (s : State) (a : Nat) (bs : List Byte) : (s.dstWrite a bs).agenda = s.agenda := rfl
@[simp] theorem State.dstWrite_draws (s : State) (a : Nat) (bs : List Byte) : (s.dstWrite a bs).draws = s.draws := rfl

/-! ### `setCtx` -/

@[simp] theorem State.setCtx_params (s : State) (i : Nat) (c : Context) : (s.setCtx i c).params = s.params := rfl
@[simp] theorem State.setCtx_mem (s : State) (i : Nat) (c : Context) : (s.setCtx i c).mem = s.mem := rfl
@[simp] theorem State.setCtx_regions (s : State) (i : Nat) (c : Context) : (s.setCtx i c).regions = s.regions := rfl
@[simp] theorem State.setCtx_lanesBelow (s : State) (i : Nat) (c : Context) : (s.setCtx i c).lanesBelow = s.lanesBelow := rfl
@[simp] theorem State.setCtx_lane (s : State) (i : Nat) (c : Context) : (s.setCtx i c).lane = s.lane := rfl
@[simp] theorem State.setCtx_lanesAbove (s : State) (i : Nat) (c : Context) : (s.setCtx i c).lanesAbove = s.lanesAbove := rfl
@[simp] theorem State.setCtx_ctxs (s : State) (i : Nat) (c : Context) : (s.setCtx i c).ctxs = s.ctxs.set i c := rfl
@[simp] theorem State.setCtx_time (s : State) (i : Nat) (c : Context) : (s.setCtx i c).time = s.time := rfl
@[simp] theorem State.setCtx_host (s : State) (i : Nat) (c : Context) : (s.setCtx i c).host = s.host := rfl
@[simp] theorem State.setCtx_agenda (s : State) (i : Nat) (c : Context) : (s.setCtx i c).agenda = s.agenda := rfl
@[simp] theorem State.setCtx_draws (s : State) (i : Nat) (c : Context) : (s.setCtx i c).draws = s.draws := rfl

/-! ### `tick` -/

@[simp] theorem State.tick_params (s : State)  : (s.tick).params = s.params := rfl
@[simp] theorem State.tick_mem (s : State)  : (s.tick).mem = s.mem := rfl
@[simp] theorem State.tick_regions (s : State)  : (s.tick).regions = s.regions := rfl
@[simp] theorem State.tick_lanesBelow (s : State)  : (s.tick).lanesBelow = s.lanesBelow := rfl
@[simp] theorem State.tick_lane (s : State)  : (s.tick).lane = s.lane := rfl
@[simp] theorem State.tick_lanesAbove (s : State)  : (s.tick).lanesAbove = s.lanesAbove := rfl
@[simp] theorem State.tick_ctxs (s : State)  : (s.tick).ctxs = s.ctxs := rfl
@[simp] theorem State.tick_time (s : State)  : (s.tick).time = saturate 64 (s.time.toNat + Config.tick s.draws) := rfl
@[simp] theorem State.tick_host (s : State)  : (s.tick).host = s.host := rfl
@[simp] theorem State.tick_agenda (s : State)  : (s.tick).agenda = s.agenda := rfl
@[simp] theorem State.tick_draws (s : State)  : (s.tick).draws = s.draws + 1 := rfl

/-! ### Composite updates -/

@[simp] theorem State.withLane_withLane (s : State) (l l' : Lane) : (s.withLane l).withLane l' = s.withLane l' := rfl
@[simp] theorem State.withMem_withMem (s : State) (m m' : Memory) : (s.withMem m).withMem m' = s.withMem m' := rfl
@[simp] theorem State.withLane_self (s : State) : s.withLane s.lane = s := rfl
@[simp] theorem State.withMem_self (s : State) : s.withMem s.mem = s := rfl

/-- The lane update and the memory update do not touch each other. -/
theorem State.withMem_withLane (s : State) (m : Memory) (l : Lane) :
    (s.withMem m).withLane l = (s.withLane l).withMem m := rfl

@[simp] theorem State.withLane_W (s : State) (l : Lane) : (s.withLane l).W = width l.vsel := rfl
@[simp] theorem State.withMem_W (s : State) (m : Memory) : (s.withMem m).W = s.W := rfl
@[simp] theorem State.withMem_src (s : State) (m : Memory) (i : Nat) :
    (s.withMem m).src i = m.read (s.lane.srcBase + i) := rfl
@[simp] theorem State.withMem_dst (s : State) (m : Memory) (i : Nat) :
    (s.withMem m).dst i = m.read (s.lane.dstBase + i) := rfl
@[simp] theorem State.withLane_src (s : State) (l : Lane) (i : Nat) :
    (s.withLane l).src i = s.mem.read (l.srcBase + i) := rfl
@[simp] theorem State.withLane_dst (s : State) (l : Lane) (i : Nat) :
    (s.withLane l).dst i = s.mem.read (l.dstBase + i) := rfl

/-- What `raiseFail` does to the lane (R240). -/
@[simp] theorem raiseFail_lane (c : Cause) (s : State) :
    (raiseFail c s).lane =
      { s.lane with fcause := c, fip := s.lane.ip, fop := s.lane.op, state := .failed, inExt := false } := rfl
@[simp] theorem raiseFail_mem (c : Cause) (s : State) : (raiseFail c s).mem = s.mem := rfl
@[simp] theorem raiseFail_ctxs (c : Cause) (s : State) : (raiseFail c s).ctxs = s.ctxs := rfl
@[simp] theorem raiseFail_params (c : Cause) (s : State) : (raiseFail c s).params = s.params := rfl
@[simp] theorem raiseFail_regions (c : Cause) (s : State) : (raiseFail c s).regions = s.regions := rfl

@[simp] theorem succeed_lane (s : State) : (succeed s).lane = { s.lane with state := .done } := rfl
@[simp] theorem succeed_mem (s : State) : (succeed s).mem = s.mem := rfl
@[simp] theorem succeed_ctxs (s : State) : (succeed s).ctxs = s.ctxs := rfl
@[simp] theorem succeed_params (s : State) : (succeed s).params = s.params := rfl
@[simp] theorem succeed_regions (s : State) : (succeed s).regions = s.regions := rfl

@[simp] theorem Flow.goesOn_andThen (s : State) (f : State → Flow) : (Flow.goesOn s).andThen f = f s := rfl
@[simp] theorem Flow.ended_andThen (s : State) (f : State → Flow) : (Flow.ended s).andThen f = .ended s := rfl
@[simp] theorem Flow.goesOn_state (s : State) : (Flow.goesOn s).state = s := rfl
@[simp] theorem Flow.ended_state (s : State) : (Flow.ended s).state = s := rfl

/-- What `transact` can do: refuse an absent context, wait on a held lock, or run the transaction. -/
theorem transact_cases (ctx : Nat) (s : State) (k : Context → State) :
    (s.ctxs[ctx]? = none ∧ transact ctx s k = .refused .noSuchContext)
      ∨ (∃ c, s.ctxs[ctx]? = some c ∧ c.lock = true ∧ transact ctx s k = .next s)
      ∨ (∃ c, s.ctxs[ctx]? = some c ∧ c.lock = false ∧ transact ctx s k = .next (k c)) := by
  unfold transact
  cases h : s.ctxs[ctx]? with
  | none => exact .inl ⟨rfl, rfl⟩
  | some c =>
    cases hl : c.lock with
    | true => exact .inr (.inl ⟨c, rfl, hl, by simp [hl]⟩)
    | false => exact .inr (.inr ⟨c, rfl, hl, by simp [hl]⟩)

/-- On spans that meet the contract an operation runs. -/
theorem onSpans_of_ok {s : State} (k : State → Host.Outcome State Fault Refusal)
    (hsrc : s.lane.srcBase + s.lane.srcSize + s.params.slack ≤ Config.addrLimit)
    (hdst : s.lane.dstBase + s.lane.dstSize ≤ Config.addrLimit)
    (hsp : spanProblem s.params.slack s.regions s.lane.srcBase s.lane.srcSize s.lane.dstBase s.lane.dstSize = none) :
    onSpans s k = k s := by
  unfold onSpans
  rw [if_neg (by omega), hsp]

/-- If an operation guarded by the contract answers a next state, the spans met the contract and it ran. -/
theorem onSpans_next {s t : State} {k : State → Host.Outcome State Fault Refusal} (h : onSpans s k = .next t) :
    s.lane.srcBase + s.lane.srcSize + s.params.slack ≤ Config.addrLimit
      ∧ s.lane.dstBase + s.lane.dstSize ≤ Config.addrLimit
      ∧ spanProblem s.params.slack s.regions s.lane.srcBase s.lane.srcSize s.lane.dstBase s.lane.dstSize = none
      ∧ k s = .next t := by
  unfold onSpans at h
  split at h
  · simp at h
  · rename_i hw
    split at h
    · simp at h
    · rename_i hp
      exact ⟨by omega, by omega, hp, h⟩

end Sys2Proof.Machine
end

