-- ==== Sys2Proof/Laws/Contract.lean ====
section
/-! SUPPORT. The contract on spans said of addresses: what `covered`, `disjoint` and `spanProblem` mean (R68, R76, R211). -/

namespace Sys2Proof.Machine

theorem Region.holds_iff (r : Region) (a : Nat) : r.holds a = true ↔ r.base ≤ a ∧ a < r.base + r.size := by
  simp [Region.holds]

/-- With enough fuel for every region that ends above the frontier, `covered` decides that every address is held. -/
theorem covered_iff_of_fuel (rs : List Region) (fuel b e : Nat)
    (hf : (rs.filter fun r => decide (b < r.base + r.size)).length ≤ fuel) :
    covered rs fuel b e = true ↔ ∀ a, b ≤ a → a < e → ∃ r ∈ rs, r.holds a = true := by
  induction fuel generalizing b with
  | zero =>
    have hnone : ∀ r ∈ rs, r.base + r.size ≤ b := by
      intro r hr
      have := List.eq_nil_of_length_eq_zero (Nat.le_zero.mp hf)
      rw [List.filter_eq_nil_iff] at this
      simpa using this r hr
    simp only [covered, decide_eq_true_eq]
    constructor
    · intro h a h1 h2
      omega
    · intro h
      by_contra hlt
      obtain ⟨r, hr, hh⟩ := h b (Nat.le_refl b) (by omega)
      rw [Region.holds_iff] at hh
      have := hnone r hr
      omega
  | succ n ih =>
    simp only [covered, Bool.or_eq_true, decide_eq_true_eq]
    by_cases hlt : e ≤ b
    · exact ⟨fun _ a h1 h2 => by omega, fun _ => .inl hlt⟩
    · cases hfind : rs.find? fun r => r.holds b with
      | none =>
        rw [List.find?_eq_none] at hfind
        constructor
        · rintro (h | h)
          · omega
          · simp at h
        · intro h
          obtain ⟨r, hr, hh⟩ := h b (Nat.le_refl b) (by omega)
          exact absurd hh (hfind r hr)
      | some r =>
        have hmem := List.mem_of_find?_eq_some hfind
        have hh : r.holds b = true := List.find?_some (p := fun r : Region => r.holds b) hfind
        have hb := (r.holds_iff b).mp hh
        have hfuel : (rs.filter fun q => decide (r.base + r.size < q.base + q.size)).length ≤ n := by
          have hlen : (rs.filter fun q => decide (r.base + r.size < q.base + q.size)).length
              < (rs.filter fun q => decide (b < q.base + q.size)).length := by
            have hsub : rs.filter (fun q => decide (r.base + r.size < q.base + q.size))
                = (rs.filter fun q => decide (b < q.base + q.size)).filter
                    (fun q => decide (r.base + r.size < q.base + q.size)) := by
              rw [List.filter_filter]
              congr 1
              funext q
              rw [Bool.eq_iff_iff]
              simp only [Bool.and_eq_true, decide_eq_true_eq]
              omega
            rw [hsub]
            apply List.length_filter_lt_length_iff_exists.mpr
            exact ⟨r, by simp [hmem, hb.2], by simp⟩
          omega
        have := ih (r.base + r.size) hfuel
        simp only [hlt, false_or, this]
        constructor
        · intro h a h1 h2
          by_cases ha : a < r.base + r.size
          · exact ⟨r, hmem, (r.holds_iff a).mpr ⟨by omega, ha⟩⟩
          · exact h a (by omega) h2
        · exact fun h a h1 h2 => h a (by omega) h2

/-- `covered` with one hop per region decides that every address is held. -/
theorem covered_iff (rs : List Region) (b e : Nat) :
    covered rs rs.length b e = true ↔ ∀ a, b ≤ a → a < e → ∃ r ∈ rs, r.holds a = true :=
  covered_iff_of_fuel rs rs.length b e (List.length_filter_le _ _)

theorem readable_iff (rs : List Region) (b n : Nat) :
    readable rs b n = true ↔ ∀ a, b ≤ a → a < b + n → ∃ r ∈ rs, r.holds a = true := covered_iff rs b (b + n)

theorem writable_iff (rs : List Region) (b n : Nat) :
    writable rs b n = true ↔ ∀ a, b ≤ a → a < b + n → ∃ r ∈ rs, r.writable = true ∧ r.holds a = true := by
  unfold writable
  rw [covered_iff]
  simp [and_assoc]

/-- Two ranges are disjoint iff they have no address in common (R76). -/
theorem disjoint_iff (b n b' n' : Nat) :
    disjoint b n b' n' = true ↔ ∀ a, ¬ (b ≤ a ∧ a < b + n ∧ b' ≤ a ∧ a < b' + n') := by
  simp only [disjoint, Bool.or_eq_true, decide_eq_true_eq, beq_iff_eq]
  constructor
  · rintro h a ⟨h1, h2, h3, h4⟩
    omega
  · intro h
    have := h (max b b')
    omega

theorem disjoint_comm (b n b' n' : Nat) : disjoint b n b' n' = disjoint b' n' b n := by
  rw [Bool.eq_iff_iff, disjoint_iff, disjoint_iff]
  constructor <;> exact fun h a ⟨h1, h2, h3, h4⟩ => h a ⟨h3, h4, h1, h2⟩

/-- The spans of a command are in order iff every byte is accessible and the two do not meet (R211 (a), (c)). -/
theorem spanProblem_eq_none (slack : Nat) (rs : List Region) (sb sn db dn : Nat) :
    spanProblem slack rs sb sn db dn = none ↔
      readable rs sb (sn + slack) = true ∧ writable rs db dn = true ∧ disjoint sb (sn + slack) db dn = true := by
  unfold spanProblem
  cases readable rs sb (sn + slack) <;> cases writable rs db dn <;> cases disjoint sb (sn + slack) db dn <;> simp

/-- More regions never break a contract. -/
theorem spanProblem_append {slack : Nat} {rs : List Region} {sb sn db dn : Nat} (r : Region)
    (h : spanProblem slack rs sb sn db dn = none) : spanProblem slack (rs ++ [r]) sb sn db dn = none := by
  rw [spanProblem_eq_none, readable_iff, writable_iff] at *
  refine ⟨fun a h1 h2 => ?_, fun a h1 h2 => ?_, h.2.2⟩
  · obtain ⟨q, hq, hh⟩ := h.1 a h1 h2
    exact ⟨q, List.mem_append_left _ hq, hh⟩
  · obtain ⟨q, hq, hh⟩ := h.2.1 a h1 h2
    exact ⟨q, List.mem_append_left _ hq, hh⟩

/-- A lane's spans avoid a range iff they have no address in common with it (R76). -/
theorem Lane.avoids_iff (slack : Nat) (l : Lane) (b n : Nat) :
    l.avoids slack b n = true ↔
      (∀ a, ¬ (l.srcBase ≤ a ∧ a < l.srcBase + (l.srcSize + slack) ∧ b ≤ a ∧ a < b + n))
        ∧ ∀ a, ¬ (l.dstBase ≤ a ∧ a < l.dstBase + l.dstSize ∧ b ≤ a ∧ a < b + n) := by
  simp only [Lane.avoids, Bool.and_eq_true, disjoint_iff]

end Sys2Proof.Machine
end

