-- ==== Sys2Proof/Laws/Command.lean ====
section
/-! SUPPORT. The command: what its check decides, and what its sizes mean (R211, R213, R214, R215). -/

namespace Sys2Proof.Machine

/-- A command is trivial iff a size is zero (R213). -/
theorem trivialSizes_iff (s d : Nat) : trivialSizes s d = true ↔ s = 0 ∨ d = 0 := by
  simp [trivialSizes]

/-- A command is measured iff neither size is zero and D is at or above the threshold (R214, R215). -/
theorem measuredSizes_iff (s d : Nat) : measuredSizes s d = true ↔ 0 < s ∧ 32768 ≤ d := by
  unfold measuredSizes Config.threshold
  rw [Bool.and_eq_true, Bool.not_eq_true', ← Bool.not_eq_true, trivialSizes_iff, decide_eq_true_eq]
  omega

/-- The check of a command finds nothing iff the command keeps the contract, said address by address (R211). -/
theorem contractProblem_eq_none (cmd : Command) (s : State) :
    contractProblem cmd s = none ↔ ¬ ContractBroken cmd s := by
  unfold contractProblem ContractBroken
  by_cases h1 : s.lane.state = .idle
  swap
  · simp [h1]
  by_cases h2 : Config.maxSize < cmd.sourceSize
  · simp [h1, h2]
  by_cases h3 : Config.maxSize < cmd.destSize
  · simp [h1, h3]
  by_cases h4 : Config.addrLimit < cmd.source + cmd.sourceSize + s.params.slack
  · simp [h1, h2, h3, h4]
  by_cases h5 : Config.addrLimit ≤ cmd.dest
  · simp [h1, h2, h3, h5]
  by_cases h6 : Config.addrLimit < cmd.dest + cmd.destSize
  · simp [h1, h2, h3, h6]
  by_cases h7 : s.ctxs.length ≤ cmd.stats
  · simp [h1, h2, h3, h4, h5, h6, h7]
  by_cases h8 : cmd.sourceSize = 0
  · simp [h1, h3, h5, h6, h7, h8, trivialSizes]
  by_cases h9 : cmd.destSize = 0
  · simp [h1, h2, h4, h5, h7, h9, trivialSizes]
  have ht : trivialSizes cmd.sourceSize cmd.destSize = false := by simp [trivialSizes, h8, h9]
  simp only [h1, h2, h3, h4, h5, h6, h7, ht, decide_false, Bool.or_false, Bool.false_eq_true, if_false, bne_self_eq_false,
    not_true_eq_false, ne_eq, false_or, Nat.pos_of_ne_zero h8, Nat.pos_of_ne_zero h9, true_and, not_or]
  have key : ∀ (o : Option Refusal) (b : Bool),
      (match o with
        | some r => some r
        | none => if b = true then none else some Refusal.spansOfRunningCommand) = none ↔ o = none ∧ b = true := by
    intro o b
    cases o <;> cases b <;> simp
  refine (key _ _).trans ?_
  rw [spanProblem_eq_none, readable_iff, writable_iff, disjoint_iff]
  simp only [List.all_eq_true, Bool.or_eq_true, Bool.not_eq_true', Bool.and_eq_true, Lane.avoids_iff,
    InSource, InDest, Lane.InSpans]
  constructor
  · rintro ⟨⟨ha, hb, hc⟩, hd⟩
    refine ⟨?_, ?_, ?_, ?_⟩
    · rintro ⟨a, ⟨g1, g2⟩, g3⟩
      obtain ⟨r, hr, hh⟩ := ha a g1 (by omega)
      rw [g3 r hr] at hh
      cases hh
    · rintro ⟨a, ⟨g1, g2⟩, g3⟩
      obtain ⟨r, hr, hw, hh⟩ := hb a g1 g2
      rw [g3 r hr hw] at hh
      cases hh
    · rintro ⟨a, ⟨g1, g2⟩, g3, g4⟩
      exact hc a ⟨g1, by omega, g3, g4⟩
    · rintro ⟨l, hl, hh, a, g1, g2⟩
      rcases hd l hl with h | ⟨⟨d1, d2⟩, d3, d4⟩
      · rw [h] at hh
        cases hh
      · have := d1 a
        have := d2 a
        have := d3 a
        have := d4 a
        omega
  · rintro ⟨ha, hb, hc, hd⟩
    refine ⟨⟨fun a g1 g2 => ?_, fun a g1 g2 => ?_, fun a g => ?_⟩, fun l hl => ?_⟩
    · by_contra h
      exact ha ⟨a, ⟨g1, by omega⟩, fun r hr => by by_contra hh; exact h ⟨r, hr, by simpa using hh⟩⟩
    · by_contra h
      exact hb ⟨a, ⟨g1, g2⟩, fun r hr hw => by by_contra hh; exact h ⟨r, hr, hw, by simpa using hh⟩⟩
    · exact hc ⟨a, ⟨g.1, by omega⟩, g.2.2⟩
    · cases hh : l.holdsSpans with
      | false => exact .inl rfl
      | true =>
        refine .inr ⟨⟨fun a g => ?_, fun a g => ?_⟩, fun a g => ?_, fun a g => ?_⟩ <;>
          exact hd ⟨l, hl, hh, a, by omega, by omega⟩

end Sys2Proof.Machine
end

