-- ==== Sys2Proof/Laws/Memory.lean ====
section
/-! SUPPORT. The laws of the host's memory: a read after a write, the canonical form, and equal reads of canonical
memories mean equal memories. -/

namespace Sys2Proof.Machine

/-! ### Reading after writing -/

/-- An address below every cell is unlisted. -/
theorem Memory.read_of_lt {m : Memory} {a : Nat} (h : ∀ c ∈ m, a < c.1) : m.read a = unlistedByte := by
  induction m with
  | nil => rfl
  | cons c m ih =>
    obtain ⟨k, v⟩ := c
    have hk : a < k := h (k, v) (by simp)
    rw [Memory.read, if_neg (by omega)]
    exact ih fun c hc => h c (by simp [hc])

/-- A write leaves every other address as it was. -/
theorem Memory.read_write_other (m : Memory) (a b : Nat) (v : Byte) (h : b ≠ a) : (m.write a v).read b = m.read b := by
  induction m with
  | nil =>
    rw [Memory.write]
    split
    · rfl
    · simp [Memory.read, h]
  | cons c m ih =>
    obtain ⟨k, w⟩ := c
    rw [Memory.write]
    split_ifs with h1 h2 h3 h4
    · rfl
    · simp [Memory.read, h]
    · subst h3; simp [Memory.read, h]
    · subst h3; simp [Memory.read, h]
    · simp [Memory.read, ih]

/-- A read of the address just written gives the byte written. -/
theorem Memory.read_write_same {m : Memory} (hm : m.Pairwise (fun c d => c.1 < d.1)) (a : Nat) (v : Byte) :
    (m.write a v).read a = v := by
  induction m with
  | nil =>
    rw [Memory.write]
    split
    · rename_i h; simp [Memory.read, h]
    · simp [Memory.read]
  | cons c m ih =>
    obtain ⟨k, w⟩ := c
    obtain ⟨hk, hm'⟩ := List.pairwise_cons.mp hm
    rw [Memory.write]
    split_ifs with h1 h2 h3 h4
    · rw [Memory.read, if_neg (by omega), h2]
      exact Memory.read_of_lt fun c hc => by have := hk c hc; simp only at this; omega
    · simp [Memory.read]
    · rw [h4]
      exact Memory.read_of_lt fun c hc => by have := hk c hc; simp only at this; omega
    · simp [Memory.read]
    · rw [Memory.read, if_neg h3]
      exact ih hm'

/-! ### The canonical form -/

/-- Every address a write lists was listed before or is the one written. -/
theorem Memory.mem_write {m : Memory} {a : Nat} {v : Byte} {c : Host.Cell} (h : c ∈ m.write a v) :
    c ∈ m ∨ (c = (a, v) ∧ v ≠ unlistedByte) := by
  induction m with
  | nil =>
    rw [Memory.write] at h
    split at h
    · simp at h
    · rename_i hv; exact .inr ⟨by simpa using h, hv⟩
  | cons d m ih =>
    obtain ⟨k, w⟩ := d
    rw [Memory.write] at h
    split_ifs at h with h1 h2 h3 h4
    · exact .inl h
    · rcases List.mem_cons.mp h with h | h
      · exact .inr ⟨h, h2⟩
      · exact .inl h
    · exact .inl (by simp [h])
    · rcases List.mem_cons.mp h with h | h
      · exact .inr ⟨h, h4⟩
      · exact .inl (by simp [h])
    · rcases List.mem_cons.mp h with h | h
      · exact .inl (by simp [h])
      · rcases ih h with h | h
        · exact .inl (by simp [h])
        · exact .inr h

/-- A write keeps the canonical form. -/
theorem Memory.write_wf {m : Memory} (h : m.wf) (a : Nat) (v : Byte) : (m.write a v).wf := by
  refine ⟨?_, fun c hc => ?_⟩
  · have hp := h.1
    clear h
    induction m with
    | nil => rw [Memory.write]; split <;> simp
    | cons d m ih =>
      obtain ⟨k, w⟩ := d
      obtain ⟨hk, hm'⟩ := List.pairwise_cons.mp hp
      rw [Memory.write]
      split_ifs with h1 h2 h3 h4
      · exact hp
      · refine List.pairwise_cons.mpr ⟨fun c hc => ?_, hp⟩
        rcases List.mem_cons.mp hc with hc | hc
        · subst hc; exact h1
        · have := hk c hc; simp only at this ⊢; omega
      · exact hm'
      · exact List.pairwise_cons.mpr ⟨fun c hc => by have := hk c hc; simp only at this ⊢; omega, hm'⟩
      · refine List.pairwise_cons.mpr ⟨fun c hc => ?_, ih hm'⟩
        rcases Memory.mem_write hc with hc | ⟨hc, -⟩
        · exact hk c hc
        · subst hc; simp only; omega
  · rcases Memory.mem_write hc with hc | ⟨hc, hv⟩
    · exact h.2 c hc
    · subst hc; exact hv

/-- Storing bytes keeps the canonical form. -/
theorem Memory.writeBytes_wf {m : Memory} (h : m.wf) (a : Nat) (bs : List Byte) : (m.writeBytes a bs).wf := by
  induction bs generalizing m a with
  | nil => exact h
  | cons b bs ih => exact ih (Memory.write_wf h a b) (a + 1)

/-- Forgetting a range keeps the canonical form. -/
theorem Memory.forget_wf {m : Memory} (h : m.wf) (d a n : Nat) : (Memory.forget d a n m).wf := by
  induction n with
  | zero => exact h
  | succ n ih => exact Memory.write_wf ih _ _

/-! ### Runs of bytes -/

/-- Storing bytes leaves every address outside the bytes stored as it was. -/
theorem Memory.read_writeBytes_other (m : Memory) (a : Nat) (bs : List Byte) (x : Nat)
    (h : x < a ∨ a + bs.length ≤ x) : (m.writeBytes a bs).read x = m.read x := by
  induction bs generalizing m a with
  | nil => rfl
  | cons b bs ih =>
    simp only [List.length_cons] at h
    rw [Memory.writeBytes, ih _ _ (by omega), Memory.read_write_other _ _ _ _ (by omega)]

/-- A byte of the run just stored. -/
theorem Memory.read_writeBytes_at {m : Memory} (hm : m.wf) (a : Nat) (bs : List Byte) (j : Nat) (h : j < bs.length) :
    (m.writeBytes a bs).read (a + j) = bs[j] := by
  induction bs generalizing m a j with
  | nil => simp at h
  | cons b bs ih =>
    rw [Memory.writeBytes]
    cases j with
    | zero =>
      rw [Memory.read_writeBytes_other _ _ _ _ (by omega)]
      exact Memory.read_write_same hm.1 a b
    | succ j =>
      have := ih (Memory.write_wf hm a b) (a + 1) j (by simpa using h)
      rw [show a + (j + 1) = a + 1 + j by omega]
      simpa using this

/-- Forgetting a range leaves every address outside it as it was. -/
theorem Memory.read_forget_other (m : Memory) (d a n x : Nat) (h : x < a ∨ a + n ≤ x) :
    (Memory.forget d a n m).read x = m.read x := by
  induction n with
  | zero => rfl
  | succ n ih => rw [Memory.forget, Memory.read_write_other _ _ _ _ (by omega), ih (by omega)]

@[simp] theorem Memory.length_readBytes (m : Memory) (a n : Nat) : (m.readBytes a n).length = n := by
  simp [Memory.readBytes]

@[simp] theorem Memory.getElem_readBytes (m : Memory) (a n j : Nat) (h : j < (m.readBytes a n).length) :
    (m.readBytes a n)[j] = m.read (a + j) := by
  simp [Memory.readBytes]

/-- Two runs of bytes are the same when each byte is. -/
theorem Memory.readBytes_congr {m m' : Memory} {a a' n : Nat} (h : ∀ j, j < n → m.read (a + j) = m'.read (a' + j)) :
    m.readBytes a n = m'.readBytes a' n := by
  unfold Memory.readBytes
  exact List.map_congr_left fun j hj => h j (by simpa using hj)

/-! ### Equal reads, equal memories -/

/-- Canonical memories that read the same everywhere are the same. -/
theorem Memory.eq_of_read_eq {m m' : Memory} (h : m.wf) (h' : m'.wf) (heq : ∀ a, m.read a = m'.read a) : m = m' := by
  induction m generalizing m' with
  | nil =>
    cases m' with
    | nil => rfl
    | cons c m' =>
      obtain ⟨k, v⟩ := c
      have := heq k
      rw [Memory.read, Memory.read, if_pos rfl] at this
      exact absurd this.symm (h'.2 (k, v) (by simp))
  | cons c m ih =>
    obtain ⟨k, v⟩ := c
    obtain ⟨hk, hp⟩ := List.pairwise_cons.mp h.1
    cases m' with
    | nil =>
      have := heq k
      rw [Memory.read, Memory.read, if_pos rfl] at this
      exact absurd this (h.2 (k, v) (by simp))
    | cons c' m' =>
      obtain ⟨k', v'⟩ := c'
      obtain ⟨hk', hp'⟩ := List.pairwise_cons.mp h'.1
      have hlow : ∀ {a : Nat}, a < k → Memory.read ((k, v) :: m) a = unlistedByte := fun {a} ha =>
        Memory.read_of_lt fun c hc => by
          rcases List.mem_cons.mp hc with rfl | hc
          · exact ha
          · exact Nat.lt_trans ha (hk c hc)
      have hlow' : ∀ {a : Nat}, a < k' → Memory.read ((k', v') :: m') a = unlistedByte := fun {a} ha =>
        Memory.read_of_lt fun c hc => by
          rcases List.mem_cons.mp hc with rfl | hc
          · exact ha
          · exact Nat.lt_trans ha (hk' c hc)
      have hv : Memory.read ((k, v) :: m) k = v := by rw [Memory.read, if_pos rfl]
      have hv' : Memory.read ((k', v') :: m') k' = v' := by rw [Memory.read, if_pos rfl]
      have hkk : k = k' := by
        rcases Nat.lt_trichotomy k k' with hlt | rfl | hlt
        · exact absurd (hv.symm.trans ((heq k).trans (hlow' hlt))) (h.2 (k, v) (by simp))
        · rfl
        · exact absurd (hv'.symm.trans ((heq k').symm.trans (hlow hlt))) (h'.2 (k', v') (by simp))
      subst hkk
      have hvv : v = v' := hv.symm.trans ((heq k).trans hv')
      subst hvv
      have htail : m = m' := by
        refine ih ⟨hp, fun c hc => h.2 c (by simp [hc])⟩ ⟨hp', fun c hc => h'.2 c (by simp [hc])⟩ fun a => ?_
        by_cases ha : a = k
        · subst ha
          rw [Memory.read_of_lt fun c hc => hk c hc, Memory.read_of_lt fun c hc => hk' c hc]
        · have := heq a
          rwa [Memory.read, if_neg ha, Memory.read, if_neg ha] at this
      rw [htail]

end Sys2Proof.Machine
end

