-- ==== Sys2Proof/Laws/Copy.lean ====
section
/-! SUPPORT. What the copies do: which bytes they store, which they leave, and that nothing but memory, `VEC` and (for the
operations that return a pointer) `MP` changes. -/

namespace Sys2Proof.Machine

/-! ### What a copy may touch -/

/-- `t` is `s` with memory and `VEC` replaced. -/
def CopiedVec (s t : State) : Prop := t = (s.withMem t.mem).withLane { s.lane with vec := t.lane.vec }

theorem CopiedVec.refl (s : State) : CopiedVec s s := rfl

theorem CopiedVec.trans {s t u : State} (h : CopiedVec s t) (h' : CopiedVec t u) : CopiedVec s u := by
  unfold CopiedVec at *
  rw [h', h]
  rfl

theorem CopiedVec.lane {s t : State} (h : CopiedVec s t) : t.lane = { s.lane with vec := t.lane.vec } := by
  have := congrArg State.lane h
  simpa using this

theorem CopiedVec.params {s t : State} (h : CopiedVec s t) : t.params = s.params := by
  have := congrArg State.params h
  simpa using this

theorem CopiedVec.dstBase {s t : State} (h : CopiedVec s t) : t.lane.dstBase = s.lane.dstBase := by rw [h.lane]
theorem CopiedVec.dstSize {s t : State} (h : CopiedVec s t) : t.lane.dstSize = s.lane.dstSize := by rw [h.lane]
theorem CopiedVec.srcBase {s t : State} (h : CopiedVec s t) : t.lane.srcBase = s.lane.srcBase := by rw [h.lane]

/-- Every byte of `DST` outside the indices `[b, e)` of the acting lane, and every other byte of memory, is the same. -/
def KeepsOutside (s t : State) (b e : Nat) : Prop :=
  ∀ x, x < s.lane.dstBase + b ∨ s.lane.dstBase + min e s.lane.dstSize ≤ x → t.mem.read x = s.mem.read x

theorem KeepsOutside.refl (s : State) (b e : Nat) : KeepsOutside s s b e := fun _ _ => rfl

/-- Two writes one after the other leave what both leave. -/
theorem KeepsOutside.trans {s t u : State} {b e b' e' : Nat} (h : KeepsOutside s t b e) (hc : t.lane.dstBase = s.lane.dstBase)
    (hd : t.lane.dstSize = s.lane.dstSize) (h' : KeepsOutside t u b' e') (hb : b ≤ b') (he : e ≤ e') :
    KeepsOutside s u b e' := by
  intro x hx
  rw [h' x (by rw [hc, hd]; omega), h x (by omega)]

/-- A wider range promises less. -/
theorem KeepsOutside.mono {s t : State} {b e b' e' : Nat} (h : KeepsOutside s t b e) (hb : b' ≤ b) (he : e ≤ e') :
    KeepsOutside s t b' e' := fun x hx => h x (by omega)

/-- An output byte outside the range written. -/
theorem KeepsOutside.dst {s t : State} {b e : Nat} (h : KeepsOutside s t b e) (hc : t.lane.dstBase = s.lane.dstBase)
    {i : Nat} (hi : i < b ∨ min e s.lane.dstSize ≤ i) : t.dst i = s.dst i := by
  unfold State.dst
  rw [hc]
  exact h _ (by omega)

/-- What every copy that stores in the DST indices `[b, e)` promises: only memory and `VEC` change, nothing outside the
indices is stored, and the canonical form of memory is kept. -/
structure CopyFrame (s t : State) (b e : Nat) : Prop where
  only : CopiedVec s t
  keeps : KeepsOutside s t b e
  wf : s.mem.wf → t.mem.wf

theorem CopyFrame.refl (s : State) (b e : Nat) : CopyFrame s s b e := ⟨rfl, fun _ _ => rfl, id⟩

theorem CopyFrame.trans {s t u : State} {b e b' e' : Nat} (h : CopyFrame s t b e) (h' : CopyFrame t u b' e')
    (hb : b ≤ b') (he : e ≤ e') : CopyFrame s u b e' :=
  ⟨h.only.trans h'.only, h.keeps.trans h.only.dstBase h.only.dstSize h'.keeps hb he, fun hm => h'.wf (h.wf hm)⟩

theorem CopyFrame.mono {s t : State} {b e b' e' : Nat} (h : CopyFrame s t b e) (hb : b' ≤ b) (he : e ≤ e') :
    CopyFrame s t b' e' := ⟨h.only, h.keeps.mono hb he, h.wf⟩

/-! ### DstWrite -/

@[simp] theorem State.length_dstRead (s : State) (a n : Nat) : (s.dstRead a n).length = n := by simp [State.dstRead]
@[simp] theorem State.length_srcRead (s : State) (a n : Nat) : (s.srcRead a n).length = n := by simp [State.srcRead]

@[simp] theorem State.getElem_dstRead (s : State) (a n j : Nat) (h : j < (s.dstRead a n).length) :
    (s.dstRead a n)[j] = s.dst (a + j) := by
  simp [State.dstRead, State.dst, Nat.add_assoc]

@[simp] theorem State.getElem_srcRead (s : State) (a n j : Nat) (h : j < (s.srcRead a n).length) :
    (s.srcRead a n)[j] = s.src (a + j) := by
  simp [State.srcRead, State.src, Nat.add_assoc]

/-- A byte stored by `DstWrite` at an index below D. -/
theorem State.dst_dstWrite {s : State} (hm : s.mem.wf) (a : Nat) (bs : List Byte) (j : Nat) (h : j < bs.length)
    (hd : a + j < s.lane.dstSize) : (s.dstWrite a bs).dst (a + j) = bs[j] := by
  unfold State.dst
  rw [State.dstWrite_lane, State.dstWrite_mem, ← Nat.add_assoc,
    Memory.read_writeBytes_at hm _ _ _ (by simp only [List.length_take]; omega), List.getElem_take]

/-- `DstWrite` stores nothing outside its bytes, and nothing at or beyond D. -/
theorem State.dstWrite_keeps (s : State) (a : Nat) (bs : List Byte) : KeepsOutside s (s.dstWrite a bs) a (a + bs.length) := by
  intro x hx
  rw [State.dstWrite_mem]
  exact Memory.read_writeBytes_other _ _ _ _ (by simp only [List.length_take]; omega)

theorem State.dstWrite_copyFrame (s : State) (a : Nat) (bs : List Byte) :
    CopyFrame s (s.dstWrite a bs) a (a + bs.length) :=
  ⟨rfl, State.dstWrite_keeps s a bs, fun hm => Memory.writeBytes_wf hm _ _⟩

/-! ### One stride (R120) -/

theorem State.stride_keeps (s : State) (t : Nat) (bs : List Byte) : KeepsOutside s (s.stride t bs) t (t + bs.length) :=
  State.dstWrite_keeps (s.loadVec bs) t bs

theorem State.dst_stride {s : State} (hm : s.mem.wf) (t : Nat) (bs : List Byte) (j : Nat) (h : j < bs.length)
    (hd : t + j < s.lane.dstSize) : (s.stride t bs).dst (t + j) = bs[j] :=
  State.dst_dstWrite (s := s.loadVec bs) hm t bs j h hd

/-- Every active lane of `STRIDE_OUT` stores the byte it loaded. -/
theorem strideOut_dst {s : State} (hm : s.mem.wf) (w t src j : Nat) (hj : j < w) (hd : t + j < s.lane.dstSize) :
    (strideOut w t src s).dst (t + j) = s.dst (src + j) := by
  unfold strideOut
  rw [State.dst_stride hm _ _ j (by simp only [State.length_dstRead, activeLanes]; omega) hd, State.getElem_dstRead]

theorem strideOut_copyFrame (w t src : Nat) (s : State) : CopyFrame s (strideOut w t src s) t (t + w) :=
  ⟨rfl, (State.stride_keeps s t _).mono (Nat.le_refl t) (by simp only [State.length_dstRead, activeLanes]; omega),
    fun hm => Memory.writeBytes_wf hm _ _⟩

/-- Every active lane of `STRIDE_IN` stores the stream byte it loaded. -/
theorem strideIn_dst {s : State} (hm : s.mem.wf) (w t src j : Nat) (hj : j < w) (hd : t + j < s.lane.dstSize) :
    (strideIn w t src s).dst (t + j) = s.src (src + j) := by
  unfold strideIn
  rw [State.dst_stride hm _ _ j (by simp only [State.length_srcRead, activeLanes]; omega) hd, State.getElem_srcRead]

theorem strideIn_copyFrame (w t src : Nat) (s : State) : CopyFrame s (strideIn w t src s) t (t + w) :=
  ⟨rfl, (State.stride_keeps s t _).mono (Nat.le_refl t) (by simp only [State.length_srcRead, activeLanes]; omega),
    fun hm => Memory.writeBytes_wf hm _ _⟩

/-! ### Wild copies (R122, R123) -/

/-- Any number of strides from DST, whatever their operands. -/
theorem stridesOut_copyFrame (w t src n : Nat) (s : State) : CopyFrame s (stridesOut w t src n s) t (t + n * w) := by
  induction n generalizing s t src with
  | zero => exact CopyFrame.refl s _ _
  | succ n ih =>
    have hmul : (n + 1) * w = n * w + w := by rw [Nat.add_mul, Nat.one_mul]
    exact (strideOut_copyFrame w t src s).trans
      ((ih (t + w) (src + w) _).mono (Nat.le_refl _) (e' := t + (n + 1) * w) (by omega)) (by omega) (by omega)

/-- Any number of strides from SRC, whatever their operands. -/
theorem stridesIn_copyFrame (w t src n : Nat) (s : State) : CopyFrame s (stridesIn w t src n s) t (t + n * w) := by
  induction n generalizing s t src with
  | zero => exact CopyFrame.refl s _ _
  | succ n ih =>
    have hmul : (n + 1) * w = n * w + w := by rw [Nat.add_mul, Nat.one_mul]
    exact (strideIn_copyFrame w t src s).trans
      ((ih (t + w) (src + w) _).mono (Nat.le_refl _) (e' := t + (n + 1) * w) (by omega)) (by omega) (by omega)

/-- Each byte that strides from DST store equals, at the end, the byte at its load index (R70 (b)). -/
theorem stridesOut_dst {s : State} (hm : s.mem.wf) (w t src n : Nat) (hw : src + w ≤ t) (j : Nat) (hj : j < n * w)
    (hd : t + j < s.lane.dstSize) :
    (stridesOut w t src n s).dst (t + j) = (stridesOut w t src n s).dst (src + j) := by
  induction n generalizing s t src j with
  | zero => omega
  | succ n ih =>
    have hmul : (n + 1) * w = n * w + w := by rw [Nat.add_mul, Nat.one_mul]
    have h1 := strideOut_copyFrame w t src s
    have h2 := stridesOut_copyFrame w (t + w) (src + w) n (strideOut w t src s)
    have h12 := stridesOut_copyFrame w t src (n + 1) s
    have hbyte := strideOut_dst hm w t src j
    have hrec := ih (s := strideOut w t src s) (h1.wf hm) (t + w) (src + w) (by omega) (j - w)
    rw [stridesOut] at h12 ⊢
    generalize strideOut w t src s = s1 at *
    generalize stridesOut w (t + w) (src + w) n s1 = s2 at *
    by_cases hjw : j < w
    · rw [h2.keeps.dst h2.only.dstBase (i := t + j) (by rw [h1.only.dstSize]; omega),
        h12.keeps.dst h12.only.dstBase (i := src + j) (by omega)]
      exact hbyte hjw hd
    · have := hrec (by omega) (by rw [h1.only.dstSize]; omega)
      rwa [show t + w + (j - w) = t + j by omega, show src + w + (j - w) = src + j by omega] at this

/-- Each byte that strides from SRC store is the stream byte at its load index, when the bytes loaded lie outside DST. -/
theorem stridesIn_dst {s : State} (hm : s.mem.wf) (w t src n : Nat)
    (hdis : ∀ j, j < n * w → s.lane.srcBase + (src + j) < s.lane.dstBase
      ∨ s.lane.dstBase + s.lane.dstSize ≤ s.lane.srcBase + (src + j)) (j : Nat) (hj : j < n * w)
    (hd : t + j < s.lane.dstSize) : (stridesIn w t src n s).dst (t + j) = s.src (src + j) := by
  induction n generalizing s t src j with
  | zero => omega
  | succ n ih =>
    have hmul : (n + 1) * w = n * w + w := by rw [Nat.add_mul, Nat.one_mul]
    have h1 := strideIn_copyFrame w t src s
    have h2 := stridesIn_copyFrame w (t + w) (src + w) n (strideIn w t src s)
    have hbyte := strideIn_dst hm w t src j
    have hrec := ih (s := strideIn w t src s) (h1.wf hm) (t + w) (src + w) (fun i hi => by
      have := hdis (w + i) (by omega)
      rw [h1.only.srcBase, h1.only.dstBase, h1.only.dstSize]
      omega) (j - w)
    rw [stridesIn]
    generalize strideIn w t src s = s1 at *
    generalize stridesIn w (t + w) (src + w) n s1 = s2 at *
    by_cases hjw : j < w
    · rw [h2.keeps.dst h2.only.dstBase (i := t + j) (by rw [h1.only.dstSize]; omega)]
      exact hbyte hjw hd
    · have := hrec (by omega) (by rw [h1.only.dstSize]; omega)
      rw [show t + w + (j - w) = t + j by omega, show src + w + (j - w) = src + j by omega] at this
      rw [this]
      unfold State.src
      rw [h1.only.srcBase]
      exact h1.keeps _ (by have := hdis j (by omega); omega)

/-! ### Rounding up -/

/-- `ceilW(x) div W` strides of W bytes are `ceilW(x)` bytes (D29). -/
theorem strideCount_mul {w : Nat} (hw : 0 < w) (x : Nat) : strideCount w x * w = ceilTo w x := by
  unfold strideCount ceilTo
  rw [Nat.mul_div_cancel _ hw]

/-- `ceilW(x)` is at least x and less than x + W (R10). -/
theorem ceilTo_bounds {w : Nat} (hw : 0 < w) (x : Nat) : x ≤ ceilTo w x ∧ ceilTo w x < x + w := by
  unfold ceilTo
  have h1 := Nat.div_add_mod (x + w - 1) w
  have h2 := Nat.mod_lt (x + w - 1) hw
  rw [Nat.mul_comm] at h1
  omega

theorem width_pos (v : Variant) : 0 < width v := by unfold width; positivity

/-- A variant's copy width is 8, 16 or 32 (R3). -/
theorem width_cases (v : Variant) : width v = 8 ∨ width v = 16 ∨ width v = 32 := by
  fin_cases v <;> simp [width]

theorem width_le (v : Variant) : width v ≤ 32 := by
  rcases width_cases v with h | h | h <;> omega

theorem wildCopyOut_copyFrame {w : Nat} (hw : 0 < w) (t src size : Nat) (s : State) :
    CopyFrame s (wildCopyOut w t src size s) t (t + ceilTo w size) := by
  rw [← strideCount_mul hw]
  exact stridesOut_copyFrame w t src _ s

theorem wildCopyIn_copyFrame {w : Nat} (hw : 0 < w) (t src size : Nat) (s : State) :
    CopyFrame s (wildCopyIn w t src size s) t (t + ceilTo w size) := by
  rw [← strideCount_mul hw]
  exact stridesIn_copyFrame w t src _ s

/-- The bytes of `WILDCOPYOUT_W` (R122). -/
theorem wildCopyOut_dst {s : State} (hm : s.mem.wf) {w : Nat} (hw0 : 0 < w) (t src size : Nat) (hw : src + w ≤ t)
    (j : Nat) (hj : j < ceilTo w size) (hd : t + j < s.lane.dstSize) :
    (wildCopyOut w t src size s).dst (t + j) = (wildCopyOut w t src size s).dst (src + j) :=
  stridesOut_dst hm w t src _ hw j (by rwa [strideCount_mul hw0]) hd

/-- The bytes of `WILDCOPYIN_W` (R123). -/
theorem wildCopyIn_dst {s : State} (hm : s.mem.wf) {w : Nat} (hw0 : 0 < w) (t src size : Nat)
    (hdis : ∀ j, j < ceilTo w size → s.lane.srcBase + (src + j) < s.lane.dstBase
      ∨ s.lane.dstBase + s.lane.dstSize ≤ s.lane.srcBase + (src + j))
    (j : Nat) (hj : j < ceilTo w size) (hd : t + j < s.lane.dstSize) :
    (wildCopyIn w t src size s).dst (t + j) = s.src (src + j) :=
  stridesIn_dst hm w t src _ (by rwa [strideCount_mul hw0]) j (by rwa [strideCount_mul hw0]) hd

/-! ### The overlap copy (R124 to R131) -/

/-- `ADV_W[n]` keeps the pattern in phase and lies in `1 .. n` (R126). -/
theorem advance_spec (w n : Nat) (hn : 1 ≤ n) : 1 ≤ advance w n ∧ advance w n ≤ n ∧ advance w n % n = w % n := by
  unfold advance
  split
  · rename_i h; exact ⟨hn, Nat.le_refl n, by rw [h, Nat.mod_self]⟩
  · have := Nat.mod_lt w hn
    exact ⟨by omega, by omega, Nat.mod_mod w n⟩

/-- The sub-offset has the phase of its stage and lies in `1 .. n` (R128). -/
theorem subOffset_spec (c n : Nat) (hn : 1 ≤ n) : 1 ≤ subOffset c n ∧ subOffset c n ≤ n ∧ subOffset c n % n = c % n :=
  advance_spec c n hn

theorem overlapShuffle_copyFrame (w t m n : Nat) (s : State) : CopyFrame s (overlapShuffle w t m n s) t (t + w) := by
  have hk := State.dstWrite_keeps ((s.loadVec (s.dstRead m n)).loadVec (permuted w n (s.dstRead m n))) t
    (permuted w n (s.dstRead m n))
  rw [show (permuted w n (s.dstRead m n)).length = w by simp [permuted, permRow]] at hk
  exact ⟨rfl, hk, fun hm => Memory.writeBytes_wf hm _ _⟩

theorem overlapBytes_copyFrame (t m k : Nat) (s : State) : CopyFrame s (overlapBytes t m k s) t (t + k) := by
  induction k generalizing t m s with
  | zero => exact CopyFrame.refl s _ _
  | succ k ih =>
    have h1 := State.dstWrite_copyFrame s t (s.dstRead m 1)
    rw [State.length_dstRead] at h1
    exact h1.trans ((ih (t + 1) (m + 1) _).mono (Nat.le_refl _) (e' := t + (k + 1)) (by omega)) (by omega) (by omega)

theorem overlapBlock_copyFrame (t m n c : Nat) (s : State) :
    CopyFrame s (overlapBlock t m n c s) (t + c) (t + c + c) := by
  refine (State.dstWrite_copyFrame s (t + c) _).mono (Nat.le_refl _) ?_
  rw [State.length_dstRead]
  exact Nat.add_le_add_left (Nat.min_le_left _ _) _

theorem overlapScalar_copyFrame {w : Nat} (hw : w = 8 ∨ w = 16 ∨ w = 32) (t m n : Nat) (s : State) :
    CopyFrame s (overlapScalar w t m n s) t (t + w) := by
  have h8 : CopyFrame s (overlapBlock t m n 4 (overlapBytes t m 4 s)) t (t + 4 + 4) :=
    (overlapBytes_copyFrame t m 4 s).trans (overlapBlock_copyFrame t m n 4 _) (by omega) (by omega)
  have h16 := h8.trans (overlapBlock_copyFrame t m n 8 _) (by omega) (by omega)
  have h32 := h16.trans (overlapBlock_copyFrame t m n 16 _) (by omega) (by omega)
  unfold overlapScalar
  rcases hw with rfl | rfl | rfl
  · simpa using h8
  · simpa using h16
  · simpa using h32

/-- `COPYOVERLAP_W`, whatever its operands: a copy into `[t, t + W)`, and `MP` (R124). -/
theorem copyOverlap_frame {w : Nat} (hw : w = 8 ∨ w = 16 ∨ w = 32) (t m n : Nat) (s : State) :
    ∃ u, copyOverlap w t m n s = u.setMp (m + advance w n) ∧ CopyFrame s u t (t + w) := by
  unfold copyOverlap
  cases s.params.ocpuImpl with
  | shuffle => exact ⟨_, rfl, overlapShuffle_copyFrame w t m n s⟩
  | scalar => exact ⟨_, rfl, overlapScalar_copyFrame hw t m n s⟩

/-- `COPYFROMOUTPUT_W`, whatever its operands: a copy into `[t, t + W)`, and `MP` (R121). -/
theorem copyFromOutput_frame (w t src : Nat) (s : State) :
    ∃ u, copyFromOutput w t src s = u.setMp (src + w) ∧ CopyFrame s u t (t + w) :=
  ⟨_, rfl, strideOut_copyFrame w t src s⟩

/-- The pattern that starts at DST index `m` with period `n` in `s` has been laid down, in `t`, over `c` bytes from `m + n`
on, as far as they lie below D. -/
structure Laid (s t : State) (m n c : Nat) : Prop where
  base : t.lane.dstBase = s.lane.dstBase
  size : t.lane.dstSize = s.lane.dstSize
  wf : t.mem.wf
  bytes : ∀ i, i < n + c → m + i < s.lane.dstSize → t.dst (m + i) = s.dst (m + i % n)

theorem Laid.zero {s : State} (hm : s.mem.wf) (m n : Nat) : Laid s s m n 0 :=
  ⟨rfl, rfl, hm, fun i hi _ => by rw [Nat.mod_eq_of_lt (by omega)]⟩

/-- Registers other than the spans play no part. -/
theorem Laid.congr {s t : State} {m n c : Nat} (h : Laid s t m n c) (l : Lane) (hb : l.dstBase = t.lane.dstBase)
    (hs : l.dstSize = t.lane.dstSize) : Laid s (t.withLane l) m n c :=
  ⟨hb.trans h.base, hs.trans h.size, h.wf, fun i hi hd => by
    have := h.bytes i hi hd
    rw [State.withLane_dst, hb]
    exact this⟩

/-- A copy of `k` bytes with the right phase, from what is laid already to where the pattern ends, extends the pattern
(R131). -/
theorem Laid.extend {s t u : State} {m n c k a : Nat} (h : Laid s t m n c) (hf : CopyFrame t u (m + n + c) (m + n + c + k))
    (hcopy : ∀ j, j < k → m + n + c + j < s.lane.dstSize → u.dst (m + n + c + j) = t.dst (m + a + j))
    (ha : a + k ≤ n + c) (hp : a % n = c % n) : Laid s u m n (c + k) := by
  refine ⟨hf.only.dstBase.trans h.base, hf.only.dstSize.trans h.size, hf.wf h.wf, fun i hi hd => ?_⟩
  by_cases hic : i < n + c
  · rw [hf.keeps.dst hf.only.dstBase (i := m + i) (by omega)]
    exact h.bytes i hic hd
  · obtain ⟨j, rfl⟩ : ∃ j, i = n + c + j := ⟨i - (n + c), by omega⟩
    have := hcopy j (by omega) (by omega)
    rw [show m + (n + c + j) = m + n + c + j by omega, this, Nat.add_assoc m a j, h.bytes _ (by omega) (by omega)]
    congr 2
    rw [Nat.add_mod, hp, ← Nat.add_mod, Nat.add_assoc n c j, Nat.add_mod_left]

/-- Stage 0: single bytes, each stored before the next is loaded (R70 (d), R128). -/
theorem Laid.bytes_stage {s t : State} {m n c : Nat} (hn : 1 ≤ n) (k : Nat) (h : Laid s t m n c) :
    Laid s (overlapBytes (m + n + c) (m + c) k t) m n (c + k) := by
  induction k generalizing t c with
  | zero => exact h
  | succ k ih =>
    have hf := State.dstWrite_copyFrame t (m + n + c) (t.dstRead (m + c) 1)
    rw [State.length_dstRead] at hf
    have hstep : Laid s (t.dstWrite (m + n + c) (t.dstRead (m + c) 1)) m n (c + 1) :=
      h.extend hf (a := c) (fun j hj hd => by
        rw [State.dst_dstWrite h.wf _ _ j (by simpa using hj) (by rw [h.size]; omega), State.getElem_dstRead]) (by omega) rfl
    have := ih hstep
    rw [show m + n + (c + 1) = m + n + c + 1 by omega, show m + (c + 1) = m + c + 1 by omega] at this
    rw [overlapBytes, show c + (k + 1) = c + 1 + k by omega]
    exact this

/-- Stage c doubles what is laid (R128). -/
theorem Laid.block_stage {s t : State} {m n c : Nat} (hn : 1 ≤ n) (h : Laid s t m n c) :
    Laid s (overlapBlock (m + n) m n c t) m n (c + c) := by
  obtain ⟨-, ha, hp⟩ := subOffset_spec c n hn
  refine h.extend (overlapBlock_copyFrame (m + n) m n c t) (a := subOffset c n) (fun j hj hd => ?_) (by omega) hp
  unfold overlapBlock
  rw [State.dst_dstWrite h.wf _ _ j (by
    have := h.size
    simp only [State.length_dstRead, activeLanes]; omega) (by rw [h.size]; omega), State.getElem_dstRead]

/-- The scalar overlap copy lays the pattern over W bytes (R128, R129). -/
theorem overlapScalar_laid {s : State} (hm : s.mem.wf) {w : Nat} (hw : w = 8 ∨ w = 16 ∨ w = 32) (m n : Nat) (hn : 1 ≤ n) :
    Laid s (overlapScalar w (m + n) m n s) m n w := by
  have h4 : Laid s (overlapBytes (m + n) m 4 s) m n 4 := by
    have := Laid.bytes_stage hn 4 (Laid.zero hm m n)
    simpa using this
  have h8 := h4.block_stage hn
  have h16 := h8.block_stage hn
  have h32 := h16.block_stage hn
  unfold overlapScalar
  rcases hw with rfl | rfl | rfl
  · simpa using h8
  · simpa using h16
  · simpa using h32

/-- The overlap copy by the permutation table lays the pattern over W bytes (R124, R127). -/
theorem overlapShuffle_laid {s : State} (hm : s.mem.wf) (w m n : Nat) (hn : 1 ≤ n) :
    Laid s (overlapShuffle w (m + n) m n s) m n w := by
  have hf := overlapShuffle_copyFrame w (m + n) m n s
  have hlen : (permuted w n (s.dstRead m n)).length = w := by simp [permuted, permRow]
  refine ⟨hf.only.dstBase, hf.only.dstSize, hf.wf hm, fun i hi hd => ?_⟩
  by_cases hin : i < n
  · rw [Nat.mod_eq_of_lt hin]
    exact hf.keeps.dst hf.only.dstBase (by omega)
  · obtain ⟨j, rfl⟩ : ∃ j, i = n + j := ⟨i - n, by omega⟩
    have := State.dst_dstWrite (s := (s.loadVec (s.dstRead m n)).loadVec (permuted w n (s.dstRead m n))) hm (m + n)
      (permuted w n (s.dstRead m n)) j (by omega) (by simp only [State.loadVec_lane]; omega)
    unfold overlapShuffle
    rw [show m + (n + j) = m + n + j by omega, this]
    simp only [permuted, permRow, List.getElem_map, List.getElem_range, permEntry, Nat.add_mod_left]
    rw [List.getD_eq_getElem _ _ (by simpa using Nat.mod_lt j hn), State.getElem_dstRead]

/-- `COPYOVERLAP_W` lays the pattern over W bytes, in both realisations (R124, R129). -/
theorem copyOverlap_laid {s : State} (hm : s.mem.wf) {w : Nat} (hw : w = 8 ∨ w = 16 ∨ w = 32) (m n : Nat) (hn : 1 ≤ n) :
    Laid s (copyOverlap w (m + n) m n s) m n w := by
  unfold copyOverlap
  cases s.params.ocpuImpl with
  | shuffle => exact (overlapShuffle_laid hm w m n hn).congr _ rfl rfl
  | scalar => exact (overlapScalar_laid hm hw m n hn).congr _ rfl rfl

/-- A plain stride from the laid pattern extends it by W bytes (R121, R131). -/
theorem Laid.stride_stage {s t : State} {m n c w a : Nat} (h : Laid s t m n c) (ha : a + w ≤ n + c) (hp : a % n = c % n) :
    Laid s (strideOut w (m + n + c) (m + a) t) m n (c + w) :=
  h.extend (strideOut_copyFrame w _ _ t) (a := a) (fun j hj hd =>
    strideOut_dst h.wf w _ _ j hj (by rw [h.size]; omega)) ha hp

/-- Plain strides one after the other keep extending it (R122, R131). -/
theorem Laid.strides_stage {s t : State} {m n c w a : Nat} (k : Nat) (h : Laid s t m n c) (ha : a + w ≤ n + c)
    (hp : a % n = c % n) : Laid s (stridesOut w (m + n + c) (m + a) k t) m n (c + k * w) := by
  induction k generalizing t c a with
  | zero =>
    rw [Nat.zero_mul]
    exact h
  | succ k ih =>
    have := ih (h.stride_stage ha hp) (a := a + w) (by omega) (by rw [Nat.add_mod, hp, ← Nat.add_mod])
    rw [stridesOut, show (k + 1) * w = w + k * w by rw [Nat.add_mul, Nat.one_mul, Nat.add_comm], ← Nat.add_assoc]
    rwa [← Nat.add_assoc, ← Nat.add_assoc] at this

end Sys2Proof.Machine
end

