-- ==== Sys2Proof/Laws/Decoder.lean ====
section
/-! SUPPORT. What each step of the decoder can do: one lemma per step, and the frame all steps share. -/

namespace Sys2Proof.Machine

/-! ### The frame of a step -/

/-- What every step of a decode promises: nothing but memory and the acting lane changes; of the lane, neither the command
registers nor `RESULT` nor `VSEL`; neither cursor moves back; of memory, nothing outside `DST[OP .. D)`; and the canonical
form is kept. -/
structure StepFrame (s t : State) : Prop where
  around : SameAround s t
  command : SameCommand s.lane t.lane
  ip_le : s.lane.ip ≤ t.lane.ip
  op_le : s.lane.op ≤ t.lane.op
  keeps : KeepsOutside s t s.lane.op s.lane.dstSize
  wf : s.mem.wf → t.mem.wf

theorem StepFrame.refl (s : State) : StepFrame s s :=
  ⟨rfl, ⟨rfl, rfl, rfl, rfl, rfl, rfl, rfl, rfl⟩, Nat.le_refl _, Nat.le_refl _, fun _ _ => rfl, id⟩

theorem SameCommand.trans {l l' l'' : Lane} (h : SameCommand l l') (h' : SameCommand l' l'') : SameCommand l l'' := by
  unfold SameCommand at *
  obtain ⟨a1, a2, a3, a4, a5, a6, a7, a8⟩ := h
  obtain ⟨b1, b2, b3, b4, b5, b6, b7, b8⟩ := h'
  exact ⟨b1.trans a1, b2.trans a2, b3.trans a3, b4.trans a4, b5.trans a5, b6.trans a6, b7.trans a7, b8.trans a8⟩

theorem StepFrame.trans {s t u : State} (h : StepFrame s t) (h' : StepFrame t u) : StepFrame s u := by
  obtain ⟨hsb, hss, hdb, hds, hctx, hres, hvs, ht0⟩ := h.command
  refine ⟨?_, h.command.trans h'.command, h.ip_le.trans h'.ip_le, h.op_le.trans h'.op_le, fun x hx => ?_,
    fun hm => h'.wf (h.wf hm)⟩
  · have h1 := h.around
    have h2 := h'.around
    unfold SameAround at *
    rw [h2, h1]
    rfl
  · have hop := h.op_le
    rw [h'.keeps x (by rw [hdb, hds]; omega), h.keeps x hx]

/-- A step that changes registers of the lane only. -/
theorem StepFrame.ofLane (s : State) (l : Lane) (hc : SameCommand s.lane l) (hi : s.lane.ip ≤ l.ip) (ho : s.lane.op ≤ l.op) :
    StepFrame s (s.withLane l) := ⟨rfl, hc, hi, ho, fun _ _ => rfl, id⟩

/-- A copy that stores at or above `OP`. -/
theorem StepFrame.ofCopy {s t : State} {b e : Nat} (h : CopyFrame s t b e) (hb : s.lane.op ≤ b) : StepFrame s t := by
  have hl := h.only.lane
  refine ⟨?_, ?_, ?_, ?_, fun x hx => h.keeps x (by omega), h.wf⟩
  · have := h.only
    unfold CopiedVec at this
    unfold SameAround
    rw [this]
    rfl
  · unfold SameCommand
    rw [hl]
    exact ⟨rfl, rfl, rfl, rfl, rfl, rfl, rfl, rfl⟩
  · rw [hl]
  · rw [hl]

theorem raiseFail_frame (c : Cause) (s : State) : StepFrame s (raiseFail c s) :=
  StepFrame.ofLane s _ ⟨rfl, rfl, rfl, rfl, rfl, rfl, rfl, rfl⟩ (Nat.le_refl _) (Nat.le_refl _)

/-- Frames compose along `andThen`. -/
theorem Flow.andThen_frame {s : State} {fl : Flow} {f : State → Flow} (h : StepFrame s fl.state)
    (hf : ∀ t, fl = .goesOn t → StepFrame t (f t).state) : StepFrame s (fl.andThen f).state := by
  cases fl with
  | ended t => exact h
  | goesOn t => exact h.trans (hf t rfl)

/-! ### ReadToken and EXTEND -/

/-- ReadToken either raises F_TOKEN_EOS or takes the token (R152). -/
theorem readToken_cases (tok : Byte) (s : State) :
    (s.lane.srcSize ≤ s.lane.ip ∧ readToken tok s = .ended (raiseFail .tokenEos s))
      ∨ (s.lane.ip < s.lane.srcSize ∧ readToken tok s = .goesOn (s.withLane { s.lane with
          tok := tok, ip := s.lane.ip + 1, len := literalCode tok, state := .extendLiteralLength, inExt := false })) := by
  unfold readToken
  by_cases h : s.lane.srcSize ≤ s.lane.ip
  · exact .inl ⟨h, if_pos h⟩
  · exact .inr ⟨by omega, if_neg h⟩

theorem readToken_frame (tok : Byte) (s : State) : StepFrame s (readToken tok s).state := by
  rcases readToken_cases tok s with ⟨-, h⟩ | ⟨-, h⟩
  · rw [h]; exact raiseFail_frame _ _
  · rw [h]; exact StepFrame.ofLane s _ ⟨rfl, rfl, rfl, rfl, rfl, rfl, rfl, rfl⟩ (Nat.le_succ _) (Nat.le_refl _)

@[simp] theorem State.length_block (s : State) : s.block.length = s.lane.srcSize := by simp [State.block]

/-- A byte of the block, read as the machine reads it. -/
theorem State.getD_block (s : State) {i : Nat} (h : i < s.lane.srcSize) : s.block.getD i 0#8 = s.src i := by
  rw [List.getD_eq_getElem _ _ (by simpa using h)]
  simp [State.block]

/-- EXTEND does what the reference decoder's extension run does (R153, R167): it goes on with the run's length and the
cursor after it, or it raises the cause with the cursor where the block ended. -/
theorem extendLoop_cases (cause : Cause) (fuel : Nat) (s : State) :
    (∃ len ip, refExtend s.block fuel s.lane.ip s.lane.len = .ok (len, ip) ∧ s.lane.ip < ip ∧ ip ≤ s.lane.srcSize
        ∧ s.lane.len ≤ len ∧ len ≤ s.lane.len + 255 * (ip - s.lane.ip)
        ∧ extendLoop cause fuel s = .goesOn (s.withLane { s.lane with ip := ip, len := len }))
      ∨ (∃ len ip, refExtend s.block fuel s.lane.ip s.lane.len = .error ip ∧ s.lane.ip ≤ ip
        ∧ ip ≤ max s.lane.ip s.lane.srcSize ∧ s.lane.len ≤ len ∧ len ≤ s.lane.len + 255 * (ip - s.lane.ip)
        ∧ extendLoop cause fuel s = .ended (raiseFail cause (s.withLane { s.lane with ip := ip, len := len }))) := by
  induction fuel generalizing s with
  | zero => exact .inr ⟨s.lane.len, s.lane.ip, rfl, Nat.le_refl _, Nat.le_max_left _ _, Nat.le_refl _, by omega, rfl⟩
  | succ fuel ih =>
    rw [refExtend, extendLoop]
    simp only [State.length_block]
    by_cases h : s.lane.srcSize ≤ s.lane.ip
    · rw [if_pos h, if_pos h]
      exact .inr ⟨s.lane.len, s.lane.ip, rfl, Nat.le_refl _, Nat.le_max_left _ _, Nat.le_refl _, by omega, rfl⟩
    · rw [if_neg h, if_neg h, s.getD_block (by omega)]
      have hb255 : (s.src s.lane.ip).toNat ≤ 255 := by have := (s.src s.lane.ip).isLt; omega
      by_cases hb : s.src s.lane.ip = 255#8
      · simp only [if_pos hb]
        have hlane : (extendByte (s.src s.lane.ip) s).lane =
          { s.lane with ip := s.lane.ip + 1, len := s.lane.len + (s.src s.lane.ip).toNat } := rfl
        have hblk : (extendByte (s.src s.lane.ip) s).block = s.block := rfl
        rcases ih (extendByte (s.src s.lane.ip) s) with ⟨len, ip, hr, h1, h2, h3, h4, he⟩ | ⟨len, ip, hr, h1, h2, h3, h4, he⟩
        · rw [hblk, hlane] at hr
          rw [hlane] at h1 h2 h3 h4
          exact .inl ⟨len, ip, hr, by simp only at h1; omega, h2, by simp only at h3; omega, by simp only at h4 h1; omega, he⟩
        · rw [hblk, hlane] at hr
          rw [hlane] at h1 h2 h3 h4
          exact .inr ⟨len, ip, hr, by simp only at h1; omega, by simp only at h2; omega, by simp only at h3; omega,
            by simp only at h4 h1; omega, he⟩
      · simp only [if_neg hb]
        exact .inl ⟨_, _, rfl, by omega, by omega, by omega, by omega, rfl⟩

theorem extend_frame (cause : Cause) (s : State) : StepFrame s (extend cause s).state := by
  unfold extend
  rcases extendLoop_cases cause (s.lane.srcSize - s.lane.ip) s with ⟨len, ip, -, h, -, -, -, he⟩ | ⟨len, ip, -, h, -, -, -, he⟩
  · rw [he]; exact StepFrame.ofLane s _ ⟨rfl, rfl, rfl, rfl, rfl, rfl, rfl, rfl⟩ (Nat.le_of_lt h) (Nat.le_refl _)
  · rw [he]
    have h0 : StepFrame s (s.withLane { s.lane with ip := ip, len := len }) :=
      StepFrame.ofLane s _ ⟨rfl, rfl, rfl, rfl, rfl, rfl, rfl, rfl⟩ h (Nat.le_refl _)
    exact h0.trans (raiseFail_frame _ _)

theorem extendLiteralLength_frame (s : State) : StepFrame s (extendLiteralLength s).state := by
  unfold extendLiteralLength
  refine Flow.andThen_frame ?_ fun t _ => StepFrame.ofLane t _ ⟨rfl, rfl, rfl, rfl, rfl, rfl, rfl, rfl⟩ (Nat.le_refl _)
    (Nat.le_refl _)
  split
  · exact extend_frame _ s
  · exact StepFrame.refl s

/-! ### CopyLiterals -/

/-- What `finishLiterals` does after a copy (R157). -/
theorem finishLiterals_cases (s : State) :
    (s.lane.cend = s.lane.dstSize ∧ finishLiterals s = .ended (succeed s))
      ∨ (s.lane.cend ≠ s.lane.dstSize ∧ finishLiterals s = .goesOn (s.withLane { s.lane with
          ip := s.lane.ip + s.lane.len, op := s.lane.cend, state := .readMatch })) := by
  unfold finishLiterals
  by_cases h : s.lane.cend = s.lane.dstSize
  · exact .inl ⟨h, if_pos h⟩
  · exact .inr ⟨h, if_neg h⟩

/-- CopyLiterals raises one of its three causes, in this order, or copies and finishes (R155). -/
theorem copyLiterals_cases (s : State) :
    let s₁ := s.withLane { s.lane with cend := s.lane.op + s.lane.len }
    (s.lane.dstSize < s.lane.op + s.lane.len ∧ copyLiterals s = .ended (raiseFail .litDst s₁))
      ∨ (s.lane.op + s.lane.len ≤ s.lane.dstSize ∧ s.lane.srcSize < s.lane.ip + s.lane.len
          ∧ copyLiterals s = .ended (raiseFail .litSrc s₁))
      ∨ (s.lane.op + s.lane.len ≤ s.lane.dstSize ∧ s.lane.ip + s.lane.len ≤ s.lane.srcSize
          ∧ s.lane.srcSize + s.params.slack < s.lane.ip + ceilTo s.W s.lane.len
          ∧ copyLiterals s = .ended (raiseFail .litSlack s₁))
      ∨ (s.lane.op + s.lane.len ≤ s.lane.dstSize ∧ s.lane.ip + s.lane.len ≤ s.lane.srcSize
          ∧ s.lane.ip + ceilTo s.W s.lane.len ≤ s.lane.srcSize + s.params.slack
          ∧ copyLiterals s = finishLiterals (wildCopyIn s.W s.lane.op s.lane.ip s.lane.len s₁)) := by
  intro s₁
  unfold copyLiterals
  by_cases h1 : s.lane.dstSize < s.lane.op + s.lane.len
  · exact .inl ⟨h1, if_pos h1⟩
  by_cases h2 : s.lane.srcSize < s.lane.ip + s.lane.len
  · exact .inr (.inl ⟨by omega, h2, (if_neg h1).trans (if_pos h2)⟩)
  by_cases h3 : s.lane.srcSize + s.params.slack < s.lane.ip + ceilTo s.W s.lane.len
  · exact .inr (.inr (.inl ⟨by omega, by omega, h3, (if_neg h1).trans ((if_neg h2).trans (if_pos h3))⟩))
  · exact .inr (.inr (.inr ⟨by omega, by omega, by omega, (if_neg h1).trans ((if_neg h2).trans (if_neg h3))⟩))

theorem State.W_pos (s : State) : 0 < s.W := width_pos _

theorem State.W_cases (s : State) : s.W = 8 ∨ s.W = 16 ∨ s.W = 32 := width_cases _

/-- The source's slack test cannot fire after the exact one (R169 (a)). -/
theorem ceilTo_within_slack {s : State} (hs : s.SlackOk) (h : s.lane.ip + s.lane.len ≤ s.lane.srcSize) :
    s.lane.ip + ceilTo s.W s.lane.len ≤ s.lane.srcSize + s.params.slack := by
  have := ceilTo_bounds s.W_pos s.lane.len
  have := s.W_cases
  unfold State.SlackOk Config.minSlack at hs
  omega

theorem finishLiterals_frame (s : State) (h : s.lane.op ≤ s.lane.cend) : StepFrame s (finishLiterals s).state := by
  rcases finishLiterals_cases s with ⟨-, he⟩ | ⟨-, he⟩
  · rw [he]; exact StepFrame.ofLane s _ ⟨rfl, rfl, rfl, rfl, rfl, rfl, rfl, rfl⟩ (Nat.le_refl _) (Nat.le_refl _)
  · rw [he]; exact StepFrame.ofLane s _ ⟨rfl, rfl, rfl, rfl, rfl, rfl, rfl, rfl⟩ (Nat.le_add_right _ _) h

theorem copyLiterals_frame (s : State) : StepFrame s (copyLiterals s).state := by
  have h0 : StepFrame s (s.withLane { s.lane with cend := s.lane.op + s.lane.len }) :=
    StepFrame.ofLane s _ ⟨rfl, rfl, rfl, rfl, rfl, rfl, rfl, rfl⟩ (Nat.le_refl _) (Nat.le_refl _)
  rcases copyLiterals_cases s with ⟨-, h⟩ | ⟨-, -, h⟩ | ⟨-, -, -, h⟩ | ⟨-, -, -, h⟩
  · rw [h]; exact h0.trans (raiseFail_frame _ _)
  · rw [h]; exact h0.trans (raiseFail_frame _ _)
  · rw [h]; exact h0.trans (raiseFail_frame _ _)
  · rw [h]
    have hf := wildCopyIn_copyFrame s.W_pos s.lane.op s.lane.ip s.lane.len
      (s.withLane { s.lane with cend := s.lane.op + s.lane.len })
    refine h0.trans ((StepFrame.ofCopy hf (Nat.le_refl _)).trans (finishLiterals_frame _ ?_))
    rw [hf.only.lane]
    exact Nat.le_add_right _ _

/-- The bytes of the two spans are different bytes of memory (R76). -/
theorem State.SpansOk.apart {s : State} (h : s.SpansOk) {i : Nat} (hi : i < s.lane.srcSize + s.params.slack)
    (hd : 0 < s.lane.dstSize) :
    s.lane.srcBase + i < s.lane.dstBase ∨ s.lane.dstBase + s.lane.dstSize ≤ s.lane.srcBase + i := by
  have hp := h.2.2
  unfold spanProblem at hp
  split_ifs at hp with h1 h2 h3
  simp only [disjoint, Bool.not_eq_true, Bool.not_eq_false', Bool.or_eq_true, decide_eq_true_eq, beq_iff_eq] at h3
  omega

/-- CopyLiterals, when its tests pass: the literals are in place, and nothing else below `OP` or outside DST has
changed (R155). -/
theorem copyLiterals_copies {s : State} (hm : s.mem.wf) (hs : s.SlackOk) (hsp : s.SpansOk)
    (hdst : s.lane.op + s.lane.len ≤ s.lane.dstSize) (hsrc : s.lane.ip + s.lane.len ≤ s.lane.srcSize) :
    ∃ t, copyLiterals s = finishLiterals t
      ∧ CopyFrame (s.withLane { s.lane with cend := s.lane.op + s.lane.len }) t s.lane.op
          (s.lane.op + ceilTo s.W s.lane.len)
      ∧ ∀ j, j < s.lane.len → t.dst (s.lane.op + j) = s.src (s.lane.ip + j) := by
  have hslack := ceilTo_within_slack hs hsrc
  have hle := (ceilTo_bounds s.W_pos s.lane.len).1
  rcases copyLiterals_cases s with ⟨h, -⟩ | ⟨-, h, -⟩ | ⟨-, -, h, -⟩ | ⟨-, -, -, h⟩
  · omega
  · omega
  · omega
  · refine ⟨_, h, wildCopyIn_copyFrame s.W_pos s.lane.op s.lane.ip s.lane.len _, fun j hj => ?_⟩
    exact wildCopyIn_dst (s := s.withLane { s.lane with cend := s.lane.op + s.lane.len }) hm s.W_pos _ _ _
      (fun i hi => hsp.apart (i := s.lane.ip + i) (by omega) (by omega)) j (by omega) (by simp only [State.withLane_lane]; omega)

/-! ### ReadMatch and ExtendMatchLength -/

/-- What taking the offset does (R158, R159): in this order F_OFFSET_ZERO, F_OFFSET_RANGE, or `MP` is set. -/
theorem takeOffset_cases (off : Half) (s : State) :
    let s₁ := s.withLane { s.lane with off := off, ip := s.lane.ip + 2 }
    (off = 0#16 ∧ takeOffset off s = .ended (raiseFail .offsetZero s₁))
      ∨ (off ≠ 0#16 ∧ s.lane.op < off.toNat ∧ takeOffset off s = .ended (raiseFail .offsetRange s₁))
      ∨ (off ≠ 0#16 ∧ off.toNat ≤ s.lane.op ∧ takeOffset off s = .goesOn (s.withLane { s.lane with
          off := off, ip := s.lane.ip + 2, mp := s.lane.op - off.toNat, state := .extendMatchLength })) := by
  intro s₁
  unfold takeOffset
  by_cases h1 : off = 0#16
  · exact .inl ⟨h1, if_pos h1⟩
  by_cases h2 : s.lane.op < off.toNat
  · exact .inr (.inl ⟨h1, h2, (if_neg h1).trans (if_pos h2)⟩)
  · exact .inr (.inr ⟨h1, by omega, (if_neg h1).trans (if_neg h2)⟩)

/-- ReadMatch raises F_OFFSET_EOS or takes the offset (R158). -/
theorem readOffset_cases (off : Half) (s : State) :
    (s.lane.srcSize - s.lane.ip < 2 ∧ readOffset off s = .ended (raiseFail .offsetEos s))
      ∨ (2 ≤ s.lane.srcSize - s.lane.ip ∧ readOffset off s = takeOffset off s) := by
  unfold readOffset
  by_cases h : s.lane.srcSize - s.lane.ip < 2
  · exact .inl ⟨h, if_pos h⟩
  · exact .inr ⟨by omega, if_neg h⟩

theorem takeOffset_frame (off : Half) (s : State) : StepFrame s (takeOffset off s).state := by
  have h0 : StepFrame s (s.withLane { s.lane with off := off, ip := s.lane.ip + 2 }) :=
    StepFrame.ofLane s _ ⟨rfl, rfl, rfl, rfl, rfl, rfl, rfl, rfl⟩ (Nat.le_add_right _ _) (Nat.le_refl _)
  rcases takeOffset_cases off s with ⟨-, h⟩ | ⟨-, -, h⟩ | ⟨-, -, h⟩
  · rw [h]; exact h0.trans (raiseFail_frame _ _)
  · rw [h]; exact h0.trans (raiseFail_frame _ _)
  · rw [h]; exact StepFrame.ofLane s _ ⟨rfl, rfl, rfl, rfl, rfl, rfl, rfl, rfl⟩ (Nat.le_add_right _ _) (Nat.le_refl _)

theorem readOffset_frame (off : Half) (s : State) : StepFrame s (readOffset off s).state := by
  rcases readOffset_cases off s with ⟨-, h⟩ | ⟨-, h⟩
  · rw [h]; exact raiseFail_frame _ _
  · rw [h]; exact takeOffset_frame off s

theorem addMinMatch_frame (s : State) : StepFrame s (addMinMatch s) :=
  StepFrame.ofLane s _ ⟨rfl, rfl, rfl, rfl, rfl, rfl, rfl, rfl⟩ (Nat.le_refl _) (Nat.le_refl _)

theorem loadMatchCode_frame (s : State) : StepFrame s (loadMatchCode s) :=
  StepFrame.ofLane s _ ⟨rfl, rfl, rfl, rfl, rfl, rfl, rfl, rfl⟩ (Nat.le_refl _) (Nat.le_refl _)

theorem extendMatchLength_frame (s : State) : StepFrame s (extendMatchLength s).state := by
  unfold extendMatchLength
  refine Flow.andThen_frame ?_ fun t _ => addMinMatch_frame t
  split
  · exact (loadMatchCode_frame s).trans (extend_frame _ _)
  · exact loadMatchCode_frame s

/-! ### CopyMatch -/

/-- What the parts of CopyMatch promise, seen from its start `s`: only memory and the lane's `OP`, `MP`, `CEND`, `VEC` and
`STATE` change, and nothing is stored outside the DST indices `[OP, e)`. -/
structure MatchFrame (s u : State) (e : Nat) : Prop where
  around : SameAround s u
  lane : u.lane = { s.lane with
    op := u.lane.op, mp := u.lane.mp, cend := u.lane.cend, vec := u.lane.vec, state := u.lane.state }
  keeps : KeepsOutside s u s.lane.op e
  wf : s.mem.wf → u.mem.wf

theorem MatchFrame.refl (s : State) (e : Nat) : MatchFrame s s e := ⟨rfl, rfl, fun _ _ => rfl, id⟩

/-- A copy at or above the original `OP` follows. -/
theorem MatchFrame.copy {s u v : State} {b e e' : Nat} (h : MatchFrame s u e) (hc : CopyFrame u v b e')
    (hb : s.lane.op ≤ b) (he : e ≤ e') : MatchFrame s v e' := by
  have h1 := h.around
  have h2 := hc.only
  have hl := hc.only.lane
  have hul := h.lane
  refine ⟨?_, ?_, ?_, fun hm => hc.wf (h.wf hm)⟩
  · unfold SameAround CopiedVec at *
    rw [h2, h1]
    rfl
  · rw [hl, hul]
  · exact h.keeps.trans (by rw [hul]) (by rw [hul]) hc.keeps hb he

/-- A change of the lane's `OP`, `MP`, `CEND` and `STATE` follows. -/
theorem MatchFrame.regs {s u : State} {e : Nat} (h : MatchFrame s u e) (op mp cend : Nat) (st : LaneState) :
    MatchFrame s (u.withLane { u.lane with op := op, mp := mp, cend := cend, state := st }) e := by
  have h1 := h.around
  have hul := h.lane
  refine ⟨?_, ?_, h.keeps, h.wf⟩
  · unfold SameAround at *
    rw [h1]
    rfl
  · simp only [State.withLane_lane]
    rw [hul]

theorem MatchFrame.W {s u : State} {e : Nat} (h : MatchFrame s u e) : u.W = s.W := by
  unfold State.W
  rw [h.lane]

theorem MatchFrame.dstSize {s u : State} {e : Nat} (h : MatchFrame s u e) : u.lane.dstSize = s.lane.dstSize := by
  rw [h.lane]

theorem MatchFrame.len {s u : State} {e : Nat} (h : MatchFrame s u e) : u.lane.len = s.lane.len := by
  rw [h.lane]

theorem MatchFrame.off {s u : State} {e : Nat} (h : MatchFrame s u e) : u.lane.off = s.lane.off := by
  rw [h.lane]

/-- How far the first stride moves `MP`: by `ADV_W[OFF]` for an overlap copy, by W for a plain one (R161). -/
def firstAdvance (w off : Nat) : Nat := if off < w then advance w off else w

/-- The first stride of a match, from a state `u` still at the original `OP` (R161). -/
theorem firstMatchStride_spec {s u : State} {e : Nat} (h : MatchFrame s u e) (hop : u.lane.op = s.lane.op)
    (he : e ≤ s.lane.op + s.W) :
    MatchFrame s (firstMatchStride u) (s.lane.op + s.W) ∧ (firstMatchStride u).lane.op = s.lane.op
      ∧ (firstMatchStride u).lane.mp = u.lane.mp + firstAdvance s.W s.lane.off.toNat
      ∧ (firstMatchStride u).lane.cend = u.lane.cend ∧ (firstMatchStride u).lane.state = u.lane.state := by
  have key : ∀ (v : State) (m : Nat), CopyFrame u v u.lane.op (u.lane.op + u.W) →
      MatchFrame s (v.setMp m) (s.lane.op + s.W) ∧ (v.setMp m).lane.op = s.lane.op ∧ (v.setMp m).lane.mp = m
        ∧ (v.setMp m).lane.cend = u.lane.cend ∧ (v.setMp m).lane.state = u.lane.state := by
    intro v m hv
    have hvl := hv.only.lane
    have hm := h.copy (hv.mono (Nat.le_refl _) (e' := s.lane.op + s.W) (by rw [hop, h.W])) (by omega) he
    refine ⟨hm.regs v.lane.op m v.lane.cend v.lane.state, ?_, rfl, ?_, ?_⟩
    · rw [State.setMp_lane, hvl]; exact hop
    · rw [State.setMp_lane, hvl]
    · rw [State.setMp_lane, hvl]
  unfold firstMatchStride firstAdvance
  rw [h.off, h.W]
  split
  · obtain ⟨v, hv, hf⟩ := copyOverlap_frame u.W_cases u.lane.op u.lane.mp s.lane.off.toNat u
    rw [h.W] at hv hf
    rw [hv]
    exact key v _ (by rwa [h.W])
  · exact key _ _ (by rw [h.W]; exact strideOut_copyFrame _ _ _ _)

/-- The first two strides of a match (R161). -/
theorem matchStrides_spec {s u : State} {e : Nat} (h : MatchFrame s u e) (hop : u.lane.op = s.lane.op)
    (he : e ≤ s.lane.op + s.W) :
    MatchFrame s (matchStrides u) (s.lane.op + 2 * s.W) ∧ (matchStrides u).lane.op = s.lane.op + s.W
      ∧ (matchStrides u).lane.mp = u.lane.mp + firstAdvance s.W s.lane.off.toNat + s.W
      ∧ (matchStrides u).lane.cend = u.lane.cend := by
  obtain ⟨h1, hop1, hmp1, hce1, hst1⟩ := firstMatchStride_spec h hop he
  unfold matchStrides
  generalize firstMatchStride u = v at *
  have h2 := h1.regs (v.lane.op + v.W) v.lane.mp v.lane.cend v.lane.state
  have hW : v.W = s.W := h1.W
  have hc := strideOut_copyFrame s.W (v.lane.op + v.W) v.lane.mp
    (v.withLane { v.lane with op := v.lane.op + v.W })
  have hcl := hc.only.lane
  have h3 := h2.copy (hc.mono (Nat.le_refl _) (e' := s.lane.op + 2 * s.W) (by omega)) (by omega) (by omega)
  have h4 := h3.regs (v.lane.op + v.W) (v.lane.mp + s.W) v.lane.cend v.lane.state
  have heq : copyFromOutput (v.withLane { v.lane with op := v.lane.op + v.W }).W
        (v.withLane { v.lane with op := v.lane.op + v.W }).lane.op
        (v.withLane { v.lane with op := v.lane.op + v.W }).lane.mp
        (v.withLane { v.lane with op := v.lane.op + v.W }) =
      (strideOut s.W (v.lane.op + v.W) v.lane.mp (v.withLane { v.lane with op := v.lane.op + v.W })).withLane
        { (strideOut s.W (v.lane.op + v.W) v.lane.mp (v.withLane { v.lane with op := v.lane.op + v.W })).lane with
          op := v.lane.op + v.W, mp := v.lane.mp + s.W, cend := v.lane.cend, state := v.lane.state } := by
    unfold copyFromOutput State.setMp
    rw [show (v.withLane { v.lane with op := v.lane.op + v.W }).W = s.W from hW, State.withLane_lane, hcl]
    rfl
  show MatchFrame s (copyFromOutput _ _ _ _) _ ∧ _
  rw [heq]
  refine ⟨h4, ?_, ?_, hce1⟩
  · rw [State.withLane_lane]; simp only; omega
  · rw [State.withLane_lane]; simp only; omega

/-- The end of a match copy: where its last stride stores up to, before clipping at D (R161). -/
def matchEnd (w op len : Nat) : Nat := op + 2 * w + if 2 * w < len then ceilTo w (len - 2 * w) else 0

/-- CopyMatch raises F_MATCH_DST, or copies and comes to the next sequence; its second test cannot fire (R161,
R169 (b)). -/
theorem copyMatch_cases (s : State) :
    (s.lane.dstSize < s.lane.op + s.lane.len
        ∧ copyMatch s = .ended (raiseFail .matchDst (s.withLane { s.lane with cend := s.lane.op + s.lane.len })))
      ∨ (s.lane.op + s.lane.len ≤ s.lane.dstSize
        ∧ ∃ t, copyMatch s = .goesOn t ∧ MatchFrame s t (matchEnd s.W s.lane.op s.lane.len)
          ∧ t.lane.op = s.lane.op + s.lane.len ∧ t.lane.cend = s.lane.op + s.lane.len ∧ t.lane.state = .readToken
          ∧ t.lane.mp = s.lane.mp + firstAdvance s.W s.lane.off.toNat + s.W) := by
  unfold copyMatch
  by_cases h1 : s.lane.dstSize < s.lane.op + s.lane.len
  · exact .inl ⟨h1, if_pos h1⟩
  refine .inr ⟨by omega, ?_⟩
  have h0 := (MatchFrame.refl s s.lane.op).regs s.lane.op s.lane.mp (s.lane.op + s.lane.len) s.lane.state
  obtain ⟨h2, hop2, hmp2, hce2⟩ := matchStrides_spec h0 rfl (by omega)
  simp only [State.withLane_lane, if_neg h1] at hce2 hmp2 ⊢
  generalize matchStrides (s.withLane { s.lane with cend := s.lane.op + s.lane.len }) = u at *
  rw [h2.W, h2.len, h2.dstSize, hce2, if_neg h1]
  unfold matchEnd
  by_cases h3 : 2 * s.W < s.lane.len
  · rw [if_pos h3, if_pos h3]
    have hsub : s.lane.op + s.lane.len - (u.lane.op + s.W) = s.lane.len - 2 * s.W := by omega
    rw [hsub]
    have hc := wildCopyOut_copyFrame s.W_pos (u.lane.op + s.W) u.lane.mp (s.lane.len - 2 * s.W) u
    have hcl := hc.only.lane
    have h4 := h2.copy (hc.mono (Nat.le_refl _) (e' := s.lane.op + 2 * s.W + ceilTo s.W (s.lane.len - 2 * s.W))
      (by omega)) (by omega) (by omega)
    generalize wildCopyOut s.W (u.lane.op + s.W) u.lane.mp (s.lane.len - 2 * s.W) u = v at *
    refine ⟨_, rfl, h4.regs v.lane.cend v.lane.mp v.lane.cend .readToken, ?_, ?_, rfl, ?_⟩
    · show v.lane.cend = _; rw [hcl]; exact hce2
    · show v.lane.cend = _; rw [hcl]; exact hce2
    · show v.lane.mp = _; rw [hcl]; exact hmp2
  · rw [if_neg h3, if_neg h3]
    exact ⟨_, rfl, h2.regs u.lane.cend u.lane.mp u.lane.cend .readToken, hce2, hce2, rfl, hmp2⟩

theorem copyMatch_frame (s : State) : StepFrame s (copyMatch s).state := by
  rcases copyMatch_cases s with ⟨-, h⟩ | ⟨-, t, h, hf, hop, -, -, -⟩
  · rw [h]
    have h0 : StepFrame s (s.withLane { s.lane with cend := s.lane.op + s.lane.len }) :=
      StepFrame.ofLane s _ ⟨rfl, rfl, rfl, rfl, rfl, rfl, rfl, rfl⟩ (Nat.le_refl _) (Nat.le_refl _)
    exact h0.trans (raiseFail_frame _ _)
  · rw [h]
    have hl := hf.lane
    refine ⟨hf.around, ?_, ?_, ?_, fun x hx => hf.keeps x (by omega), hf.wf⟩
    · unfold SameCommand
      rw [Flow.goesOn_state, hl]
      exact ⟨rfl, rfl, rfl, rfl, rfl, rfl, rfl, rfl⟩
    · rw [Flow.goesOn_state, hl]
    · rw [Flow.goesOn_state, hop]; omega

end Sys2Proof.Machine
end

