-- ==== Sys2Proof/Laws/PerInstr.lean ====
section
/-! SUPPORT. One lemma per constructor of `Instr` for the family `RoundTrip`: the decoder gives back what the encoder
wrote, and the encoder writes as many bytes as the slot takes. -/

namespace Sys2Proof.Laws

/-- A well-formed operation that has an encoding is read back from it, whatever follows (R90, R96, R100). -/
def RoundTrip.Statement (i : Instr) : Prop :=
  i.wf = true → ∀ slot, i.slot = some slot →
    (encode i).length = slot.size ∧ ∀ rest, decode slot (encode i ++ rest) = .ok (i, rest)

/-- The high nibble of a token byte (R91). -/
theorem tokLL_tokenByte (ll ml : Nibble) : tokLL (tokenByte ll ml) = ll := by
  unfold tokLL tokenByte
  ext i hi
  rw [BitVec.getElem_extractLsb', BitVec.getLsbD_append]
  simp [BitVec.getLsbD_eq_getElem hi]

/-- The low nibble of a token byte (R91). -/
theorem tokML_tokenByte (ll ml : Nibble) : tokML (tokenByte ll ml) = ml := by
  unfold tokML tokenByte
  ext i hi
  rw [BitVec.getElem_extractLsb', BitVec.getLsbD_append]
  simp [hi]

/-- A token byte with its two nibbles is the byte itself (R91). -/
theorem tokenByte_nibbles (b : Byte) : tokenByte (tokLL b) (tokML b) = b := by
  revert b
  decide

/-- A row with all mask bits hits its own pattern only (R96, R100). -/
theorem rowXLXM_hits (b : Byte) : rowXLXM.hits b = decide (b = 0xFF#8) := by
  revert b
  decide

/-- The token forms by the two nibbles (R96). -/
theorem decodeToken_eq (b : Byte) :
    decodeToken b =
      if tokLL b = 15#4 then (if tokML b = 15#4 then .seqXLXM else .seqXL (tokML b))
      else if tokML b = 15#4 then .seqXM (tokLL b) else .seq (tokLL b) (tokML b) := by
  revert b
  decide

/-- The kinds of extension byte (R100). -/
theorem decodeExt_eq (b : Byte) : decodeExt b = if b = 255#8 then .extCont else .extEnd b := by
  unfold decodeExt
  rw [show rowExtCont.hits b = decide (b = 255#8) from rowXLXM_hits b]
  by_cases h : b = 255#8 <;> simp [h]

/-- The offset's bytes give the offset back (R94). -/
theorem offsetOf_bytes (off : Half) : offsetOf (offsetLow off) (offsetHigh off) = off := by
  unfold offsetOf offsetLow offsetHigh
  ext i hi
  rw [BitVec.getElem_append]
  by_cases h : i < 8
  · simp [h, BitVec.getLsbD_eq_getElem hi]
  · simp [h, show 8 + (i - 8) = i by omega, BitVec.getLsbD_eq_getElem hi]

/-- The lower byte of an offset assembled from two bytes (R94). -/
theorem offsetLow_offsetOf (b0 b1 : Byte) : offsetLow (offsetOf b0 b1) = b0 := by
  unfold offsetOf offsetLow
  ext i hi
  rw [BitVec.getElem_extractLsb', BitVec.getLsbD_append]
  simp [hi]

/-- The higher byte of an offset assembled from two bytes (R94). -/
theorem offsetHigh_offsetOf (b0 b1 : Byte) : offsetHigh (offsetOf b0 b1) = b1 := by
  unfold offsetOf offsetHigh
  ext i hi
  rw [BitVec.getElem_extractLsb', BitVec.getLsbD_append]
  simp [BitVec.getLsbD_eq_getElem hi]

/-- The value of an offset: `OFF = b0 + 256·b1` (R63, R94). -/
theorem offsetOf_toNat (b0 b1 : Byte) : (offsetOf b0 b1).toNat = b0.toNat + 256 * b1.toNat := by
  unfold offsetOf
  rw [BitVec.toNat_append, Nat.shiftLeft_eq, ← Nat.mul_comm, ← Nat.two_pow_add_eq_or_of_lt b0.isLt]
  omega

/-- An operation without an encoding meets `RoundTrip` for want of a slot (R101). -/
theorem RoundTrip.of_slotless {i : Instr} (h : i.slot = none) : RoundTrip.Statement i := by
  intro _ slot hs
  rw [h] at hs
  cases hs

/-- An operation read as a token meets `RoundTrip` if its byte decodes to it. -/
theorem RoundTrip.of_token {i : Instr} {b : Byte} (hs : i.slot = some .token) (he : encode i = [b])
    (hd : i.wf = true → decodeToken b = i) : RoundTrip.Statement i := by
  intro hw slot h
  rw [hs] at h
  cases h
  exact ⟨by rw [he]; rfl, fun rest => by rw [he]; simp [decode, hd hw]⟩

theorem RoundTrip.seq (ll ml : Nibble) : RoundTrip.Statement (.seq ll ml) :=
  RoundTrip.of_token rfl rfl fun hw => by
    simp only [Instr.wf, Bool.and_eq_true, bne_iff_ne] at hw
    rw [decodeToken_eq, tokLL_tokenByte, tokML_tokenByte, if_neg hw.1, if_neg hw.2]

theorem RoundTrip.seqXL (ml : Nibble) : RoundTrip.Statement (.seqXL ml) :=
  RoundTrip.of_token rfl rfl fun hw => by
    simp only [Instr.wf, bne_iff_ne] at hw
    rw [decodeToken_eq, tokLL_tokenByte, tokML_tokenByte, if_pos rfl, if_neg hw]

theorem RoundTrip.seqXM (ll : Nibble) : RoundTrip.Statement (.seqXM ll) :=
  RoundTrip.of_token rfl rfl fun hw => by
    simp only [Instr.wf, bne_iff_ne] at hw
    rw [decodeToken_eq, tokLL_tokenByte, tokML_tokenByte, if_neg hw, if_pos rfl]

theorem RoundTrip.seqXLXM : RoundTrip.Statement .seqXLXM := RoundTrip.of_token rfl rfl fun _ => by decide

theorem RoundTrip.extCont : RoundTrip.Statement .extCont := by
  intro _ slot h
  cases h
  exact ⟨rfl, fun rest => rfl⟩

theorem RoundTrip.extEnd (value : Byte) : RoundTrip.Statement (.extEnd value) := by
  intro hw slot h
  cases h
  simp only [Instr.wf, bne_iff_ne] at hw
  exact ⟨rfl, fun rest => by simp [encode, decode, decodeExt_eq, hw]⟩

theorem RoundTrip.offset (off : Half) : RoundTrip.Statement (.offset off) := by
  intro _ slot h
  cases h
  exact ⟨rfl, fun rest => by simp [encode, decode, offsetOf_bytes]⟩

theorem RoundTrip.copyOverlap8 (t m n : Nat) : RoundTrip.Statement (.copyOverlap8 t m n) := RoundTrip.of_slotless rfl
theorem RoundTrip.copyOverlap16 (t m n : Nat) : RoundTrip.Statement (.copyOverlap16 t m n) := RoundTrip.of_slotless rfl
theorem RoundTrip.copyOverlap32 (t m n : Nat) : RoundTrip.Statement (.copyOverlap32 t m n) := RoundTrip.of_slotless rfl
theorem RoundTrip.copyFromOutput8 (t src : Nat) : RoundTrip.Statement (.copyFromOutput8 t src) := RoundTrip.of_slotless rfl
theorem RoundTrip.copyFromOutput16 (t src : Nat) : RoundTrip.Statement (.copyFromOutput16 t src) := RoundTrip.of_slotless rfl
theorem RoundTrip.copyFromOutput32 (t src : Nat) : RoundTrip.Statement (.copyFromOutput32 t src) := RoundTrip.of_slotless rfl
theorem RoundTrip.wildCopyIn8 (t src size : Nat) : RoundTrip.Statement (.wildCopyIn8 t src size) := RoundTrip.of_slotless rfl
theorem RoundTrip.wildCopyIn16 (t src size : Nat) : RoundTrip.Statement (.wildCopyIn16 t src size) := RoundTrip.of_slotless rfl
theorem RoundTrip.wildCopyIn32 (t src size : Nat) : RoundTrip.Statement (.wildCopyIn32 t src size) := RoundTrip.of_slotless rfl
theorem RoundTrip.wildCopyOut8 (t src size : Nat) : RoundTrip.Statement (.wildCopyOut8 t src size) := RoundTrip.of_slotless rfl
theorem RoundTrip.wildCopyOut16 (t src size : Nat) : RoundTrip.Statement (.wildCopyOut16 t src size) := RoundTrip.of_slotless rfl
theorem RoundTrip.wildCopyOut32 (t src size : Nat) : RoundTrip.Statement (.wildCopyOut32 t src size) := RoundTrip.of_slotless rfl
theorem RoundTrip.select (ctx : Nat) : RoundTrip.Statement (.select ctx) := RoundTrip.of_slotless rfl
theorem RoundTrip.update (ctx : Nat) (v : Variant) (elapsed : Wide) (bytes : Nat) :
    RoundTrip.Statement (.update ctx v elapsed bytes) := RoundTrip.of_slotless rfl
theorem RoundTrip.decompress (cmd : Command) : RoundTrip.Statement (.decompress cmd) := RoundTrip.of_slotless rfl

end Sys2Proof.Laws
end

