-- ==== Sys2Proof/Laws/Selector.lean ====
section
/-! SUPPORT. What the selector's parts compute (R192 to R194): which variant SELECT returns, and what UPDATE folds in. -/

namespace Sys2Proof.Machine

/-- A probe returns the residue of the call (R192). -/
theorem chosenVariant_probe {c : Context} (h : c.calls.toNat % 64 < 3) :
    (chosenVariant c).val = c.calls.toNat % 64 := by
  unfold chosenVariant
  split
  · rfl
  · rename_i h'
    exact absurd h h'

/-- Any other call returns the best variant (R192). -/
theorem chosenVariant_best {c : Context} (h : 3 ≤ c.calls.toNat % 64) : chosenVariant c = bestVariant c := by
  unfold chosenVariant
  split
  · rename_i h'
    exact absurd h (Nat.not_le.mpr h')
  · rfl

/-- The best variant has a maximal estimate, and every smaller index has a smaller one (R192). -/
theorem bestVariant_spec (c : Context) :
    (∀ u : Variant, c.est[u] ≤ c.est[bestVariant c]) ∧ ∀ u : Variant, u < bestVariant c → c.est[u] < c.est[bestVariant c] := by
  have h3 : ∀ u : Variant, u = 0 ∨ u = 1 ∨ u = 2 := by decide
  unfold bestVariant
  split
  · rename_i h
    refine ⟨fun u => ?_, fun u hu => absurd hu (Fin.not_lt_zero u)⟩
    rcases h3 u with rfl | rfl | rfl
    · exact BitVec.le_refl _
    · exact h.1
    · exact h.2
  · rename_i h
    have h01 : ¬ (c.est[1].toNat ≤ c.est[0].toNat ∧ c.est[2].toNat ≤ c.est[0].toNat) := h
    split
    · rename_i h2
      have h21 : c.est[2].toNat ≤ c.est[1].toNat := h2
      refine ⟨fun u => ?_, fun u hu => ?_⟩
      · show c.est[u].toNat ≤ c.est[1].toNat
        rcases h3 u with rfl | rfl | rfl
        · show c.est[0].toNat ≤ _; omega
        · exact Nat.le_refl _
        · exact h21
      · show c.est[u].toNat < c.est[1].toNat
        rcases h3 u with rfl | rfl | rfl
        · show c.est[0].toNat < _; omega
        · exact absurd hu (lt_irrefl _)
        · exact absurd hu (by decide)
    · rename_i h2
      have h21 : ¬ c.est[2].toNat ≤ c.est[1].toNat := h2
      refine ⟨fun u => ?_, fun u hu => ?_⟩
      · show c.est[u].toNat ≤ c.est[2].toNat
        rcases h3 u with rfl | rfl | rfl
        · show c.est[0].toNat ≤ _; omega
        · show c.est[1].toNat ≤ _; omega
        · exact Nat.le_refl _
      · show c.est[u].toNat < c.est[2].toNat
        rcases h3 u with rfl | rfl | rfl
        · show c.est[0].toNat < _; omega
        · show c.est[1].toNat < _; omega
        · exact absurd hu (lt_irrefl _)

/-- The variant SELECT returns is the one R192 names. -/
theorem selectedVariant_chosen (c : Context) : SelectedVariant c (chosenVariant c) := by
  refine ⟨chosenVariant_probe, fun h => ?_⟩
  rw [chosenVariant_best h]
  exact bestVariant_spec c

/-- A sample fits its register (R194). -/
theorem sample_lt (elapsed bytes : Nat) : sample elapsed bytes < 2 ^ 64 := by
  unfold sample
  omega

/-- The folded estimate lies between the old one and the sample (R193). -/
theorem blend_between (est s : Nat) : min est s ≤ blend est s ∧ blend est s ≤ max est s := by
  unfold blend Config.ewmaShift
  omega

/-- What UPDATE leaves in the context (R193, R194). -/
theorem sampleFolded_foldSample (v : Variant) (elapsed bytes : Nat) (c : Context) (hl : c.lock = false) :
    SampleFolded v elapsed bytes c (locked (foldSample v elapsed bytes) c) := by
  have hs := sample_lt elapsed bytes
  have hb : blend c.est[v].toNat (sample elapsed bytes) < 2 ^ 64 := by
    have := c.est[v].isLt
    have := (blend_between c.est[v].toNat (sample elapsed bytes)).2
    omega
  refine ⟨fun h => ?_, fun h => ?_, ?_, fun u hu => ⟨?_, ?_⟩, rfl, hl.symm⟩ <;>
    simp only [locked, foldSample, Fin.getElem_fin] at *
  · rw [Vector.getElem_set_self, if_pos h, BitVec.toNat_ofNat, Nat.mod_eq_of_lt hs]
    rfl
  · rw [Vector.getElem_set_self, if_neg h, BitVec.toNat_ofNat, Nat.mod_eq_of_lt hb]
    rfl
  · rw [Vector.getElem_set_self]
    unfold saturate
    rw [BitVec.toNat_ofNat]
    omega
  · rw [Vector.getElem_set_ne]
    exact fun h => hu (Fin.ext h.symm)
  · rw [Vector.getElem_set_ne]
    exact fun h => hu (Fin.ext h.symm)

/-- A SELECT transaction counts one call (R192). -/
@[simp] theorem locked_countCall_calls (c : Context) : (locked countCall c).calls = c.calls + 1#32 := rfl

/-- An UPDATE transaction leaves the call counter alone (R193). -/
@[simp] theorem locked_foldSample_calls (v : Variant) (elapsed bytes : Nat) (c : Context) :
    (locked (foldSample v elapsed bytes) c).calls = c.calls := rfl

/-- The residue of the call counter along a history: one further with each SELECT, whatever UPDATEs come between (R192). -/
theorem calls_history {contextAt : Nat → Context} (h : SelectHistory contextAt) (n k : Nat) :
    (contextAt (n + k)).calls.toNat % 64 = ((contextAt n).calls.toNat + k) % 64 := by
  induction k with
  | zero => rfl
  | succ k ih =>
    rw [← Nat.add_assoc, h (n + k), BitVec.toNat_add]
    simp only [BitVec.toNat_ofNat]
    omega

/-- Where one estimate is strictly the largest, a call that is no probe returns its variant (R192). -/
theorem chosenVariant_strict {c : Context} {best : Variant} (hb : ∀ u : Variant, u ≠ best → c.est[u] < c.est[best])
    (h : 3 ≤ c.calls.toNat % 64) : chosenVariant c = best := by
  rw [chosenVariant_best h]
  by_contra hne
  exact absurd (hb _ hne) (BitVec.not_lt.mpr ((bestVariant_spec c).1 best))

end Sys2Proof.Machine
end

