-- ==== Sys2Proof/Laws/Step.lean ====
section
/-! SUPPORT. What a step can do, said once: the frame of every stream element and micro-operation, the cases of a lane's
step, of a turn, and of a step of the core. -/

namespace Sys2Proof.Machine

/-! ### Stream elements -/

/-- A sequence form that answers a next state stood at a token, on spans in order, and ran. -/
theorem atToken_next {s t : State} {k : State → Flow} (h : atToken s k = .next t) :
    s.lane.state = .readToken ∧ s.SpansOk ∧ t = (k s).state := by
  unfold atToken at h
  split at h
  · rename_i hs
    obtain ⟨h1, h2, h3, h4⟩ := onSpans_next h
    exact ⟨hs, ⟨h1, h2, h3⟩, (Host.Outcome.next.inj h4).symm⟩
  · simp at h

/-- At a token, on spans in order, a sequence form runs. -/
theorem atToken_of {s : State} (k : State → Flow) (hs : s.lane.state = .readToken) (hsp : s.SpansOk) :
    atToken s k = .next (k s).state := by
  unfold atToken
  rw [if_pos hs, onSpans_of_ok _ hsp.1 hsp.2.1 hsp.2.2]

theorem execSeq_frame {ll ml : Nibble} {s t : State} (h : execSeq ll ml s = .next t) : StepFrame s t := by
  obtain ⟨-, -, rfl⟩ := atToken_next h
  exact Flow.andThen_frame
    (Flow.andThen_frame
      (Flow.andThen_frame (Flow.andThen_frame (readToken_frame _ _) fun u _ => copyLiterals_frame u)
        fun u _ => readOffset_frame _ u)
      fun u _ => (loadMatchCode_frame u).trans (addMinMatch_frame _))
    fun u _ => copyMatch_frame u

theorem execSeqXL_frame {ml : Nibble} {s t : State} (h : execSeqXL ml s = .next t) : StepFrame s t := by
  obtain ⟨-, -, rfl⟩ := atToken_next h
  exact Flow.andThen_frame
    (Flow.andThen_frame
      (Flow.andThen_frame
        (Flow.andThen_frame (Flow.andThen_frame (readToken_frame _ _) fun u _ => extend_frame _ u)
          fun u _ => copyLiterals_frame u)
        fun u _ => readOffset_frame _ u)
      fun u _ => (loadMatchCode_frame u).trans (addMinMatch_frame _))
    fun u _ => copyMatch_frame u

/-- The match-length part of the forms with a match-length extension (R165). -/
theorem extendFifteen_frame (u : State) :
    StepFrame u ((extend .matExtEos (u.withLane { u.lane with len := 15 })).andThen fun s => .goesOn (addMinMatch s)).state :=
  have h0 : StepFrame u (u.withLane { u.lane with len := 15 }) :=
    StepFrame.ofLane u _ ⟨rfl, rfl, rfl, rfl, rfl, rfl, rfl, rfl⟩ (Nat.le_refl _) (Nat.le_refl _)
  Flow.andThen_frame (h0.trans (extend_frame _ _)) fun v _ => addMinMatch_frame v

theorem execSeqXM_frame {ll : Nibble} {s t : State} (h : execSeqXM ll s = .next t) : StepFrame s t := by
  obtain ⟨-, -, rfl⟩ := atToken_next h
  exact Flow.andThen_frame
    (Flow.andThen_frame
      (Flow.andThen_frame (Flow.andThen_frame (readToken_frame _ _) fun u _ => copyLiterals_frame u)
        fun u _ => readOffset_frame _ u)
      fun u _ => extendFifteen_frame u)
    fun u _ => copyMatch_frame u

theorem execSeqXLXM_frame {s t : State} (h : execSeqXLXM s = .next t) : StepFrame s t := by
  obtain ⟨-, -, rfl⟩ := atToken_next h
  exact Flow.andThen_frame
    (Flow.andThen_frame
      (Flow.andThen_frame
        (Flow.andThen_frame (Flow.andThen_frame (readToken_frame _ _) fun u _ => extend_frame _ u)
          fun u _ => copyLiterals_frame u)
        fun u _ => readOffset_frame _ u)
      fun u _ => extendFifteen_frame u)
    fun u _ => copyMatch_frame u

theorem extendByte_frame (b : Byte) (s : State) : StepFrame s (extendByte b s) :=
  StepFrame.ofLane s _ ⟨rfl, rfl, rfl, rfl, rfl, rfl, rfl, rfl⟩ (Nat.le_succ _) (Nat.le_refl _)

theorem leaveExtension_frame (s : State) : StepFrame s (leaveExtension s) := by
  have h0 : StepFrame s (s.withLane { s.lane with inExt := false }) :=
    StepFrame.ofLane s _ ⟨rfl, rfl, rfl, rfl, rfl, rfl, rfl, rfl⟩ (Nat.le_refl _) (Nat.le_refl _)
  unfold leaveExtension
  simp only
  split
  · exact h0.trans (addMinMatch_frame _)
  · exact h0.trans (StepFrame.ofLane _ _ ⟨rfl, rfl, rfl, rfl, rfl, rfl, rfl, rfl⟩ (Nat.le_refl _) (Nat.le_refl _))

/-- What an extension byte can do (R153): it stood inside an extension, and raised the cause of its step or was added. -/
theorem atExtension_next {s t : State} {k : State → State} (h : atExtension s k = .next t) :
    s.extending = true ∧ ((s.lane.srcSize ≤ s.lane.ip ∧ t = raiseFail (eosCause s.lane.state) s)
      ∨ (s.lane.ip < s.lane.srcSize ∧ t = k s)) := by
  unfold atExtension at h
  split at h
  · rename_i he
    refine ⟨he, ?_⟩
    split at h
    · rename_i hs
      exact .inl ⟨hs, (Host.Outcome.next.inj h).symm⟩
    · rename_i hs
      exact .inr ⟨by omega, (Host.Outcome.next.inj h).symm⟩
  · simp at h

theorem execExtCont_frame {s t : State} (h : execExtCont s = .next t) : StepFrame s t := by
  obtain ⟨-, ⟨-, rfl⟩ | ⟨-, rfl⟩⟩ := atExtension_next h
  · exact raiseFail_frame _ _
  · exact extendByte_frame _ _

theorem execExtEnd_frame {value : Byte} {s t : State} (h : execExtEnd value s = .next t) : StepFrame s t := by
  obtain ⟨-, ⟨-, rfl⟩ | ⟨-, rfl⟩⟩ := atExtension_next h
  · exact raiseFail_frame _ _
  · exact (extendByte_frame _ _).trans (leaveExtension_frame _)

/-- What the offset field can do: it stood in ReadMatch and was read. -/
theorem execOffset_next {off : Half} {s t : State} (h : execOffset off s = .next t) :
    s.lane.state = .readMatch ∧ t = (readOffset off s).state := by
  unfold execOffset at h
  split at h
  · rename_i hs
    exact ⟨hs, (Host.Outcome.next.inj h).symm⟩
  · simp at h

theorem execOffset_frame {off : Half} {s t : State} (h : execOffset off s = .next t) : StepFrame s t := by
  obtain ⟨-, rfl⟩ := execOffset_next h
  exact readOffset_frame _ _

/-- Every stream element keeps to the frame of a decode step. -/
theorem exec_frame {i : Instr} {slot : Slot} (hi : i.slot = some slot) {s t : State} (h : exec i s = .next t) :
    StepFrame s t := by
  cases i with
  | seq ll ml => exact execSeq_frame h
  | seqXL ml => exact execSeqXL_frame h
  | seqXM ll => exact execSeqXM_frame h
  | seqXLXM => exact execSeqXLXM_frame h
  | extCont => exact execExtCont_frame h
  | extEnd value => exact execExtEnd_frame h
  | offset off => exact execOffset_frame h
  | copyOverlap8 | copyOverlap16 | copyOverlap32 | copyFromOutput8 | copyFromOutput16 | copyFromOutput32
  | wildCopyIn8 | wildCopyIn16 | wildCopyIn32 | wildCopyOut8 | wildCopyOut16 | wildCopyOut32
  | select | update | decompress => cases hi

/-! ### Micro-operations -/

/-- A micro-operation that answers a next state met its preconditions, on spans in order, and ran. -/
theorem microOp_next {ok : Bool} {s t : State} {k : State → State} (h : microOp ok s k = .next t) :
    ok = true ∧ s.SpansOk ∧ t = k s := by
  unfold microOp at h
  split at h
  · rename_i hok
    obtain ⟨h1, h2, h3, h4⟩ := onSpans_next h
    exact ⟨hok, ⟨h1, h2, h3⟩, (Host.Outcome.next.inj h4).symm⟩
  · simp at h

/-- Within its preconditions, on spans in order, a micro-operation runs. -/
theorem microOp_of {ok : Bool} {s : State} (k : State → State) (hok : ok = true) (hsp : s.SpansOk) :
    microOp ok s k = .next (k s) := by
  unfold microOp
  rw [if_pos hok, onSpans_of_ok _ hsp.1 hsp.2.1 hsp.2.2]

/-- What every micro-operation promises: only memory, `MP` and `VEC` change, and nothing outside DST is stored. -/
theorem microOp_frame {ok : Bool} {s t u : State} {m b e : Nat} {k : State → State} (h : microOp ok s k = .next t)
    (hk : k s = u.setMp m) (hf : CopyFrame s u b e) :
    OnlyCopied s t ∧ t.lane.mp = m ∧ KeepsOutside s t b e ∧ (s.mem.wf → t.mem.wf) := by
  obtain ⟨-, -, rfl⟩ := microOp_next h
  rw [hk]
  have hl := hf.only.lane
  refine ⟨?_, rfl, hf.keeps, hf.wf⟩
  have h1 := hf.only
  unfold OnlyCopied CopiedVec at *
  rw [h1]
  rfl

/-! ### A step of a lane -/

/-- The operation a lane fetches is a stream element of the slot. -/
theorem decode_slot {slot : Slot} {bytes rest : List Byte} {i : Instr} (h : decode slot bytes = .ok (i, rest)) :
    i.slot = some slot := by
  have htok : ∀ b, (decodeToken b).slot = some .token := by
    intro b
    unfold decodeToken
    split
    · rfl
    · split
      · rfl
      · split <;> rfl
  have hext : ∀ b, (decodeExt b).slot = some .ext := by
    intro b
    unfold decodeExt
    split <;> rfl
  cases slot <;> rcases bytes with _ | ⟨b0, _ | ⟨b1, bs⟩⟩ <;> simp [decode] at h <;> obtain ⟨rfl, -⟩ := h <;>
    first | exact htok _ | exact hext _ | rfl

/-- A step of the decoder that reads no element keeps to the frame. -/
theorem innerStep_frame {s t : State} (h : innerStep s = .next t) : StepFrame s t := by
  unfold innerStep at h
  have hin : ∀ u : State, StepFrame u (u.withLane { u.lane with inExt := true }) := fun u =>
    StepFrame.ofLane u _ ⟨rfl, rfl, rfl, rfl, rfl, rfl, rfl, rfl⟩ (Nat.le_refl _) (Nat.le_refl _)
  have hgo : ∀ (u : State) (st : LaneState), StepFrame u (u.goto st) := fun u st =>
    StepFrame.ofLane u _ ⟨rfl, rfl, rfl, rfl, rfl, rfl, rfl, rfl⟩ (Nat.le_refl _) (Nat.le_refl _)
  split at h <;> obtain rfl := Host.Outcome.next.inj h
  · split
    · exact hin s
    · exact hgo s _
  · split
    · exact (loadMatchCode_frame s).trans (hin _)
    · exact (loadMatchCode_frame s).trans (addMinMatch_frame _)
  · exact copyLiterals_frame s
  · exact copyMatch_frame s
  all_goals exact StepFrame.refl s

/-- In a decode, a lane's step runs on spans in order: it fetches at a slot, or performs an inner step. -/
theorem laneStep_decoding {s t : State} (hd : s.lane.state.decoding = true) (h : laneStep s = .next t) :
    s.SpansOk ∧ ((∃ slot, s.lane.slot = some slot ∧ fetchStep slot s = .next t)
      ∨ (s.lane.slot = none ∧ innerStep s = .next t)) := by
  unfold laneStep at h
  have key : onSpans s (fun s => match s.lane.slot with
      | some slot => fetchStep slot s
      | none => innerStep s) = .next t →
      s.SpansOk ∧ ((∃ slot, s.lane.slot = some slot ∧ fetchStep slot s = .next t)
        ∨ (s.lane.slot = none ∧ innerStep s = .next t)) := fun h => by
    obtain ⟨h1, h2, h3, h4⟩ := onSpans_next h
    refine ⟨⟨h1, h2, h3⟩, ?_⟩
    cases hs : s.lane.slot with
    | some slot => simp only [hs] at h4; exact .inl ⟨slot, rfl, h4⟩
    | none => simp only [hs] at h4; exact .inr ⟨rfl, h4⟩
  cases hst : s.lane.state <;> rw [hst] at h hd <;> first | exact key h | cases hd

theorem fetchStep_frame {slot : Slot} {s t : State} (h : fetchStep slot s = .next t) : StepFrame s t := by
  unfold fetchStep at h
  split at h
  · rename_i i rest heq
    exact exec_frame (decode_slot heq) h
  · obtain rfl := Host.Outcome.next.inj h
    exact raiseFail_frame _ _

/-- Every step of a decode keeps to the frame. -/
theorem laneStep_frame {s t : State} (hd : s.lane.state.decoding = true) (h : laneStep s = .next t) : StepFrame s t := by
  obtain ⟨-, ⟨slot, -, hf⟩ | ⟨-, hf⟩⟩ := laneStep_decoding hd h
  · exact fetchStep_frame hf
  · exact innerStep_frame hf

/-- What the end of a command can do: wait for the lock, or respond, with or without an UPDATE. -/
theorem respond_next {s t : State} (h : respond s = .next t) :
    (measuredSizes s.lane.srcSize s.lane.dstSize = true ∧ ∃ c, s.ctxs[s.lane.ctx]? = some c
        ∧ ((c.lock = true ∧ t = s) ∨ (c.lock = false
          ∧ t = deliver (updateEffect s.lane.ctx s.lane.vsel (s.time - s.lane.t0) s.lane.dstSize s c))))
      ∨ (measuredSizes s.lane.srcSize s.lane.dstSize = false ∧ t = deliver s) := by
  unfold respond at h
  split at h
  · rename_i hm
    refine .inl ⟨hm, ?_⟩
    rcases transact_cases s.lane.ctx s fun c =>
      deliver (updateEffect s.lane.ctx s.lane.vsel (s.time - s.lane.t0) s.lane.dstSize s c) with
      ⟨-, he⟩ | ⟨c, hc, hl, he⟩ | ⟨c, hc, hl, he⟩
    · rw [he] at h; simp at h
    · rw [he] at h; exact ⟨c, hc, .inl ⟨hl, (Host.Outcome.next.inj h).symm⟩⟩
    · rw [he] at h; exact ⟨c, hc, .inr ⟨hl, (Host.Outcome.next.inj h).symm⟩⟩
  · rename_i hm
    exact .inr ⟨by simpa using hm, (Host.Outcome.next.inj h).symm⟩

/-- The cases of a lane's step: idle and nothing happens; a decode step; or the end of a command. -/
theorem laneStep_cases {s t : State} (h : laneStep s = .next t) :
    (s.lane.state = .idle ∧ t = s)
      ∨ (s.lane.state.decoding = true ∧ s.SpansOk ∧ StepFrame s t)
      ∨ ((s.lane.state = .done ∨ s.lane.state = .failed) ∧ respond s = .next t) := by
  cases hst : s.lane.state
  case idle => exact .inl ⟨rfl, by unfold laneStep at h; rw [hst] at h; exact (Host.Outcome.next.inj h).symm⟩
  case done => exact .inr (.inr ⟨.inl rfl, by unfold laneStep at h; rw [hst] at h; exact h⟩)
  case failed => exact .inr (.inr ⟨.inr rfl, by unfold laneStep at h; rw [hst] at h; exact h⟩)
  all_goals
    have hd : s.lane.state.decoding = true := by rw [hst]; rfl
    exact .inr (.inl ⟨rfl, (laneStep_decoding hd h).1, laneStep_frame hd h⟩)

/-! ### The response -/

@[simp] theorem deliver_params (s : State) : (deliver s).params = s.params := by unfold deliver forgetOutput; split <;> rfl
@[simp] theorem deliver_regions (s : State) : (deliver s).regions = s.regions := by unfold deliver forgetOutput; split <;> rfl
@[simp] theorem deliver_lanesBelow (s : State) : (deliver s).lanesBelow = s.lanesBelow := by
  unfold deliver forgetOutput; split <;> rfl
@[simp] theorem deliver_lanesAbove (s : State) : (deliver s).lanesAbove = s.lanesAbove := by
  unfold deliver forgetOutput; split <;> rfl
@[simp] theorem deliver_ctxs (s : State) : (deliver s).ctxs = s.ctxs := by unfold deliver forgetOutput; split <;> rfl
@[simp] theorem deliver_time (s : State) : (deliver s).time = s.time := by unfold deliver forgetOutput; split <;> rfl
@[simp] theorem deliver_host (s : State) : (deliver s).host = s.host := by unfold deliver forgetOutput; split <;> rfl
@[simp] theorem deliver_agenda (s : State) : (deliver s).agenda = s.agenda := by unfold deliver forgetOutput; split <;> rfl
@[simp] theorem deliver_draws (s : State) : (deliver s).draws = s.draws + 1 := rfl
@[simp] theorem deliver_lane (s : State) : (deliver s).lane = s.lane.respondWith s.draws := rfl

/-- The response writes memory only after a failure, and then only the output. -/
theorem deliver_mem (s : State) :
    (deliver s).mem = if s.lane.state = .failed then s.mem.forget s.draws s.lane.dstBase s.lane.dstSize else s.mem := by
  unfold deliver forgetOutput
  split <;> rfl

theorem deliver_keeps (s : State) (a : Nat) (h : a < s.lane.dstBase ∨ s.lane.dstBase + s.lane.dstSize ≤ a) :
    (deliver s).mem.read a = s.mem.read a := by
  rw [deliver_mem]
  split
  · exact Memory.read_forget_other _ _ _ _ _ h
  · rfl

theorem deliver_wf {s : State} (h : s.mem.wf) : (deliver s).mem.wf := by
  rw [deliver_mem]
  split
  · exact Memory.forget_wf h _ _ _
  · exact h

/-! ### Turns -/

@[simp] theorem State.tick_lanes (s : State) : s.tick.lanes = s.lanes := rfl

/-- The timer never goes back, whatever the free value is (R34). -/
theorem State.time_le_tick (s : State) : s.time ≤ s.tick.time := by
  show s.time ≤ saturate 64 (s.time.toNat + Config.tick s.draws)
  generalize Config.tick s.draws = d
  unfold saturate
  rw [BitVec.le_def, BitVec.toNat_ofNat]
  have := s.time.isLt
  rw [Nat.mod_eq_of_lt (by omega)]
  omega

/-- Taking turns moves no register: the lanes, in order, are the same, and so is everything else. -/
theorem State.focus_some {s u : State} {k : Nat} (h : s.focus k = some u) :
    u.lanes = s.lanes ∧ u.lane ∈ s.lanes
      ∧ u = { s with lanesBelow := u.lanesBelow, lane := u.lane, lanesAbove := u.lanesAbove } := by
  unfold State.focus at h
  split at h
  · rename_i l above heq
    obtain rfl := Option.some.inj h
    refine ⟨?_, ?_, rfl⟩
    · show s.lanes.take k ++ l :: above = s.lanes
      rw [← heq, List.take_append_drop]
    · show l ∈ s.lanes
      have : l ∈ s.lanes.drop k := by rw [heq]; exact List.mem_cons_self ..
      exact List.mem_of_mem_drop this
  · simp at h

theorem onLane_next {s t : State} {k : Nat} {f : State → Host.Outcome State Fault Refusal} (h : onLane s k f = .next t) :
    ∃ u, s.focus k = some u ∧ f u = .next t := by
  unfold onLane at h
  split at h
  · rename_i u hu
    exact ⟨u, hu, h⟩
  · simp at h

/-- The state in which some agent moves: the timer has moved, the agenda is shorter, the turn is that agent's. -/
def Turned (s u : State) : Prop :=
  u.lanes = s.lanes ∧ u.params = s.params ∧ u.mem = s.mem ∧ u.regions = s.regions ∧ u.ctxs = s.ctxs ∧ s.time ≤ u.time
    ∧ u.host = s.host

/-- The turn of the lane with number `k` moves no register. -/
theorem turned_focus {s u : State} {k : Nat} (h : s.focus k = some u) : Turned s u := by
  obtain ⟨h1, -, h3⟩ := State.focus_some h
  refine ⟨h1, ?_, ?_, ?_, ?_, ?_, ?_⟩ <;> rw [h3]
  exact BitVec.le_refl _

/-- Without an agenda a step is one of the host, with every lane idle, or one of a lane. -/
theorem defaultTurn_cases {s t : State} (h : defaultTurn s = .next t) :
    ∃ u, Turned s u ∧ (hostStep u = .next t ∨ laneStep u = .next t) := by
  have hs : Turned s s := ⟨rfl, rfl, rfl, rfl, rfl, BitVec.le_refl _, rfl⟩
  unfold defaultTurn at h
  split at h
  · split at h
    · obtain ⟨u, hu, hl⟩ := onLane_next h
      exact ⟨u, turned_focus hu, .inr hl⟩
    · exact ⟨s, hs, .inl h⟩
  · exact ⟨s, hs, .inr h⟩

/-- No lane runs a command exactly if all are idle. -/
theorem State.runningLane_eq_none (s : State) : s.runningLane = none ↔ ∀ l ∈ s.lanes, l.state = .idle := by
  simp [State.runningLane]

/-- The first lane that runs a command: it does, and those before it are idle. -/
theorem State.runningLane_some {s : State} {k : Nat} (h : s.runningLane = some k) :
    ∃ l, s.lanes[k]? = some l ∧ l.state ≠ .idle ∧ ∀ l' ∈ s.lanes.take k, l'.state = .idle := by
  obtain ⟨hk, h1, h2⟩ := List.findIdx?_eq_some_iff_getElem.mp h
  refine ⟨s.lanes[k], List.getElem?_eq_getElem hk, by simpa using h1, fun l' hl => ?_⟩
  obtain ⟨j, hj, rfl⟩ := List.mem_take_iff_getElem.mp hl
  simpa using h2 j (by omega)

/-- What holds of a turn after the timer has moved holds of it from before (R34). -/
theorem turned_of_tick {s u : State} (h : Turned s.tick u) : Turned s u :=
  ⟨h.1, h.2.1, h.2.2.1, h.2.2.2.1, h.2.2.2.2.1, BitVec.le_trans s.time_le_tick h.2.2.2.2.2.1, h.2.2.2.2.2.2⟩

/-- A step of the core is a move of the host or a step of a lane, after the timer has moved. -/
theorem step_cases {s t : State} (h : step s = .next t) :
    ∃ u, Turned s u ∧ (hostStep u = .next t ∨ laneStep u = .next t) := by
  unfold step coreStep agentStep at h
  split at h
  · rename_i rest heq
    exact ⟨{ s.tick with agenda := rest }, ⟨rfl, rfl, rfl, rfl, rfl, s.time_le_tick, rfl⟩, .inl h⟩
  · rename_i k rest heq
    obtain ⟨u, hu, hl⟩ := onLane_next h
    have hu := turned_focus hu
    exact ⟨u, turned_of_tick hu, .inr hl⟩
  · obtain ⟨u, hu, hl⟩ := defaultTurn_cases h
    exact ⟨u, turned_of_tick hu, hl⟩

end Sys2Proof.Machine
end

