-- ==== Sys2Proof/Tests/Slice0.lean ====
section
/-! SUPPORT. The model's own tests. Expected results come from the spec: the worked examples in its rules and the vectors
of 95_test_vectors.md, named at each test. Then, for every statement with hypotheses, a witness that meets them. -/

namespace Sys2Proof.Tests

open Sys2Proof.Machine

set_option Elab.async false

/-! ### A small machine -/

/-- A block at address 0 and an output of `d` bytes at 0x1000, on a lane whose other registers `f` sets. -/
def lab (block : List Byte) (d : Nat) (f : Lane → Lane) : State :=
  { State.reset with
    mem := Memory.writeBytes [] 0 block
    regions := [⟨0, block.length + 64, false⟩, ⟨0x1000, d, true⟩]
    lane := f { Lane.reset with srcBase := 0, srcSize := block.length, dstBase := 0x1000, dstSize := d } }

/-- A decode about to start, with variant `v`. -/
def start (block : List Byte) (d : Nat) (v : Variant) : State :=
  lab block d fun l => { l with vsel := v, state := .readToken }

/-- What a next state holds; `none` for a stop. -/
def look {α : Type} (o : Host.Outcome State Fault Refusal) (f : State → α) : Option α :=
  match o with
  | .next t => some (f t)
  | .fault _ => none
  | .refused _ => none

/-- The reason of a refusal; `none` for anything else. -/
def refusalOf (o : Host.Outcome State Fault Refusal) : Option Refusal :=
  match o with
  | .next _ => none
  | .fault _ => none
  | .refused r => some r

/-- The cursors, and the first `n` bytes of the output. -/
def cursorsAndOutput (n : Nat) (s : State) : Nat × Nat × List Byte := (s.lane.ip, s.lane.op, s.output n)

/-- The end of a decode: position, cause, and the recorded cursors. -/
def ending (s : State) : LaneState × Cause × Nat × Nat := (s.lane.state, s.lane.fcause, s.lane.fip, s.lane.fop)

/-- A decode of a block to its end. -/
def decodeAll (block : List Byte) (d : Nat) (v : Variant) : Host.Outcome State Fault Refusal :=
  runLane (block.length + 1) (start block d v)

/-- The output of a whole decode that succeeds. -/
def outputOf (block : List Byte) (d : Nat) (v : Variant) : Option (List Byte) :=
  look (decodeAll block d v) fun t => if t.lane.state = .done then t.output d else []

/-- How a whole decode ends. -/
def endingOf (block : List Byte) (d : Nat) (v : Variant) : Option (LaneState × Cause × Nat × Nat) :=
  look (decodeAll block d v) ending

/-- Program P2 of the spec (95 section 9): 9 bytes that encode "abcabcabcxy". -/
def blockP2 : List Byte := [0x32#8, 0x61#8, 0x62#8, 0x63#8, 0x03#8, 0x00#8, 0x20#8, 0x78#8, 0x79#8]

/-- The example block of R212: five literals "Hello". -/
def blockHello : List Byte := [0x50#8, 0x48#8, 0x65#8, 0x6C#8, 0x6C#8, 0x6F#8]

/-- A lane about to issue micro-operations, its output holding 1, 2, 3, … from index 0 on (n of them). -/
def seeded (n d : Nat) : State :=
  let s := lab blockHello d id
  s.dstWrite 0 ((List.range n).map fun k => BitVec.ofNat 8 (k + 1))

/-! ### WellFormed: an ill-formed term for each check -/

theorem test_wf_refuses_seq_LL : (Instr.seq 15#4 0#4).wf = false := by decide
theorem test_wf_refuses_seq_ML : (Instr.seq 0#4 15#4).wf = false := by decide
theorem test_wf_refuses_seqXL_ML : (Instr.seqXL 15#4).wf = false := by decide
theorem test_wf_refuses_seqXM_LL : (Instr.seqXM 15#4).wf = false := by decide
theorem test_wf_refuses_extEnd_255 : (Instr.extEnd 255#8).wf = false := by decide
theorem test_wf_refuses_overlap_zero : (Instr.copyOverlap8 5 5 0).wf = false := by decide
theorem test_wf_refuses_overlap_wide : (Instr.copyOverlap16 16 0 16).wf = false := by decide
theorem test_wf_refuses_overlap_apart : (Instr.copyOverlap32 9 5 3).wf = false := by decide
theorem test_wf_refuses_plain_near : (Instr.copyFromOutput8 17 10).wf = false := by decide
theorem test_wf_refuses_wildOut_near : (Instr.wildCopyOut16 25 10 3).wf = false := by decide
theorem test_wf_refuses_source_address : (Instr.decompress ⟨2 ^ 64, 0, 1, 1, 0⟩).wf = false := by decide
theorem test_wf_refuses_dest_address : (Instr.decompress ⟨0, 2 ^ 64, 1, 0, 0⟩).wf = false := by decide
theorem test_wf_refuses_source_size : (Instr.decompress ⟨0, 0, 2 ^ 55, 1, 0⟩).wf = false := by decide
theorem test_wf_refuses_dest_size : (Instr.decompress ⟨0, 0, 1, 2 ^ 55, 0⟩).wf = false := by decide
theorem test_wf_refuses_dest_wrap : (Instr.decompress ⟨0, 2 ^ 64 - 1, 1, 2, 0⟩).wf = false := by decide
theorem test_wf_refuses_line_offset_zero : (AsmLine.seqLine [] 0 4).wf = false := by decide
theorem test_wf_refuses_line_offset_wide : (AsmLine.seqLine [] 65536 4).wf = false := by decide
theorem test_wf_refuses_line_match_short : (AsmLine.seqLine [] 1 3).wf = false := by decide
theorem test_wf_refuses_line_end_nibble : (AsmLine.endLine [] 16).wf = false := by decide
theorem test_wf_refuses_line_rep_short : (AsmLine.repLine 0x41#8 4).wf = false := by decide

/-! ### Decoding, from the spec's encodings (R91, R94, R96, R100; 95 sections 4.1 to 4.3) -/

/-- Token 0011 0010: `SEQ`, LL = 3, ML = 2. -/
theorem test_decode_seq : decode .token [0b00110010#8] = .ok (.seq 3#4 2#4, []) := by decide
/-- Token 1111 0000: `SEQ.XL`, ML = 0. -/
theorem test_decode_seqXL : decode .token [0b11110000#8] = .ok (.seqXL 0#4, []) := by decide
/-- Token 0010 1111: `SEQ.XM`, LL = 2. -/
theorem test_decode_seqXM : decode .token [0b00101111#8] = .ok (.seqXM 2#4, []) := by decide
/-- Token 1111 1111: `SEQ.XLXM`. -/
theorem test_decode_seqXLXM : decode .token [0b11111111#8] = .ok (.seqXLXM, []) := by decide
/-- Extension byte 1111 1111: `EXT.CONT`. -/
theorem test_decode_extCont : decode .ext [0b11111111#8] = .ok (.extCont, []) := by decide
/-- Extension byte 1101 0001: `EXT.END` with 209. -/
theorem test_decode_extEnd : decode .ext [0b11010001#8] = .ok (.extEnd 209#8, []) := by decide
/-- Bytes 34 12: `OFFSET` 0x1234, the lower byte first. -/
theorem test_decode_offset : decode .field [0b00110100#8, 0b00010010#8] = .ok (.offset 0b0001001000110100#16, []) := by
  decide
/-- A stream that ends inside the offset is refused by name. -/
theorem test_decode_short : decode .field [0x34#8] = .error (.streamEnds .field) := by decide
/-- The operations without an encoding have none (R101). -/
theorem test_no_encoding :
    ([.copyOverlap8 1 0 1, .copyOverlap16 1 0 1, .copyOverlap32 1 0 1, .copyFromOutput8 8 0, .copyFromOutput16 16 0,
      .copyFromOutput32 32 0, .wildCopyIn8 0 0 0, .wildCopyIn16 0 0 0, .wildCopyIn32 0 0 0, .wildCopyOut8 8 0 0,
      .wildCopyOut16 16 0 0, .wildCopyOut32 32 0 0, .select 0, .update 0 0 0#64 0, .decompress ⟨0, 0, 0, 0, 0⟩] :
      List Instr).all (fun i => i.slot.isNone && (encode i).isEmpty) = true := by decide
/-- The assembler's worked example of R102. -/
theorem test_assemble_R102 :
    assemble (.seqLine [0x61#8, 0x62#8] 2 993)
      = [0x2F#8, 0x61#8, 0x62#8, 0x02#8, 0x00#8, 0xFF#8, 0xFF#8, 0xFF#8, 0xD1#8] := by decide
/-- The host's table words: bit 0 is the least significant of the first byte. -/
theorem test_table_words :
    decodeTableWord 8 0x2F = some (.seqXM 2#4) ∧ decodeTableWord 16 0x1234 = some (.offset 0x1234#16)
      ∧ decodeTableWord 8 0xFF = some .seqXLXM := by decide

/-! ### The copy engine (95 sections 2 and 3) -/

/-- 2.1, n = 3: `COPYOVERLAP_8` stores 1 2 3 1 2 3 1 2 and returns 2. -/
theorem test_copyOverlap8 :
    look (exec (.copyOverlap8 3 0 3) (seeded 3 11)) (fun t => (t.lane.mp, t.output 11))
      = some (2, [1, 2, 3, 1, 2, 3, 1, 2, 3, 1, 2]) := by decide +kernel
/-- 2.4: only the lanes below D are stored; the address of `DST[D]` keeps its byte. -/
theorem test_copyOverlap8_clips :
    look (exec (.copyOverlap8 3 0 3) (seeded 3 8)) (fun t => (t.lane.mp, t.mem.readBytes 0x1000 9))
      = some (2, [1, 2, 3, 1, 2, 3, 1, 2, 0]) := by decide +kernel
/-- 2.3, W = 16, n = 5, the scalar realisation: returns 1. -/
theorem test_copyOverlap16_scalar :
    look (exec (.copyOverlap16 5 0 5) ((seeded 5 21).withOcpu .scalar)) (fun t => (t.lane.mp, t.output 21))
      = some (1, [1, 2, 3, 4, 5, 1, 2, 3, 4, 5, 1, 2, 3, 4, 5, 1, 2, 3, 4, 5, 1]) := by decide +kernel
/-- 2.2, W = 32, n = 7: returns 4. -/
theorem test_copyOverlap32 :
    look (exec (.copyOverlap32 7 0 7) (seeded 7 39)) (fun t => (t.lane.mp, (t.output 39).drop 28))
      = some (4, [1, 2, 3, 4, 5, 6, 7, 1, 2, 3, 4]) := by decide +kernel
/-- V3.1, moved to index 0: eight bytes, and the pointer moves by 8 once. -/
theorem test_copyFromOutput8 :
    look (exec (.copyFromOutput8 10 0) (seeded 8 30)) (fun t => (t.lane.mp, (t.output 19).drop 8))
      = some (8, [0, 0, 1, 2, 3, 4, 5, 6, 7, 8, 0]) := by decide +kernel
/-- V3.3: with `t = D` nothing is stored and the pointer still moves. -/
theorem test_copyFromOutput16_beyond :
    look (exec (.copyFromOutput16 24 4) (seeded 24 24)) (fun t => (t.lane.mp, decide (t.mem = (seeded 24 24).mem)))
      = some (20, true) := by decide +kernel
/-- R121: 32 bytes. -/
theorem test_copyFromOutput32 :
    look (exec (.copyFromOutput32 32 0) (seeded 32 66)) (fun t => (t.lane.mp, (t.output 66).drop 61))
      = some (32, [30, 31, 32, 0, 0]) := by decide +kernel
/-- V3.4, moved: the second stride loads what the first stored. -/
theorem test_wildCopyOut8 :
    look (exec (.wildCopyOut8 10 0 11) (seeded 10 40)) (fun t => (t.output 27).drop 10)
      = some [1, 2, 3, 4, 5, 6, 7, 8, 9, 10, 1, 2, 3, 4, 5, 6, 0] := by decide +kernel
/-- V3.5: size 0 does nothing. -/
theorem test_wildCopyOut16_zero :
    look (exec (.wildCopyOut16 20 0 0) (seeded 20 40)) (fun t => decide (t.mem = (seeded 20 40).mem)) = some true := by
  decide +kernel
/-- V3.6, moved: two strides of 32, the second clipped at D. -/
theorem test_wildCopyOut32 :
    look (exec (.wildCopyOut32 32 0 33) (seeded 32 68)) (fun t => t.mem.readBytes 0x1040 5)
      = some [1, 2, 3, 4, 0] := by decide +kernel
/-- V3.7 and V3.8: five literals; the over-read lanes (slack) land beyond the size, or are clipped. -/
theorem test_wildCopyIn8 :
    look (exec (.wildCopyIn8 0 1 5) (seeded 12 100)) (fun t => t.output 12)
      = some [0x48, 0x65, 0x6C, 0x6C, 0x6F, 0, 0, 0, 9, 10, 11, 12] := by decide +kernel
theorem test_wildCopyIn16_clips :
    look (exec (.wildCopyIn16 0 1 5) (seeded 5 5)) (fun t => t.mem.readBytes 0x1000 6)
      = some [0x48, 0x65, 0x6C, 0x6C, 0x6F, 0] := by decide +kernel
theorem test_wildCopyIn32 :
    look (exec (.wildCopyIn32 1 0 2) (seeded 3 10)) (fun t => t.output 10)
      = some [1, 0x50, 0x48, 0x65, 0x6C, 0x6C, 0x6F, 0, 0, 0] := by decide +kernel

/-! ### The stream's elements and sequences -/

/-- R163: "abc", then six bytes at offset 3. -/
theorem test_seq :
    look (exec (.seq 3#4 2#4) (start blockP2 11 0)) (cursorsAndOutput 9)
      = some (6, 9, [0x61, 0x62, 0x63, 0x61, 0x62, 0x63, 0x61, 0x62, 0x63]) := by decide +kernel
/-- R164: twenty literals, the last four times more. -/
theorem test_seqXL :
    look (exec (.seqXL 0#4) (start ([0xF0, 0x05] ++ (List.range 20).map (BitVec.ofNat 8) ++ [0x01, 0x00]) 30 1))
      (fun t => (t.lane.ip, t.lane.op, (t.output 24).drop 18)) = some (24, 24, [18, 19, 19, 19, 19, 19]) := by decide +kernel
/-- R165: two literals "ab", a match of 19 at offset 2. -/
theorem test_seqXM :
    look (exec (.seqXM 2#4) (start [0x2F, 0x61, 0x62, 0x02, 0x00, 0x00] 40 0))
      (fun t => (t.lane.ip, t.lane.op, (t.output 21).drop 16)) = some (6, 21, [0x61, 0x62, 0x61, 0x62, 0x61]) := by
  decide +kernel
/-- R166: fifteen literals, copied again, and four bytes once more. -/
theorem test_seqXLXM :
    look (exec .seqXLXM (start ([0xFF, 0x00] ++ (List.range 15).map (BitVec.ofNat 8) ++ [0x0F, 0x00, 0x00]) 40 1))
      (fun t => (t.lane.ip, t.lane.op, (t.output 34).drop 28)) = some (20, 34, [13, 14, 0, 1, 2, 3]) := by decide +kernel
/-- R97, V4.4: a final sequence ignores its low nibble. -/
theorem test_final_ignores_ML :
    outputOf [0x5F, 0x48, 0x65, 0x6C, 0x6C, 0x6F] 5 2 = some [0x48, 0x65, 0x6C, 0x6C, 0x6F] := by decide +kernel
/-- R153: `EXT.CONT` adds 255 and stays inside the extension. -/
theorem test_extCont :
    look (exec .extCont (lab [0xF0, 0xFF, 0x00] 300 fun l =>
      { l with state := .extendLiteralLength, inExt := true, ip := 1, len := 15 }))
      (fun t => (t.lane.ip, t.lane.len, t.lane.inExt)) = some (2, 270, true) := by decide +kernel
/-- R160: `EXT.END` after the offset adds its value and the bias of 4. -/
theorem test_extEnd_match :
    look (exec (.extEnd 0xD1#8) (lab [0x2F, 0x61, 0x62, 0x02, 0x00, 0xD1] 300 fun l =>
      { l with state := .extendMatchLength, inExt := true, ip := 5, op := 2, len := 15 }))
      (fun t => (t.lane.ip, t.lane.len, t.lane.state)) = some (6, 228, .copyMatch) := by decide +kernel
/-- R159: an offset equal to `OP` is legal. -/
theorem test_offset_range :
    look (exec (.offset 4#16) (lab [0x40, 0x61, 0x62, 0x63, 0x64, 0x04, 0x00, 0x00] 8 fun l =>
      { l with state := .readMatch, ip := 5, op := 4 })) (fun t => (t.lane.mp, t.lane.ip, t.lane.state))
      = some (0, 7, .extendMatchLength) := by decide +kernel
/-- R159, F8c: the high byte counts. -/
theorem test_offset_high_byte :
    look (exec (.offset 256#16) (lab [0x10, 0x41, 0x00, 0x01] 500 fun l =>
      { l with state := .readMatch, ip := 2, op := 1 })) ending = some (.failed, .offsetRange, 4, 1) := by decide +kernel

/-! ### Whole decodes (95 sections 5, 6 and 9) -/

/-- P2, in each width. -/
theorem test_P2 :
    ∀ v : Variant, outputOf blockP2 11 v
      = some [0x61, 0x62, 0x63, 0x61, 0x62, 0x63, 0x61, 0x62, 0x63, 0x78, 0x79] := by decide +kernel
/-- F1a, F2c, F3a, F4a, F6a: truncated and oversized blocks. -/
theorem test_failures_1 :
    [endingOf [0x10, 0x41, 0x01, 0x00] 5 0, endingOf [0xF0, 0xFF, 0xFF] 600 0, endingOf blockHello 4 0,
        endingOf [0xA0, 0x61, 0x62] 10 0, endingOf [0x10, 0x41, 0x01] 5 0]
      = [some (.failed, .tokenEos, 4, 5), some (.failed, .litExtEos, 3, 0), some (.failed, .litDst, 1, 0),
        some (.failed, .litSrc, 1, 0), some (.failed, .offsetEos, 2, 1)] := by decide +kernel
/-- F7b, F8a, F9b, F10b, and the order of the tests PR1 and PR2. -/
theorem test_failures_2 :
    [endingOf [0x00, 0x00, 0x00] 10 1, endingOf [0x10, 0x41, 0x02, 0x00] 5 1, endingOf [0x1F, 0x41, 0x01, 0x00, 0xFF] 400 1,
        endingOf [0x1F, 0x41, 0x01, 0x00, 0x00] 19 1, endingOf [0xA0, 0x61, 0x62] 5 1, endingOf [0x1F, 0x41, 0x05, 0x00] 100 1]
      = [some (.failed, .offsetZero, 3, 0), some (.failed, .offsetRange, 4, 1), some (.failed, .matExtEos, 5, 1),
        some (.failed, .matchDst, 5, 1), some (.failed, .litDst, 1, 0), some (.failed, .offsetRange, 4, 1)] := by decide +kernel
/-- 6.1: a match that fills the output is followed by a token with no literals. -/
theorem test_ends_after_match :
    outputOf [0x10, 0x41, 0x01, 0x00, 0x00] 5 0 = some [0x41, 0x41, 0x41, 0x41, 0x41] := by decide +kernel
/-- 6.3, D = 3: success where a literal run ends at D. -/
theorem test_small_D : outputOf blockP2 3 0 = some [0x61, 0x62, 0x63] := by decide +kernel

/-! ### The selector (95 section 7) -/

/-- A context with the given estimates, counts and call number. -/
def context (e0 e1 e2 : Nat) (n0 n1 n2 calls : Nat) : Context :=
  ⟨#v[BitVec.ofNat 64 e0, BitVec.ofNat 64 e1, BitVec.ofNat 64 e2], #v[BitVec.ofNat 32 n0, BitVec.ofNat 32 n1, BitVec.ofNat 32 n2],
    BitVec.ofNat 32 calls, false⟩

/-- The machine after reset with one such context. -/
def withContext (c : Context) : State := { State.reset with ctxs := [c] }

/-- R192's example, and V7.4: a probe; then a tie toward the lower index, across the wrap of `CALLS`. -/
theorem test_select :
    look (exec (.select 0) (withContext (context 500 900 700 0 0 0 130))) (fun t => (t.lane.vsel, t.ctxs.map (·.calls)))
        = some (2, [131#32])
      ∧ look (exec (.select 0) (withContext (context 5 9 9 0 0 0 (2 ^ 32 - 1)))) (fun t => (t.lane.vsel, t.ctxs.map (·.calls)))
        = some (1, [0#32]) := by decide +kernel
/-- V7.2 call 4, and V7.5: `CNT` saturates. -/
theorem test_update :
    look (exec (.update 0 1 4096#64 65536) (withContext (context 1048576 2097152 524288 1 2 1 5)))
        (fun t => t.ctxs.map fun c => (c.est[1], c.cnt[1], c.est[0])) = some [(1966080#64, 3#32, 1048576#64)]
      ∧ look (exec (.update 0 0 0#64 65536) (withContext (context 0 0 0 (2 ^ 32 - 1) 0 0 0)))
        (fun t => t.ctxs.map fun c => (c.est[0], c.cnt[0])) = some [(536870912#64, 4294967295#32)] := by decide +kernel
/-- V7.1: samples. -/
theorem test_sample :
    sample 4096 65536 = 1048576 ∧ sample 0 65536 = 4294967296 ∧ sample 3 100 = 2184533 ∧ sample 1000000000 32768 = 2
      ∧ sample 0 (2 ^ 55 - 1) = 2 ^ 64 - 1 := by decide +kernel

/-! ### The command (R212 to R217) -/

/-- The machine with the block placed and both spans accessible, its lanes idle. -/
def ready (block : List Byte) (d : Nat) : State :=
  { State.reset with
    mem := Memory.writeBytes [] 0 block
    regions := [⟨0, block.length + 64, false⟩, ⟨0x10000, d, true⟩] }

/-- The command for it. -/
def command (block : List Byte) (d : Nat) : Command := ⟨0, 0x10000, block.length, d, 0⟩

/-- R212's example: "Hello" is below the threshold; its decode starts at once with variant 0. -/
theorem test_decompress :
    look (exec (.decompress (command blockHello 5)) (ready blockHello 5))
      (fun t => (t.lane.state, t.lane.vsel, t.lane.srcSize, t.lane.dstSize, t.ctxs.map (·.calls)))
      = some (.readToken, 0, 6, 5, [0#32]) := by decide +kernel
/-- R213: a zero size succeeds trivially; R215: D = 32768 is measured, and its SELECT counts. -/
theorem test_decompress_sizes :
    look (exec (.decompress (command blockHello 0)) (ready blockHello 0)) (fun t => t.lane.state) = some .done
      ∧ look (exec (.decompress (command blockHello 32768)) (ready blockHello 32768))
        (fun t => (t.lane.state, t.ctxs.map (·.calls))) = some (.readToken, [1#32]) := by decide +kernel
/-- R211 (a), R243: one slack byte short, and the command is refused. -/
theorem test_decompress_short_slack :
    refusalOf (exec (.decompress (command blockHello 5))
        { ready blockHello 5 with regions := [⟨0, 69, false⟩, ⟨0x10000, 5, true⟩] })
      = some .sourceNotReadable := by decide +kernel
/-- R216: the response of a decode that has succeeded. -/
theorem test_response :
    look (laneStep (lab blockHello 5 fun l => { l with state := .done }))
      (fun t => (t.lane.result, t.lane.state)) = some (true, .idle) := by decide +kernel

/-! ### The step and the placed word (log entry 13) -/

/-- After reset, the next step runs the word placed: the token 0x32 over zeros raises on its offset 0. -/
theorem test_placed_token :
    look (step (State.reset.withFetchWord 8 0x32)) ending = some (.failed, .offsetZero, 6, 3) := by decide +kernel
/-- R272: with the acting lane idle and no agenda, the lane that still runs a command goes on, and no move of the host. -/
theorem test_running_lane_goes_on :
    look (step { lab blockHello 5 id with
        host := [.reset], lanesAbove := [{ Lane.reset with srcSize := 6, dstBase := 0x1000, dstSize := 5, state := .readToken }] })
      (fun t => (t.lane.state, t.host.length)) = some (.done, 1) := by decide +kernel
/-- The offset field. -/
theorem test_placed_offset :
    look (step (State.reset.withFetchWord 16 0x0003)) (fun t => (t.lane.off, t.lane.mp, t.lane.state))
      = some (3#16, 65532, .extendMatchLength) := by decide +kernel

/-! ### Witnesses: for every statement with hypotheses, values that meet them together -/

/-- An outcome that holds something is a next state. -/
theorem next_of {o : Host.Outcome State Fault Refusal} {p : State → Bool} (h : look o p = some true) :
    ∃ t, o = .next t ∧ p t = true := by
  cases o with
  | next t => exact ⟨t, rfl, by simpa [look] using h⟩
  | fault r => simp [look] at h
  | refused r => simp [look] at h

theorem wit_DecodeInvertsEncode :
    ((Instr.seq 14#4 0#4).wf = true ∧ (Instr.seq 14#4 0#4).slot = some .token)
      ∧ ((Instr.extEnd 254#8).wf = true ∧ (Instr.extEnd 254#8).slot = some .ext)
      ∧ ((Instr.offset 65535#16).wf = true ∧ (Instr.offset 65535#16).slot = some .field) := by decide

theorem wit_EncodeInvertsDecode :
    decode .token [0x0F#8, 0x01#8] = .ok (.seqXM 0#4, [0x01#8]) ∧ decode .ext [] = .error (.streamEnds .ext) := by decide

theorem wit_TokenFormFollowsFromNibbles :
    ((0xFF#8).toNat / 16 = 15 ∧ (0xFF#8).toNat % 16 = 15) ∧ ((0xFE#8).toNat / 16 = 15 ∧ (0xFE#8).toNat % 16 ≠ 15)
      ∧ ((0xEF#8).toNat / 16 ≠ 15 ∧ (0xEF#8).toNat % 16 = 15)
      ∧ ((0xEE#8).toNat / 16 ≠ 15 ∧ (0xEE#8).toNat % 16 ≠ 15) := by decide

/-- 4.2: the extension of 15 is one byte 0; that of 270 is FF 00. -/
theorem wit_ExtensionHasOneSpelling :
    254#8 ≠ 255#8 ∧ readExt [0xFF#8, 0x00#8] = some (255, []) ∧ [0xFF#8, 0x00#8] = extBytes 255 ++ []
      ∧ 15 ≤ 15 ∧ lengthExt 15 = [0x00#8] := by decide

theorem wit_AssembledLineParses :
    ((AsmLine.seqLine [] 1 4).wf = true ∧ ([] : List Byte).length ≠ 1)
      ∧ ((AsmLine.seqLine [0x61#8] 65535 4).wf = true ∧ [0x61#8].length ≠ 2)
      ∧ (AsmLine.endLine [] 15).wf = true ∧ ((AsmLine.repLine 0x61#8 5).wf = true ∧ 2 ≠ 1) := by decide

theorem wit_ResetLeavesSpecValues : Config.Params.default.wf := by decide

theorem wit_ResetMeetsInvariants : ({ Config.Params.default with slack := 31, nLanes := 1 } : Config.Params).wf := by decide

theorem wit_HostResetAppliesToIdleCore :
    (∀ l ∈ State.reset.lanes, l.state = .idle) ∧ ∃ l ∈ (start blockP2 11 0).lanes, l.state ≠ .idle := by decide

/-- The acting lane is idle and lane 1 has a command. -/
def otherRunning : State := { State.reset with lanesAbove := [{ Lane.reset with state := .readToken }] }

/-- A lane's turn by default, by the agenda, and by default with the acting lane idle. -/
theorem wit_StepRunsDecodedElement :
    ((start blockP2 11 0).TurnOf (start blockP2 11 0).tick ∧ (start blockP2 11 0).tick.SpansOk
        ∧ (start blockP2 11 0).tick.lane.slot = some .token
        ∧ decode .token (fetchBytes .token (start blockP2 11 0).tick) = .ok (.seq 3#4 2#4, []))
      ∧ ({ start blockP2 11 0 with agenda := [.lane 0] } : State).TurnOf (start blockP2 11 0).tick
      ∧ otherRunning.TurnOf { otherRunning.tick with
          lanesBelow := [Lane.reset], lane := { Lane.reset with state := .readToken }, lanesAbove := [] } := by
  refine ⟨⟨.inl ⟨rfl, by decide, rfl⟩, ?_, rfl, by decide +kernel⟩, .inr (.inr ⟨0, [], rfl, rfl⟩),
    .inr (.inl ⟨rfl, rfl, 1, _, rfl, by decide, by decide, rfl⟩)⟩
  unfold State.SpansOk
  decide +kernel

/-- A block of one byte, with the lane at its end, in each of the four positions that read an element. -/
def atEnd (st : LaneState) : State := lab [0xF0#8] 100 fun l => { l with state := st, inExt := true, ip := 1 }

theorem wit_StepRaisesWhereBlockEnds :
    ∀ p ∈ [(LaneState.readToken, Slot.token), (.extendLiteralLength, .ext), (.readMatch, .field), (.extendMatchLength, .ext)],
      (atEnd p.1).TurnOf (atEnd p.1).tick ∧ (atEnd p.1).tick.SpansOk ∧ (atEnd p.1).tick.lane.slot = some p.2
        ∧ (atEnd p.1).tick.lane.srcSize < (atEnd p.1).tick.lane.ip + p.2.size := by
  intro p hp
  fin_cases hp <;> refine ⟨.inl ⟨rfl, by decide, rfl⟩, ?_, rfl, by decide⟩ <;> unfold State.SpansOk <;> decide +kernel

/-- The micro-operations' machine: canonical memory, spans in order. -/
theorem seeded_ok : (seeded 4 70).mem.wf ∧ (seeded 4 70).SpansOk := by
  unfold State.SpansOk
  decide +kernel

theorem wit_PlainCopyResult :
    (seeded 4 70).mem.wf ∧ (seeded 4 70).SpansOk ∧ 0 + 8 ≤ 8 ∧ 1 + 16 ≤ 17 ∧ 2 + 32 ≤ 34 :=
  ⟨seeded_ok.1, seeded_ok.2, by decide⟩

/-- The last source byte a wild copy may load is the last slack byte, and the last byte it must store is `DST[D − 1]`. -/
theorem wit_WildCopyInResult :
    (seeded 4 70).mem.wf ∧ (seeded 4 70).SpansOk
      ∧ (62 + ceilTo 8 7 ≤ (seeded 4 70).lane.srcSize + (seeded 4 70).params.slack ∧ 63 + 7 ≤ (seeded 4 70).lane.dstSize)
      ∧ (54 + ceilTo 16 16 ≤ (seeded 4 70).lane.srcSize + (seeded 4 70).params.slack ∧ 54 + 16 ≤ (seeded 4 70).lane.dstSize)
      ∧ (38 + ceilTo 32 1 ≤ (seeded 4 70).lane.srcSize + (seeded 4 70).params.slack ∧ 69 + 1 ≤ (seeded 4 70).lane.dstSize) :=
  ⟨seeded_ok.1, seeded_ok.2, by decide⟩

theorem wit_WildCopyOutResult :
    (seeded 4 70).mem.wf ∧ (seeded 4 70).SpansOk
      ∧ (0 + 8 ≤ 8 ∧ 8 + 62 ≤ (seeded 4 70).lane.dstSize) ∧ (0 + 16 ≤ 16 ∧ 16 + 54 ≤ (seeded 4 70).lane.dstSize)
      ∧ (0 + 32 ≤ 32 ∧ 32 + 38 ≤ (seeded 4 70).lane.dstSize) :=
  ⟨seeded_ok.1, seeded_ok.2, by decide⟩

theorem wit_OverlapCopyResult :
    (seeded 4 70).mem.wf ∧ (seeded 4 70).SpansOk
      ∧ (1 ≤ 1 ∧ 1 < 8 ∧ 68 + 1 < (seeded 4 70).lane.dstSize) ∧ (1 ≤ 15 ∧ 15 < 16 ∧ 0 + 15 < (seeded 4 70).lane.dstSize)
      ∧ (1 ≤ 31 ∧ 31 < 32 ∧ 38 + 31 < (seeded 4 70).lane.dstSize) :=
  ⟨seeded_ok.1, seeded_ok.2, by decide⟩

theorem wit_RealisationsInterchangeable :
    (seeded 4 70).mem.wf ∧ (seeded 4 70).SpansOk ∧ 1 ≤ 3 ∧ 3 < 8 ∧ 3 < 16 ∧ 3 < 32 ∧ 1 + 3 < (seeded 4 70).lane.dstSize :=
  ⟨seeded_ok.1, seeded_ok.2, by decide⟩

theorem wit_OverlapStaysInPhase :
    (seeded 4 70).mem.wf ∧ (seeded 4 70).SpansOk ∧ 1 ≤ 7 ∧ 7 < 8 ∧ 7 < 16 ∧ 7 < 32 ∧ 0 + 7 < (seeded 4 70).lane.dstSize
      ∧ 0 ≤ 22 ∧ 22 < 0 + 7 + 2 * 8 ∧ 22 < (seeded 4 70).lane.dstSize :=
  ⟨seeded_ok.1, seeded_ok.2, by decide⟩

theorem wit_AdvanceTables : 1 ≤ 31 ∧ 31 < width 2 ∧ 1 ≤ 7 ∧ 7 < width 0 ∧ 1 ≤ 15 ∧ 15 < width 1 := by decide

/-- One operand outside each precondition, and one operation that runs. -/
theorem wit_MicroOpsRefuseOutsidePreconditions :
    (0 < 1) ∧ (8 ≤ 8) ∧ (9 ≠ 5 + 3) ∧ ((seeded 4 70).lane.dstSize ≤ 70) ∧ (17 < 10 + 8) ∧ (69 < 38 + 32)
      ∧ ((seeded 4 70).lane.srcSize + (seeded 4 70).params.slack < 63 + ceilTo 8 1) ∧ ((seeded 4 70).lane.dstSize < 63 + 8)
      ∧ ∃ u, exec (.copyOverlap8 3 0 3) (seeded 4 70) = .next u ∧ (fun _ => true) u = true := by
  refine ⟨by decide, by decide, by decide, by decide, by decide, by decide, by decide, by decide, ?_⟩
  exact next_of (by decide +kernel)

theorem wit_ReadTokenStep :
    ((atEnd .readToken).SpansOk ∧ (atEnd .readToken).lane.state = .readToken
        ∧ (atEnd .readToken).lane.srcSize ≤ (atEnd .readToken).lane.ip)
      ∧ ((start [0xF0#8] 100 0).SpansOk ∧ (start [0xF0#8] 100 0).lane.state = .readToken
        ∧ (start [0xF0#8] 100 0).lane.ip < (start [0xF0#8] 100 0).lane.srcSize) := by
  unfold State.SpansOk
  decide +kernel

/-- A lane inside an extension with one byte left. -/
def inExtension (st : LaneState) : State := lab [0xFF#8, 0x00#8] 100 fun l => { l with state := st, inExt := true, ip := 1 }

theorem wit_ExtensionBytesAdd :
    ((inExtension .extendLiteralLength).lane.inExt = true
        ∧ (inExtension .extendLiteralLength).lane.ip < (inExtension .extendLiteralLength).lane.srcSize)
      ∧ ((inExtension .extendMatchLength).lane.inExt = true
        ∧ (inExtension .extendMatchLength).lane.ip < (inExtension .extendMatchLength).lane.srcSize)
      ∧ ((atEnd .extendLiteralLength).lane.inExt = true
        ∧ (atEnd .extendLiteralLength).lane.srcSize ≤ (atEnd .extendLiteralLength).lane.ip)
      ∧ ((atEnd .extendMatchLength).lane.inExt = true
        ∧ (atEnd .extendMatchLength).lane.srcSize ≤ (atEnd .extendMatchLength).lane.ip) := by decide

/-- The start of step 2 or 5, with the given token and length code. -/
def beforeExtension (st : LaneState) (tok : Byte) (len : Nat) : State :=
  lab blockP2 11 fun l => { l with state := st, tok := tok, len := len }

theorem wit_ExtensionOnlyForCodeFifteen :
    ((beforeExtension .extendLiteralLength 0xF0#8 15).SpansOk ∧ (beforeExtension .extendLiteralLength 0xF0#8 15).lane.inExt = false
        ∧ (beforeExtension .extendLiteralLength 0xE0#8 14).SpansOk)
      ∧ (beforeExtension .extendMatchLength 0x0F#8 0).SpansOk ∧ (beforeExtension .extendMatchLength 0x0E#8 0).SpansOk := by
  unfold State.SpansOk
  decide +kernel

/-- A lane at CopyLiterals, `OP` = 3 and `IP` = 7 in P2, with a literal length and an output size. -/
def atLiterals (len d : Nat) : State :=
  lab blockP2 d fun l => { l with state := .copyLiterals, ip := 7, op := 3, len := len }

theorem wit_CopyLiteralsStep :
    ((atLiterals 2 4).mem.wf ∧ (atLiterals 2 4).SlackOk ∧ (atLiterals 2 4).SpansOk
        ∧ (atLiterals 2 4).lane.dstSize < (atLiterals 2 4).lane.op + (atLiterals 2 4).lane.len)
      ∧ ((atLiterals 3 6).mem.wf ∧ (atLiterals 3 6).SlackOk ∧ (atLiterals 3 6).SpansOk
        ∧ (atLiterals 3 6).lane.op + (atLiterals 3 6).lane.len ≤ (atLiterals 3 6).lane.dstSize
        ∧ (atLiterals 3 6).lane.srcSize < (atLiterals 3 6).lane.ip + (atLiterals 3 6).lane.len)
      ∧ ((atLiterals 2 5).mem.wf ∧ (atLiterals 2 5).SlackOk ∧ (atLiterals 2 5).SpansOk
        ∧ (atLiterals 2 5).lane.op + (atLiterals 2 5).lane.len = (atLiterals 2 5).lane.dstSize
        ∧ (atLiterals 2 5).lane.ip + (atLiterals 2 5).lane.len ≤ (atLiterals 2 5).lane.srcSize)
      ∧ ((atLiterals 2 6).SpansOk
        ∧ (atLiterals 2 6).lane.op + (atLiterals 2 6).lane.len < (atLiterals 2 6).lane.dstSize) := by
  unfold State.SpansOk State.SlackOk
  decide +kernel

/-- A lane at ReadMatch with `OP` = 3 and the given number of stream bytes left. -/
def atOffset (left : Nat) : State := lab blockP2 11 fun l => { l with state := .readMatch, ip := 9 - left, op := 3 }

theorem wit_OffsetFieldStep :
    ((atOffset 1).lane.state = .readMatch ∧ (atOffset 1).lane.ip ≤ (atOffset 1).lane.srcSize
        ∧ (atOffset 1).lane.srcSize - (atOffset 1).lane.ip < 2)
      ∧ ((atOffset 2).lane.state = .readMatch ∧ (atOffset 2).lane.ip ≤ (atOffset 2).lane.srcSize
        ∧ 2 ≤ (atOffset 2).lane.srcSize - (atOffset 2).lane.ip)
      ∧ (0#16).toNat = 0 ∧ (atOffset 2).lane.op < (4#16).toNat ∧ (3#16).toNat ≤ (atOffset 2).lane.op ∧ 1 ≤ (1#16).toNat := by decide

/-- A lane at CopyMatch with `OP` = 3, `OFF` = 3 and the given length and output size. -/
def atMatch (len d : Nat) : State :=
  lab blockP2 d fun l => { l with state := .copyMatch, ip := 6, op := 3, off := 3#16, mp := 0, len := len }

theorem wit_CopyMatchStep :
    ((atMatch 6 8).mem.wf ∧ (atMatch 6 8).SpansOk ∧ Config.minMatch ≤ (atMatch 6 8).lane.len
        ∧ 1 ≤ (atMatch 6 8).lane.off.toNat ∧ (atMatch 6 8).lane.off.toNat ≤ (atMatch 6 8).lane.op
        ∧ (atMatch 6 8).lane.mp = (atMatch 6 8).lane.op - (atMatch 6 8).lane.off.toNat
        ∧ (atMatch 6 8).lane.dstSize < (atMatch 6 8).lane.op + (atMatch 6 8).lane.len)
      ∧ ((atMatch 6 9).mem.wf ∧ (atMatch 6 9).SpansOk
        ∧ (atMatch 6 9).lane.op + (atMatch 6 9).lane.len ≤ (atMatch 6 9).lane.dstSize) := by
  unfold State.SpansOk
  decide +kernel

/-- At a boundary, in decidable words. -/
theorem atBoundary_of {s : State} (h : Config.minSlack ≤ s.params.slack
    ∧ (s.lane.srcBase + s.lane.srcSize + s.params.slack ≤ Config.addrLimit
      ∧ s.lane.dstBase + s.lane.dstSize ≤ Config.addrLimit
      ∧ spanProblem s.params.slack s.regions s.lane.srcBase s.lane.srcSize s.lane.dstBase s.lane.dstSize = none)
    ∧ s.lane.state = .readToken ∧ s.lane.ip ≤ s.lane.srcSize ∧ s.lane.op ≤ s.lane.dstSize) : s.AtBoundary := h

/-- R163's example: `SEQ`, L = 3, M = 6, offset 3; the sequence ends at 6. -/
theorem wit_NonFinalSequencesRun_seq :
    (start blockP2 11 0).mem.wf ∧ (start blockP2 11 0).AtBoundary
      ∧ NonFinalAt (start blockP2 11 0) (tokenByte 3#4 2#4) 3 1 3 6 6 :=
  ⟨by decide, atBoundary_of (by decide +kernel), by unfold NonFinalAt; decide +kernel⟩

/-- R164: `SEQ.XL` with L = 15, the shortest it can be, and M = 4. -/
def blockXL : List Byte := [0xF0, 0x00] ++ List.replicate 15 0x55 ++ [0x01, 0x00]

theorem wit_NonFinalSequencesRun_seqXL :
    (start blockXL 30 0).mem.wf ∧ (start blockXL 30 0).AtBoundary
      ∧ NonFinalAt (start blockXL 30 0) (tokenByte 15#4 0#4) 15 2 1 4 19 :=
  ⟨by decide, atBoundary_of (by decide +kernel), by unfold NonFinalAt; decide +kernel⟩

/-- R165: `SEQ.XM` with M = 19, the shortest it can be; the match ends exactly at D. -/
theorem wit_NonFinalSequencesRun_seqXM :
    (start [0x2F, 0x61, 0x62, 0x02, 0x00, 0x00] 21 1).mem.wf ∧ (start [0x2F, 0x61, 0x62, 0x02, 0x00, 0x00] 21 1).AtBoundary
      ∧ NonFinalAt (start [0x2F, 0x61, 0x62, 0x02, 0x00, 0x00] 21 1) (tokenByte 2#4 15#4) 2 1 2 19 6 :=
  ⟨by decide, atBoundary_of (by decide +kernel), by unfold NonFinalAt; decide +kernel⟩

/-- R166's example. -/
def blockXLXM : List Byte := [0xFF, 0x00] ++ List.replicate 15 0x55 ++ [0x0F, 0x00, 0x00]

theorem wit_NonFinalSequencesRun_seqXLXM :
    (start blockXLXM 40 2).mem.wf ∧ (start blockXLXM 40 2).AtBoundary
      ∧ NonFinalAt (start blockXLXM 40 2) 0xFF#8 15 2 15 19 20 :=
  ⟨by decide, atBoundary_of (by decide +kernel), by unfold NonFinalAt; decide +kernel⟩

theorem wit_FinalSequencesSucceed_seq :
    (start blockHello 5 0).mem.wf ∧ (start blockHello 5 0).AtBoundary ∧ FinalAt (start blockHello 5 0) (tokenByte 5#4 0#4) 5 1 :=
  ⟨by decide, atBoundary_of (by decide +kernel), by unfold FinalAt; decide +kernel⟩

theorem wit_FinalSequencesSucceed_seqXL :
    (start blockXL 15 0).mem.wf ∧ (start blockXL 15 0).AtBoundary ∧ FinalAt (start blockXL 15 0) (tokenByte 15#4 0#4) 15 2 :=
  ⟨by decide, atBoundary_of (by decide +kernel), by unfold FinalAt; decide +kernel⟩

theorem wit_FinalSequencesSucceed_seqXM :
    (lab [0x0F] 3 fun l => { l with state := .readToken, op := 3 }).mem.wf
      ∧ (lab [0x0F] 3 fun l => { l with state := .readToken, op := 3 }).AtBoundary
      ∧ FinalAt (lab [0x0F] 3 fun l => { l with state := .readToken, op := 3 }) (tokenByte 0#4 15#4) 0 1 :=
  ⟨by decide, atBoundary_of (by decide +kernel), by unfold FinalAt; decide +kernel⟩

theorem wit_FinalSequencesSucceed_seqXLXM :
    (start blockXLXM 15 2).mem.wf ∧ (start blockXLXM 15 2).AtBoundary ∧ FinalAt (start blockXLXM 15 2) 0xFF#8 15 2 :=
  ⟨by decide, atBoundary_of (by decide +kernel), by unfold FinalAt; decide +kernel⟩

theorem wit_SequenceAgreesWithReference :
    (start blockP2 11 0).mem.wf ∧ (start blockP2 11 0).AtBoundary ∧ (start blockP2 11 0).lane.fcause = .none
      ∧ (start blockP2 11 0).lane.ip < (start blockP2 11 0).lane.srcSize :=
  ⟨by decide, atBoundary_of (by decide +kernel), by decide, by decide⟩

theorem wit_ElementsOutOfPlaceAreRefused :
    State.reset.lane.state ≠ .readToken ∧ State.reset.lane.state ≠ .readMatch ∧ State.reset.lane.inExt = false := by decide

theorem wit_FailureRecordsCauseAndCursors :
    (atEnd .readToken).lane.state.decoding = true ∧ (atEnd .readToken).SlackOk
      ∧ ∃ t, laneStep (atEnd .readToken) = .next t ∧ decide (t.lane.state = .failed) = true := by
  refine ⟨by decide, by unfold State.SlackOk; decide, next_of (by decide +kernel)⟩

theorem wit_DiagnosticsChangeOnlyAtFailure :
    (∃ t, exec .extCont (inExtension .extendLiteralLength) = .next t ∧ (fun _ => true) t = true)
      ∧ (∃ t, laneStep (atEnd .readToken) = .next t ∧ (fun _ => true) t = true)
      ∧ ∃ t, exec (.decompress (command blockHello 5)) (ready blockHello 5) = .next t ∧ (fun _ => true) t = true :=
  ⟨next_of (by decide +kernel), next_of (by decide +kernel), next_of (by decide +kernel)⟩

/-- A response, after which `RESULT` is 1. -/
theorem wit_ResultWrittenOnlyAtResponse :
    ∃ t, laneStep (lab blockHello 5 fun l => { l with state := .done }) = .next t ∧ t.lane.result = true :=
  next_of (p := fun t => t.lane.result) (by decide +kernel)

theorem wit_CommandRegistersStayLatched :
    (∃ t, exec (.select 0) (start blockP2 11 0) = .next t ∧ (fun _ => true) t = true)
      ∧ ∃ t, laneStep (start blockP2 11 0) = .next t ∧ (fun _ => true) t = true :=
  ⟨next_of (by decide +kernel), next_of (by decide +kernel)⟩

theorem wit_OnlyTheOutputIsWritten :
    (start blockP2 11 2).SpansOk ∧ 72 < (start blockP2 11 2).lane.srcSize + (start blockP2 11 2).params.slack
      ∧ (∃ t, exec (.seq 3#4 2#4) (start blockP2 11 2) = .next t ∧ (fun _ => true) t = true)
      ∧ ∃ t, laneStep (start blockP2 11 2) = .next t ∧ (fun _ => true) t = true :=
  ⟨by unfold State.SpansOk; decide +kernel, by decide, next_of (by decide +kernel), next_of (by decide +kernel)⟩

theorem wit_CommittedPrefixIsFinal :
    (atMatch 6 9).lane.state.decoding = true ∧ 2 < (atMatch 6 9).lane.op
      ∧ ∃ t, laneStep (atMatch 6 9) = .next t ∧ (fun _ => true) t = true :=
  ⟨by decide, by decide, next_of (by decide +kernel)⟩

/-- Literals; a match of 2W; a match of 2W + 1 (W = 8). -/
theorem wit_WildRegionIsBounded :
    (∃ t, laneStep (atLiterals 2 40) = .next t ∧ (fun _ => true) t = true)
      ∧ ((atMatch 16 60).lane.len ≤ 2 * (atMatch 16 60).W
        ∧ ∃ t, laneStep (atMatch 16 60) = .next t ∧ (fun _ => true) t = true)
      ∧ (2 * (atMatch 17 60).W < (atMatch 17 60).lane.len
        ∧ ∃ t, laneStep (atMatch 17 60) = .next t ∧ (fun _ => true) t = true) :=
  ⟨next_of (by decide +kernel), ⟨by decide, next_of (by decide +kernel)⟩, by decide, next_of (by decide +kernel)⟩

theorem wit_LaneStepKeepsTheRest :
    (State.reset.lane.state = .idle ∧ laneStep State.reset = .next State.reset)
      ∧ ∃ t, laneStep (atMatch 6 9) = .next t ∧ (fun _ => true) t = true :=
  ⟨⟨rfl, rfl⟩, next_of (by decide +kernel)⟩

/-- Two commands: the acting lane decodes P2, the other one has its spans above. -/
def twoRunning : State :=
  { start blockP2 11 0 with
    regions := [⟨0, 73, false⟩, ⟨0x1000, 11, true⟩, ⟨0x2000, 0x200, true⟩]
    lanesAbove := [{ Lane.reset with state := .readToken, srcBase := 0x2000, srcSize := 6, dstBase := 0x2100, dstSize := 5 }] }

/-- The invariants' parts of a small state, in decidable words. -/
theorem twoRunning_inv : RegistersFit twoRunning ∧ ClockAndLockInv twoRunning := by
  refine ⟨⟨?_, ?_, ?_⟩, ?_⟩
  · unfold ContractInv Lane.Contract Lane.Apart
    refine ⟨by decide, by decide, by decide, ?_, ?_⟩ <;> decide +kernel
  · unfold CursorInv Lane.CursorsOk
    decide +kernel
  · unfold Lane.LengthOk Lane.Fits
    decide +kernel
  · unfold ClockAndLockInv
    decide +kernel

theorem wit_OtherCommandsAreUndisturbed :
    ContractInv twoRunning ∧ CursorInv twoRunning
      ∧ (∃ l ∈ twoRunning.otherLanes, l.holdsSpans = true ∧ l.InSpans twoRunning.params.slack 0x2104)
      ∧ ∃ t, laneStep twoRunning = .next t ∧ (fun _ => true) t = true := by
  refine ⟨twoRunning_inv.1.1, twoRunning_inv.1.2.1, ?_, next_of (by decide +kernel)⟩
  unfold Lane.InSpans InSource InDest
  decide +kernel

theorem wit_MicroStepsComposeToSequence :
    (start blockP2 11 0).mem.wf ∧ (start blockP2 11 0).AtBoundary
      ∧ ∃ t, laneStep (start blockP2 11 0) = .next t ∧ (fun _ => true) t = true :=
  ⟨by decide, atBoundary_of (by decide +kernel), next_of (by decide +kernel)⟩

theorem start_atStart : (start blockP2 11 0).AtStart ∧ (start blockP2 11 2).AtStart :=
  ⟨⟨atBoundary_of (by decide +kernel), by decide⟩, ⟨atBoundary_of (by decide +kernel), by decide⟩⟩

theorem wit_BoundaryFollowsReference :
    (start blockP2 11 0).AtStart ∧ (start blockP2 11 0).mem.wf
      ∧ RefReaches (start blockP2 11 0).block 11 (start blockP2 11 0).lane.ip ((start blockP2 11 0).output 0)
      ∧ ∃ t, laneStep (start blockP2 11 0) = .next t ∧ decide (t.lane.state = .readToken) = true :=
  ⟨start_atStart.1, by decide, RefReaches.start, next_of (by decide +kernel)⟩

theorem wit_DecodeMatchesReference : (start blockP2 11 0).mem.wf ∧ (start blockP2 11 0).AtStart :=
  ⟨by decide, start_atStart.1⟩

/-- Two widths, and a DST that held something else before. -/
theorem wit_OutcomeDependsOnBlockAndSizeOnly :
    (start blockP2 11 0).mem.wf ∧ ((start blockP2 11 2).dstWrite 0 [1, 2, 3]).mem.wf
      ∧ (start blockP2 11 0).AtStart ∧ ((start blockP2 11 2).dstWrite 0 [1, 2, 3]).AtStart
      ∧ (start blockP2 11 0).block = ((start blockP2 11 2).dstWrite 0 [1, 2, 3]).block :=
  ⟨by decide, by decide +kernel, start_atStart.1, start_atStart.2, by decide +kernel⟩

/-- A command that keeps the contract, for each D. -/
theorem command_kept {block : List Byte} {d : Nat}
    (h : (contractProblem (command block d) (ready block d)).isNone = true) :
    ¬ ContractBroken (command block d) (ready block d) :=
  (contractProblem_eq_none _ _).mp (by simpa using h)

theorem wit_ContractDecidesTheCommand :
    ¬ ContractBroken (command blockHello 5) (ready blockHello 5)
      ∧ ContractBroken (command blockHello 5) (start blockHello 5 0) :=
  ⟨command_kept (by decide +kernel), .inl (by decide)⟩

theorem wit_ZeroSizeCommandSucceeds :
    (¬ ContractBroken (command blockHello 0) (ready blockHello 0) ∧ (command blockHello 0).destSize = 0)
      ∧ (¬ ContractBroken (command [] 7) (ready [] 7) ∧ (command [] 7).sourceSize = 0) :=
  ⟨⟨command_kept (by decide +kernel), rfl⟩, command_kept (by decide +kernel), rfl⟩

theorem wit_SmallCommandStartsNarrowest :
    ¬ ContractBroken (command blockHello 32767) (ready blockHello 32767) ∧ 0 < (command blockHello 32767).sourceSize
      ∧ 0 < (command blockHello 32767).destSize ∧ (command blockHello 32767).destSize < 32768 :=
  ⟨command_kept (by decide +kernel), by decide, by decide, by decide⟩

theorem wit_MeasuredCommandSelectsAndTimes :
    (¬ ContractBroken (command blockHello 32768) (ready blockHello 32768) ∧ 0 < (command blockHello 32768).sourceSize
        ∧ 32768 ≤ (command blockHello 32768).destSize
        ∧ (ready blockHello 32768).ctxs[0]? = some Context.reset ∧ Context.reset.lock = false)
      ∧ ¬ ContractBroken (command blockHello 32768) { ready blockHello 32768 with ctxs := [{ Context.reset with lock := true }] } := by
  refine ⟨⟨command_kept (by decide +kernel), by decide, by decide, rfl, rfl⟩, ?_⟩
  rw [← contractProblem_eq_none]
  decide +kernel

/-- A lane whose decode has ended, with an output size. -/
def ended (d : Nat) (st : LaneState) : State := lab blockHello d fun l => { l with state := st }

theorem wit_UnmeasuredCommandResponds :
    ((ended 32767 .done).lane.state = .done ∧ (ended 32767 .done).lane.dstSize < 32768)
      ∧ ((ended 1 .failed).lane.state = .failed ∧ (ended 1 .failed).lane.dstSize < 32768)
      ∧ (lab [] 40000 fun l => { l with state := .done }).lane.srcSize = 0 := by decide

theorem wit_MeasuredCommandUpdatesAndResponds :
    ((ended 32768 .done).lane.state = .done ∧ (ended 32768 .failed).lane.state = .failed)
      ∧ 0 < (ended 32768 .done).lane.srcSize ∧ 32768 ≤ (ended 32768 .done).lane.dstSize
      ∧ (ended 32768 .done).ctxs[(ended 32768 .done).lane.ctx]? = some Context.reset ∧ Context.reset.lock = false
      ∧ (ended 32768 .done).lane.t0 ≤ (ended 32768 .done).time := by
  refine ⟨by decide, by decide, by decide, rfl, rfl, by decide⟩

theorem wit_CommandReturnsReferenceResult :
    (ready blockHello 5).mem.wf ∧ (ready blockHello 5).SlackOk
      ∧ ¬ ContractBroken (command blockHello 5) (ready blockHello 5) ∧ 0 < (command blockHello 5).sourceSize
      ∧ 0 < (command blockHello 5).destSize ∧ ∀ c ∈ (ready blockHello 5).ctxs, c.lock = false :=
  ⟨by decide, by unfold State.SlackOk; decide, command_kept (by decide +kernel), by decide, by decide, by decide⟩

theorem wit_SelectResult :
    (State.reset.ctxs[0]? = some Context.reset ∧ Context.reset.lock = false)
      ∧ (withContext { Context.reset with lock := true }).ctxs[0]? = some { Context.reset with lock := true }
      ∧ State.reset.ctxs.length ≤ 1
      ∧ 2 % 64 < 3 ∧ 3 ≤ 3 % 64 ∧ 3 ≤ 63 % 64 := by
  refine ⟨⟨rfl, rfl⟩, rfl, by decide, by decide, by decide, by decide⟩

theorem wit_UpdateResult :
    (State.reset.ctxs[0]? = some Context.reset ∧ Context.reset.lock = false ∧ Context.reset.cnt[(0 : Variant)] = 0#32)
      ∧ (context 1 2 3 1 0 0 0).cnt[(0 : Variant)] ≠ 0#32
      ∧ (withContext { Context.reset with lock := true }).ctxs[0]? = some { Context.reset with lock := true }
      ∧ State.reset.ctxs.length ≤ 1 := by
  refine ⟨⟨rfl, rfl, by decide⟩, by decide, rfl, by decide⟩

/-- A history across the wrap of `CALLS`, with an UPDATE of variant 1 after each SELECT. -/
def historyAt (k : Nat) : Context :=
  { context 5 (9 + k % 2) 8 0 (k + 1) 0 0 with calls := 0xFFFFFFE0#32 + BitVec.ofNat 32 k }

theorem wit_SelectorExploresAndExploits :
    SelectHistory historyAt
      ∧ ∀ k, k < 64 → ∀ u : Variant, u ≠ 1 → (historyAt (0 + k)).est[u] < (historyAt (0 + k)).est[(1 : Variant)] :=
  ⟨fun k => by simp only [historyAt, BitVec.ofNat_add, BitVec.add_assoc], by decide +kernel⟩

/-- A step of the core from a state that meets every invariant. -/
theorem twoRunning_steps : ∃ t, step twoRunning = .next t ∧ (fun _ => true) t = true := next_of (by decide +kernel)

theorem wit_TimeNeverDecreases : ∃ t, step twoRunning = .next t ∧ (fun _ => true) t = true := twoRunning_steps

theorem wit_MemoryStaysCanonical : twoRunning.mem.wf ∧ ∃ t, step twoRunning = .next t ∧ (fun _ => true) t = true :=
  ⟨by decide, twoRunning_steps⟩

theorem wit_ContractsStayMet : ContractInv twoRunning ∧ ∃ t, step twoRunning = .next t ∧ (fun _ => true) t = true :=
  ⟨twoRunning_inv.1.1, twoRunning_steps⟩

theorem wit_CursorsStayInOrder : CursorInv twoRunning ∧ ∃ t, step twoRunning = .next t ∧ (fun _ => true) t = true :=
  ⟨twoRunning_inv.1.2.1, twoRunning_steps⟩

theorem wit_LocksAreFreeBetweenSteps : ClockAndLockInv twoRunning ∧ ∃ t, step twoRunning = .next t ∧ (fun _ => true) t = true :=
  ⟨twoRunning_inv.2, twoRunning_steps⟩

theorem wit_RegistersNeverOverflow : RegistersFit twoRunning ∧ ∃ t, step twoRunning = .next t ∧ (fun _ => true) t = true :=
  ⟨twoRunning_inv.1, twoRunning_steps⟩

/-- The host stores just below the running command's output. -/
theorem wit_HostKeepsOffRunningSpans :
    (∃ t, hostStep { start blockP2 11 0 with host := [.store 0xFFF [1#8]] } = .next t ∧ (fun _ => true) t = true)
      ∧ ∃ l ∈ (start blockP2 11 0).lanes, l.holdsSpans = true ∧ l.InSpans 64 0x1000 := by
  refine ⟨next_of (by decide +kernel), ?_⟩
  unfold Lane.InSpans InSource InDest
  decide +kernel

theorem wit_CommandsRunToTheirResponse :
    (∃ t, hostStep twoRunning = .next t ∧ (fun _ => true) t = true)
      ∧ (twoRunning.lanes[1]?.map (·.state) = some .readToken)
      ∧ ContractInv twoRunning ∧ CursorInv twoRunning ∧ ClockAndLockInv twoRunning ∧ twoRunning.agenda = [] :=
  ⟨next_of (by decide +kernel), rfl, twoRunning_inv.1.1, twoRunning_inv.1.2.1, twoRunning_inv.2, rfl⟩

end Sys2Proof.Tests
end

namespace Sys2Proof.Machine

/-! ### `VEC` keeps its 32 bytes (R26) -/

/-- What a step leaves in `VEC` still fills the register: 32 bytes, the lanes of the widest stride (R26). -/
def VecKept (s t : State) : Prop := s.lane.vec.length = 32 → t.lane.vec.length = 32

theorem VecKept.trans {s t u : State} (h : VecKept s t) (h' : VecKept t u) : VecKept s u := fun hs => h' (h hs)

/-- Other registers play no part. -/
theorem VecKept.ofLane {s t : State} {l : Lane} (h : VecKept (s.withLane l) t) (hl : l.vec = s.lane.vec) :
    VecKept s t := fun hs => h (by rwa [State.withLane_lane, hl])

theorem State.loadVec_vecKept (s : State) {bs : List Byte} (h : bs.length ≤ 32) : VecKept s (s.loadVec bs) := by
  intro hs
  simp only [State.loadVec_lane, List.length_append, List.length_drop]
  omega

theorem strideOut_vecKept {w : Nat} (hw : w ≤ 32) (t src : Nat) (s : State) : VecKept s (strideOut w t src s) :=
  s.loadVec_vecKept (by simp only [State.length_dstRead, activeLanes]; omega)

theorem strideIn_vecKept {w : Nat} (hw : w ≤ 32) (t src : Nat) (s : State) : VecKept s (strideIn w t src s) :=
  s.loadVec_vecKept (by simp only [State.length_srcRead, activeLanes]; omega)

theorem stridesOut_vecKept {w : Nat} (hw : w ≤ 32) (t src n : Nat) (s : State) :
    VecKept s (stridesOut w t src n s) := by
  induction n generalizing t src s with
  | zero => exact id
  | succ n ih => exact (strideOut_vecKept hw t src s).trans (ih _ _ _)

theorem stridesIn_vecKept {w : Nat} (hw : w ≤ 32) (t src n : Nat) (s : State) :
    VecKept s (stridesIn w t src n s) := by
  induction n generalizing t src s with
  | zero => exact id
  | succ n ih => exact (strideIn_vecKept hw t src s).trans (ih _ _ _)

theorem wildCopyOut_vecKept {w : Nat} (hw : w ≤ 32) (t src size : Nat) (s : State) :
    VecKept s (wildCopyOut w t src size s) := stridesOut_vecKept hw t src _ s

theorem wildCopyIn_vecKept {w : Nat} (hw : w ≤ 32) (t src size : Nat) (s : State) :
    VecKept s (wildCopyIn w t src size s) := stridesIn_vecKept hw t src _ s

theorem copyFromOutput_vecKept {w : Nat} (hw : w ≤ 32) (t src : Nat) (s : State) :
    VecKept s (copyFromOutput w t src s) := strideOut_vecKept hw t src s

/-- The seed of an overlap copy and its permutation both fit the register (R124, R127). -/
theorem overlapShuffle_vecKept {w n : Nat} (hw : w ≤ 32) (hn : n ≤ 32) (t m : Nat) (s : State) :
    VecKept s (overlapShuffle w t m n s) :=
  (s.loadVec_vecKept (bs := s.dstRead m n) (by simpa using hn)).trans
    (State.loadVec_vecKept _ (by simpa [permuted, permRow] using hw))

theorem overlapBytes_lane (t m k : Nat) (s : State) : (overlapBytes t m k s).lane = s.lane := by
  induction k generalizing t m s with
  | zero => rfl
  | succ k ih => exact ih _ _ _

/-- The scalar overlap copy does not use the registers of the lane at all (R128). -/
theorem overlapScalar_lane (w t m n : Nat) (s : State) : (overlapScalar w t m n s).lane = s.lane := by
  have h4 := overlapBytes_lane t m 4 s
  unfold overlapScalar
  split <;> split <;> exact h4

theorem copyOverlap_vecKept {w n : Nat} (hw : w ≤ 32) (hn : n ≤ 32) (t m : Nat) (s : State) :
    VecKept s (copyOverlap w t m n s) := by
  unfold copyOverlap VecKept
  cases s.params.ocpuImpl with
  | shuffle => exact overlapShuffle_vecKept hw hn t m s
  | scalar => simp [overlapScalar_lane]

theorem firstMatchStride_vecKept (s : State) : VecKept s (firstMatchStride s) := by
  have hW : s.W ≤ 32 := width_le _
  unfold firstMatchStride
  split
  · exact copyOverlap_vecKept hW (by omega) _ _ s
  · exact copyFromOutput_vecKept hW _ _ s

theorem matchStrides_vecKept (s : State) : VecKept s (matchStrides s) := by
  have hfirst := firstMatchStride_vecKept s
  unfold matchStrides
  generalize firstMatchStride s = u at hfirst ⊢
  have hW : (u.withLane { u.lane with op := u.lane.op + u.W }).W ≤ 32 := width_le _
  exact hfirst.trans ((copyFromOutput_vecKept hW _ _ _).ofLane rfl)

theorem copyMatch_vecKept (s : State) : VecKept s (copyMatch s).state := by
  have hstrides := (matchStrides_vecKept (s.withLane { s.lane with cend := s.lane.op + s.lane.len })).ofLane rfl
  unfold copyMatch
  simp only
  generalize matchStrides (s.withLane { s.lane with cend := s.lane.op + s.lane.len }) = u at hstrides ⊢
  have hW : u.W ≤ 32 := width_le _
  split
  · exact id
  · split
    · split
      · exact hstrides
      · exact hstrides.trans (wildCopyOut_vecKept hW _ _ _ u)
    · exact hstrides

/-! ### The moves of a decode: every change a decoding lane's registers can make -/

/-- A lane stands at one of the two steps that read extension bytes (R154, R160). -/
def Lane.AtExtension (l : Lane) : Prop := l.state = .extendLiteralLength ∨ l.state = .extendMatchLength

theorem Lane.AtExtension.decoding {l : Lane} (h : l.AtExtension) : l.state.decoding = true := by
  rcases h with hs | hs <;> rw [hs] <;> rfl

/-- One change of a decoding lane's registers, with the guard the decoder has established for it. Every step of a
decode, at the grain of a whole sequence or finer, is a chain of these (`laneStep_moves`), so what each of them keeps,
every step keeps. -/
inductive Lane.Move (l : Lane) : Lane → Prop
  /-- Failure entry (R240). -/
  | fail (c : Cause) (hd : l.state.decoding = true) (hc : c ≠ .none) :
      l.Move { l with fcause := c, fip := l.ip, fop := l.op, state := .failed, inExt := false }
  /-- ReadToken takes the token (R152). -/
  | token (tok : Byte) (hs : l.state = .readToken) (hip : l.ip < l.srcSize) :
      l.Move { l with
        tok := tok, ip := l.ip + 1, len := literalCode tok, state := .extendLiteralLength, inExt := false }
  /-- Extension bytes are added, each at most 255 (R153). -/
  | extend (ip len : Nat) (hs : l.AtExtension)
      (hip : l.ip ≤ ip) (hmax : ip ≤ max l.ip l.srcSize) (hlen : len ≤ l.len + 255 * (ip - l.ip)) :
      l.Move { l with ip := ip, len := len }
  /-- An extension begins or ends (R153). -/
  | inExt (b : Bool) (hs : l.AtExtension) :
      l.Move { l with inExt := b }
  /-- On to CopyLiterals (R154). -/
  | literals (hs : l.state = .extendLiteralLength) (hx : l.inExt = false) : l.Move { l with state := .copyLiterals }
  /-- A copy's end is computed (R155, R161). -/
  | cend (hs : l.state = .copyLiterals ∨ l.state = .copyMatch) : l.Move { l with cend := l.op + l.len }
  /-- Strides pass through `VEC` (R26). -/
  | vec (bs : List Byte) (hlen : l.vec.length = 32 → bs.length = 32) : l.Move { l with vec := bs }
  /-- The final sequence succeeds (R157). -/
  | succeed (hs : l.state = .copyLiterals) : l.Move { l with state := .done }
  /-- Both cursors pass the literals (R157). -/
  | advance (hs : l.state = .copyLiterals) (hop : l.op + l.len < l.dstSize) (hip : l.ip + l.len ≤ l.srcSize) :
      l.Move { l with ip := l.ip + l.len, op := l.op + l.len, state := .readMatch }
  /-- ReadMatch takes the offset (R158). -/
  | offset (off : Half) (hs : l.state = .readMatch) (hip : l.ip + 2 ≤ l.srcSize) :
      l.Move { l with off := off, ip := l.ip + 2 }
  /-- The match pointer is set (R159). -/
  | pointer (hs : l.state = .readMatch) (hpos : 1 ≤ l.off.toNat) (hop : l.off.toNat ≤ l.op) :
      l.Move { l with mp := l.op - l.off.toNat, state := .extendMatchLength }
  /-- The match-length code is loaded (R160). -/
  | matchCode (n : Nat) (hs : l.state = .extendMatchLength) (hn : n ≤ 15) : l.Move { l with len := n }
  /-- The bias is added (R160). -/
  | bias (hs : l.state = .extendMatchLength) (hx : l.inExt = false) :
      l.Move { l with len := l.len + Config.minMatch, state := .copyMatch }
  /-- The match is copied, and the next sequence begins; the match pointer has moved by two strides at most (R161). -/
  | matched (adv : Nat) (hs : l.state = .copyMatch) (hop : l.op + l.len ≤ l.dstSize) (hadv : adv ≤ 64) :
      l.Move { l with op := l.op + l.len, mp := l.mp + adv, state := .readToken }

/-- A chain of moves. -/
abbrev Lane.Moves : Lane → Lane → Prop := Relation.ReflTransGen Lane.Move

/-- What every move keeps, a chain keeps. -/
theorem Lane.Moves.keep {P : Lane → Prop} (hP : ∀ {l l'}, l.Move l' → P l → P l') {l l' : Lane} (h : l.Moves l')
    (hl : P l) : P l' := by
  induction h with
  | refl => exact hl
  | tail _ hm ih => exact hP hm ih

/-- A lane stands at a step of the decoder, outside any extension. -/
def Lane.At (l : Lane) (st : LaneState) : Prop := l.state = st ∧ l.inExt = false

/-- A part of the decoder, run on a lane `l`, made moves, and where it goes on it has come to the step `st`. -/
structure Flow.Reaches (fl : Flow) (l : Lane) (st : LaneState) : Prop where
  moves : l.Moves fl.state.lane
  goesOn : ∀ t, fl = .goesOn t → t.lane.At st

theorem Flow.Reaches.andThen {fl : Flow} {f : State → Flow} {l : Lane} {st st' : LaneState} (h : fl.Reaches l st)
    (hf : ∀ t : State, t.lane.At st → (f t).Reaches t.lane st') : (fl.andThen f).Reaches l st' := by
  cases fl with
  | ended t => exact ⟨h.moves, fun _ h => by cases h⟩
  | goesOn t => exact ⟨h.moves.trans (hf t (h.goesOn t rfl)).moves, (hf t (h.goesOn t rfl)).goesOn⟩

/-- A decode that has ended made its moves and goes on nowhere. -/
theorem Flow.Reaches.ended {l : Lane} {t : State} {st : LaneState} (h : l.Moves t.lane) :
    (Flow.ended t).Reaches l st := ⟨h, fun _ h => by cases h⟩

/-- A decode that goes on made its moves and stands where it goes on. -/
theorem Flow.Reaches.next {l : Lane} {t : State} {st : LaneState} (h : l.Moves t.lane) (ht : t.lane.At st) :
    (Flow.goesOn t).Reaches l st := ⟨h, fun _ h => by cases h; exact ht⟩

/-- A chain of moves that still decodes may end in a failure (R240). -/
theorem Lane.Moves.raise {l : Lane} {t : State} {c : Cause} (h : l.Moves t.lane) (hd : t.lane.state.decoding = true)
    (hc : c ≠ .none) : l.Moves (raiseFail c t).lane := h.tail (.fail c hd hc)

/-! ### Each step of the decoder as moves -/

theorem literalCode_le (tok : Byte) : literalCode tok ≤ 15 := by
  have := (tokLL tok).isLt
  unfold literalCode
  omega

theorem matchCode_le (tok : Byte) : matchCode tok ≤ 15 := by
  have := (tokML tok).isLt
  unfold matchCode
  omega

theorem readToken_reaches (tok : Byte) {s : State} (h : s.lane.state = .readToken) :
    (readToken tok s).Reaches s.lane .extendLiteralLength := by
  rcases readToken_cases tok s with ⟨-, he⟩ | ⟨hip, he⟩
  · rw [he]
    exact .ended (Lane.Moves.raise .refl (by rw [h]; rfl) (by decide))
  · rw [he]
    exact .next (.single (.token tok h hip)) ⟨rfl, rfl⟩

/-- EXTEND stays at its step, with the extension bytes added, or fails (R153). -/
theorem extend_reaches {cause : Cause} (hc : cause ≠ .none) {s : State} {st : LaneState} (h : s.lane.At st)
    (hst : st = .extendLiteralLength ∨ st = .extendMatchLength) : (extend cause s).Reaches s.lane st := by
  have hs : s.lane.AtExtension := by rwa [Lane.AtExtension, h.1]
  unfold extend
  rcases extendLoop_cases cause (s.lane.srcSize - s.lane.ip) s with
    ⟨len, ip, -, hlt, hle, -, hlen, he⟩ | ⟨len, ip, -, hle, hmax, -, hlen, he⟩
  · rw [he]
    exact .next (.single (.extend ip len hs (by omega) (by omega) hlen)) h
  · rw [he]
    exact .ended (Lane.Moves.raise (.single (.extend ip len hs hle hmax hlen)) hs.decoding hc)

/-- CopyLiterals fails, succeeds, or passes the literals and comes to ReadMatch (R155, R157). -/
theorem copyLiterals_reaches {s : State} (h : s.lane.At .extendLiteralLength ∨ s.lane.At .copyLiterals) :
    (copyLiterals s).Reaches s.lane .readMatch := by
  have hstart : s.lane.Moves { s.lane with state := .copyLiterals } := by
    rcases h with ⟨hs, hx⟩ | ⟨hs, -⟩
    · exact .single (.literals hs hx)
    · rw [← hs]
  have hx : s.lane.inExt = false := by rcases h with h | h <;> exact h.2
  have hcend : s.lane.Moves { s.lane with state := .copyLiterals, cend := s.lane.op + s.lane.len } :=
    hstart.tail (.cend (.inl rfl))
  have hfail : ∀ c : Cause, c ≠ .none →
      s.lane.Moves (raiseFail c (s.withLane { s.lane with cend := s.lane.op + s.lane.len })).lane :=
    fun c hc => hcend.tail (.fail c rfl hc)
  rcases copyLiterals_cases s with ⟨-, he⟩ | ⟨-, -, he⟩ | ⟨-, -, -, he⟩ | ⟨hop, hip, -, he⟩
  · rw [he]; exact .ended (hfail _ (by decide))
  · rw [he]; exact .ended (hfail _ (by decide))
  · rw [he]; exact .ended (hfail _ (by decide))
  · rw [he]
    have hl := (wildCopyIn_copyFrame s.W_pos s.lane.op s.lane.ip s.lane.len
      (s.withLane { s.lane with cend := s.lane.op + s.lane.len })).only.lane
    have hv : VecKept s (wildCopyIn s.W s.lane.op s.lane.ip s.lane.len
        (s.withLane { s.lane with cend := s.lane.op + s.lane.len })) :=
      (wildCopyIn_vecKept (width_le _ : s.W ≤ 32) _ _ _ _).ofLane rfl
    generalize wildCopyIn s.W s.lane.op s.lane.ip s.lane.len
      (s.withLane { s.lane with cend := s.lane.op + s.lane.len }) = t at hl hv ⊢
    simp only [State.withLane_lane] at hl
    have hvec := hcend.tail (.vec t.lane.vec hv)
    rcases finishLiterals_cases t with ⟨-, hf⟩ | ⟨hne, hf⟩
    · rw [hf]
      refine .ended ?_
      rw [succeed_lane, hl]
      exact hvec.tail (.succeed rfl)
    · rw [hf]
      rw [hl] at hne
      simp only at hne
      refine .next ?_ ⟨rfl, by rw [State.withLane_lane, hl]; exact hx⟩
      rw [State.withLane_lane, hl]
      exact hvec.tail (.advance rfl (by simp only; omega) hip)

/-- ReadMatch fails, or has a valid offset and comes to ExtendMatchLength (R158, R159). -/
theorem readOffset_reaches (off : Half) {s : State} (h : s.lane.At .readMatch) :
    (readOffset off s).Reaches s.lane .extendMatchLength := by
  obtain ⟨hs, hx⟩ := h
  have hd : s.lane.state.decoding = true := by rw [hs]; rfl
  rcases readOffset_cases off s with ⟨-, he⟩ | ⟨hip, he⟩
  · rw [he]
    exact .ended (Lane.Moves.raise .refl hd (by decide))
  rw [he]
  have htake : s.lane.Moves { s.lane with off := off, ip := s.lane.ip + 2 } := .single (.offset off hs (by omega))
  rcases takeOffset_cases off s with ⟨-, he⟩ | ⟨-, -, he⟩ | ⟨hne, hop, he⟩
  · rw [he]; exact .ended (htake.raise (t := s.withLane _) hd (by decide))
  · rw [he]; exact .ended (htake.raise (t := s.withLane _) hd (by decide))
  · have hpos : off.toNat ≠ 0 := fun h0 => hne (BitVec.eq_of_toNat_eq h0)
    rw [he]
    exact .next (htake.tail (.pointer hs (Nat.pos_of_ne_zero hpos) hop)) ⟨rfl, hx⟩

theorem addMinMatch_reaches {s : State} (h : s.lane.At .extendMatchLength) :
    (Flow.goesOn (addMinMatch s)).Reaches s.lane .copyMatch := .next (.single (.bias h.1 h.2)) ⟨rfl, h.2⟩

/-- The match length of a token without an extension (R163). -/
theorem loadAndAddMinMatch_reaches {s : State} (h : s.lane.At .extendMatchLength) :
    (Flow.goesOn (addMinMatch (loadMatchCode s))).Reaches s.lane .copyMatch := by
  have hload : s.lane.Move (loadMatchCode s).lane := .matchCode _ h.1 (matchCode_le _)
  exact .next (.head hload (.single (.bias h.1 h.2))) ⟨rfl, h.2⟩

/-- The match length of a token with an extension (R165). -/
theorem extendFifteen_reaches {s : State} (h : s.lane.At .extendMatchLength) :
    ((extend .matExtEos (s.withLane { s.lane with len := 15 })).andThen fun s => .goesOn (addMinMatch s)).Reaches
      s.lane .copyMatch := by
  have hload : s.lane.Move { s.lane with len := 15 } := .matchCode 15 h.1 (Nat.le_refl _)
  have hext := (extend_reaches (cause := .matExtEos) (by decide) (s := s.withLane { s.lane with len := 15 }) h
    (.inr rfl)).andThen (fun _ => addMinMatch_reaches)
  exact ⟨.head hload hext.moves, hext.goesOn⟩

/-- The first stride moves the match pointer by W at most (R126, R161). -/
theorem firstAdvance_le (w off : Nat) : firstAdvance w off ≤ w := by
  unfold firstAdvance advance
  have := Nat.mod_le w off
  split
  · split <;> omega
  · exact Nat.le_refl w

/-- CopyMatch fails, or copies the match and comes to the next sequence (R161, R162). -/
theorem copyMatch_reaches {s : State} (h : s.lane.At .copyMatch) : (copyMatch s).Reaches s.lane .readToken := by
  obtain ⟨hs, hx⟩ := h
  have hcend : s.lane.Moves { s.lane with cend := s.lane.op + s.lane.len } := .single (.cend (.inr hs))
  have hv := copyMatch_vecKept s
  rcases copyMatch_cases s with ⟨-, he⟩ | ⟨hop, t, he, hf, htop, htcend, htst, htmp⟩
  · rw [he]
    exact .ended (hcend.raise (t := s.withLane _) (by rw [State.withLane_lane]; simp only [hs]; rfl) (by decide))
  · rw [he] at hv ⊢
    have hadv : firstAdvance s.W s.lane.off.toNat + s.W ≤ 64 := by
      have := firstAdvance_le s.W s.lane.off.toNat
      have : s.W ≤ 32 := width_le _
      omega
    have hl : t.lane = { s.lane with
        op := s.lane.op + s.lane.len, mp := s.lane.mp + (firstAdvance s.W s.lane.off.toNat + s.W)
        cend := s.lane.op + s.lane.len, vec := t.lane.vec, state := .readToken } := by
      rw [hf.lane, htop, htcend, htst, htmp, Nat.add_assoc]
    refine .next ?_ ⟨htst, by rw [hl]; exact hx⟩
    rw [hl]
    exact (hcend.tail (.vec t.lane.vec hv)).tail (.matched _ hs hop hadv)

/-! ### Each stream element and each step of a lane as moves -/

/-- A sequence form that answers a next state stood at a token, so it made the moves its steps make from there. -/
theorem atToken_moves {s t : State} {k : State → Flow} {st : LaneState} (h : atToken s k = .next t)
    (hk : s.lane.state = .readToken → (k s).Reaches s.lane st) : s.lane.Moves t.lane := by
  obtain ⟨hs, -, rfl⟩ := atToken_next h
  exact (hk hs).moves

theorem execSeq_moves {ll ml : Nibble} {s t : State} (h : execSeq ll ml s = .next t) : s.lane.Moves t.lane :=
  atToken_moves h fun hs =>
    ((((readToken_reaches _ hs).andThen fun _ h => copyLiterals_reaches (.inl h)).andThen
      fun _ h => readOffset_reaches _ h).andThen fun _ h => loadAndAddMinMatch_reaches h).andThen
        fun _ h => copyMatch_reaches h

theorem execSeqXL_moves {ml : Nibble} {s t : State} (h : execSeqXL ml s = .next t) : s.lane.Moves t.lane :=
  atToken_moves h fun hs =>
    (((((readToken_reaches _ hs).andThen fun _ h => extend_reaches (by decide) h (.inl rfl)).andThen
      fun _ h => copyLiterals_reaches (.inl h)).andThen fun _ h => readOffset_reaches _ h).andThen
        fun _ h => loadAndAddMinMatch_reaches h).andThen fun _ h => copyMatch_reaches h

theorem execSeqXM_moves {ll : Nibble} {s t : State} (h : execSeqXM ll s = .next t) : s.lane.Moves t.lane :=
  atToken_moves h fun hs =>
    ((((readToken_reaches _ hs).andThen fun _ h => copyLiterals_reaches (.inl h)).andThen
      fun _ h => readOffset_reaches _ h).andThen fun _ h => extendFifteen_reaches h).andThen
        fun _ h => copyMatch_reaches h

theorem execSeqXLXM_moves {s t : State} (h : execSeqXLXM s = .next t) : s.lane.Moves t.lane :=
  atToken_moves h fun hs =>
    (((((readToken_reaches _ hs).andThen fun _ h => extend_reaches (by decide) h (.inl rfl)).andThen
      fun _ h => copyLiterals_reaches (.inl h)).andThen fun _ h => readOffset_reaches _ h).andThen
        fun _ h => extendFifteen_reaches h).andThen fun _ h => copyMatch_reaches h

/-- The cause a lane raises where the block ends is one of the causes of R231. -/
theorem eosCause_ne_none (st : LaneState) : eosCause st ≠ .none := by cases st <;> decide

theorem State.extending_iff (s : State) : s.extending = true ↔
    s.lane.inExt = true ∧ s.lane.AtExtension := by
  simp [State.extending, Lane.AtExtension]

/-- One extension byte is one move (R153). -/
theorem extendByte_move (b : Byte) {s : State} (hs : s.lane.AtExtension) (hip : s.lane.ip < s.lane.srcSize) :
    s.lane.Move (extendByte b s).lane :=
  .extend (s.lane.ip + 1) (s.lane.len + b.toNat) hs (by omega) (by omega) (by have := b.isLt; omega)

/-- The end of an extension comes to CopyLiterals or to CopyMatch (R154, R160). -/
theorem leaveExtension_moves {s : State} (hs : s.lane.AtExtension) : s.lane.Moves (leaveExtension s).lane := by
  have hout : s.lane.Move { s.lane with inExt := false } := .inExt false hs
  unfold leaveExtension
  rcases hs with hs | hs
  · simp only [State.withLane_lane, hs, reduceCtorEq, if_false]
    exact .head hout (.single (.literals hs rfl))
  · simp only [State.withLane_lane, hs, if_true]
    exact .head hout (.single (.bias hs rfl))

/-- An extension byte fails at the block's end, or makes the moves of its kind (R153). -/
theorem atExtension_moves {s t : State} {k : State → State} (h : atExtension s k = .next t)
    (hk : s.lane.AtExtension → s.lane.ip < s.lane.srcSize → s.lane.Moves (k s).lane) : s.lane.Moves t.lane := by
  obtain ⟨hext, hcase⟩ := atExtension_next h
  obtain ⟨-, hs⟩ := s.extending_iff.mp hext
  rcases hcase with ⟨-, rfl⟩ | ⟨hip, rfl⟩
  · exact Lane.Moves.raise .refl hs.decoding (eosCause_ne_none _)
  · exact hk hs hip

theorem execExtCont_moves {s t : State} (h : execExtCont s = .next t) : s.lane.Moves t.lane :=
  atExtension_moves h fun hs hip => .single (extendByte_move _ hs hip)

theorem execExtEnd_moves {value : Byte} {s t : State} (h : execExtEnd value s = .next t) : s.lane.Moves t.lane :=
  atExtension_moves h fun hs hip => .head (extendByte_move _ hs hip) (leaveExtension_moves (s := extendByte value s) hs)

theorem execOffset_moves {off : Half} {s t : State} (hc : s.lane.CursorsOk) (h : execOffset off s = .next t) :
    s.lane.Moves t.lane := by
  obtain ⟨-, hx, -⟩ := hc
  obtain ⟨hs, rfl⟩ := execOffset_next h
  exact (readOffset_reaches off ⟨hs, hx (by simp [hs])⟩).moves

/-- Every stream element that answers a next state made moves. -/
theorem exec_moves {i : Instr} {slot : Slot} (hi : i.slot = some slot) {s t : State} (hc : s.lane.CursorsOk)
    (h : exec i s = .next t) : s.lane.Moves t.lane := by
  cases i with
  | seq ll ml => exact execSeq_moves h
  | seqXL ml => exact execSeqXL_moves h
  | seqXM ll => exact execSeqXM_moves h
  | seqXLXM => exact execSeqXLXM_moves h
  | extCont => exact execExtCont_moves h
  | extEnd value => exact execExtEnd_moves h
  | offset off => exact execOffset_moves hc h
  | copyOverlap8 | copyOverlap16 | copyOverlap32 | copyFromOutput8 | copyFromOutput16 | copyFromOutput32
  | wildCopyIn8 | wildCopyIn16 | wildCopyIn32 | wildCopyOut8 | wildCopyOut16 | wildCopyOut32
  | select | update | decompress => cases hi

theorem fetchStep_moves {slot : Slot} {s t : State} (hd : s.lane.state.decoding = true) (hc : s.lane.CursorsOk)
    (h : fetchStep slot s = .next t) : s.lane.Moves t.lane := by
  unfold fetchStep at h
  split at h
  · rename_i i rest heq
    exact exec_moves (decode_slot heq) hc h
  · obtain rfl := Host.Outcome.next.inj h
    exact Lane.Moves.raise .refl hd (eosCause_ne_none _)

/-- A step that reads no element made moves: outside an extension it enters one or goes on, and a copy copies. -/
theorem innerStep_moves {s t : State} (hslot : s.lane.slot = none) (hc : s.lane.CursorsOk)
    (h : innerStep s = .next t) : s.lane.Moves t.lane := by
  obtain ⟨-, hx, -⟩ := hc
  unfold innerStep at h
  unfold Lane.slot at hslot
  split at h <;> rename_i hs <;> obtain rfl := Host.Outcome.next.inj h
  · have hx : s.lane.inExt = false := by simpa [hs] using hslot
    split
    · exact .single (.inExt true (.inl hs))
    · exact .single (.literals hs hx)
  · have hx : s.lane.inExt = false := by simpa [hs] using hslot
    have hload : s.lane.Move (loadMatchCode s).lane := .matchCode _ hs (matchCode_le _)
    split
    · exact .head hload (.single (.inExt true (.inr hs)))
    · exact .head hload (.single (.bias hs hx))
  · exact (copyLiterals_reaches (.inr ⟨hs, hx (by simp [hs])⟩)).moves
  · exact (copyMatch_reaches ⟨hs, hx (by simp [hs])⟩).moves
  all_goals exact .refl

/-- Every step of a decode is a chain of moves of the lane's registers. -/
theorem laneStep_moves {s t : State} (hd : s.lane.state.decoding = true) (hc : s.lane.CursorsOk)
    (h : laneStep s = .next t) : s.lane.Moves t.lane := by
  obtain ⟨-, ⟨slot, -, hf⟩ | ⟨hslot, hi⟩⟩ := laneStep_decoding hd h
  · exact fetchStep_moves hd hc hf
  · exact innerStep_moves hslot hc hi

/-! ### What every move keeps: cursors, lengths and widths -/

/-- Every move of a decode keeps the cursors in order (R23, R24, R37). -/
theorem Lane.Move.keeps_cursorsOk {l l' : Lane} (h : l.Move l') (hl : l.CursorsOk) : l'.CursorsOk := by
  obtain ⟨hdec, hext, hop, hoff, hlen, hdone, hfail⟩ := hl
  cases h with
  | fail c hd hc =>
    obtain ⟨hS, hD, hip, hopD, -⟩ := hdec hd
    simp [Lane.CursorsOk, LaneState.decoding, hS, hD, hc, hip, hopD]
  | token tok hs hip =>
    obtain ⟨hS, hD, -, hopD, hdiag⟩ := hdec (by rw [hs]; rfl)
    simp [Lane.CursorsOk, LaneState.decoding, hS, hD, hopD, hdiag, hip]
  | extend ip len hs hip hmax hlen =>
    obtain ⟨hS, hD, hipS, hopD, hdiag⟩ := hdec hs.decoding
    have hle : ip ≤ l.srcSize := by omega
    rcases hs with hs | hs
    · simp [Lane.CursorsOk, LaneState.decoding, hs, hS, hD, hopD, hdiag, hle]
    · simp [Lane.CursorsOk, LaneState.decoding, hs, hS, hD, hdiag, hle, hop (by simp [hs]), hoff (by simp [hs]), hopD]
  | inExt b hs =>
    have hbase := hdec hs.decoding
    rcases hs with hs | hs
    · simp [Lane.CursorsOk, LaneState.decoding, hs, hbase]
    · simp [Lane.CursorsOk, LaneState.decoding, hs, hbase, hop (by simp [hs]), hoff (by simp [hs])]
  | literals hs hx =>
    have hbase := hdec (by rw [hs]; rfl)
    simp [Lane.CursorsOk, LaneState.decoding, hx, hbase]
  | cend hs => exact ⟨hdec, hext, hop, hoff, hlen, hdone, hfail⟩
  | vec bs hv => exact ⟨hdec, hext, hop, hoff, hlen, hdone, hfail⟩
  | succeed hs =>
    obtain ⟨-, -, -, -, hdiag⟩ := hdec (by rw [hs]; rfl)
    simp [Lane.CursorsOk, LaneState.decoding, hdiag]
  | advance hs hopD hip =>
    obtain ⟨hS, hD, -, -, hdiag⟩ := hdec (by rw [hs]; rfl)
    simp [Lane.CursorsOk, LaneState.decoding, hS, hD, hdiag, hip, hopD, Nat.le_of_lt hopD, hext (by simp [hs])]
  | offset off hs hip =>
    obtain ⟨hS, hD, -, hopD, hdiag⟩ := hdec (by rw [hs]; rfl)
    simp [Lane.CursorsOk, LaneState.decoding, hs, hS, hD, hopD, hdiag, hip, hext (by simp [hs]), hop (by simp [hs])]
  | pointer hs hpos hle =>
    have hbase := hdec (by rw [hs]; rfl)
    simp [Lane.CursorsOk, LaneState.decoding, hbase, hop (by simp [hs]), hpos, hle]
  | matchCode n hs hn =>
    have hbase := hdec (by rw [hs]; rfl)
    simp [Lane.CursorsOk, LaneState.decoding, hs, hbase, hop (by simp [hs]), hoff (by simp [hs])]
  | bias hs hx =>
    have hbase := hdec (by rw [hs]; rfl)
    simp [Lane.CursorsOk, LaneState.decoding, hx, hbase, hop (by simp [hs]), hoff (by simp [hs])]
  | matched adv hs hopD hadv =>
    obtain ⟨hS, hD, hip, -, hdiag⟩ := hdec (by rw [hs]; rfl)
    simp [Lane.CursorsOk, LaneState.decoding, hS, hD, hip, hopD, hdiag, hext (by simp [hs])]

/-- `MAXSIZE` as a numeral (R8, D2). -/
theorem maxSize_eq : Config.maxSize = 36028797018963967 := rfl

/-- 2^`AW` as a numeral (R68). -/
theorem addrLimit_eq : Config.addrLimit = 18446744073709551616 := rfl

/-- What keeps a decoding lane's registers within `AW` bits: cursors in order within sizes of at most `MAXSIZE`, and a
length of at most 255 for each byte read (R10, R25, R171). -/
structure Lane.RegistersOk (l : Lane) : Prop where
  cursors : l.CursorsOk
  length : l.LengthOk
  fits : l.Fits
  srcSize_le : l.srcSize ≤ Config.maxSize
  dstSize_le : l.dstSize ≤ Config.maxSize

/-- Every move keeps `LEN` within what the bytes read so far can add up to (R25, R171). -/
theorem Lane.Move.keeps_lengthOk {l l' : Lane} (h : l.Move l') (hl : l.LengthOk) : l'.LengthOk := by
  obtain ⟨hlen, hmatch⟩ := hl
  cases h with
  | fail c hd hc => simp [Lane.LengthOk]
  | token tok hs hip =>
    have := literalCode_le tok
    exact ⟨fun _ => by simp only; omega, fun hst => by cases hst⟩
  | extend ip len hs hip hmax hle =>
    have hl15 := hlen (by rcases hs with hs | hs <;> simp [hs])
    refine ⟨fun _ => ?_, fun hst => ?_⟩
    · simp only; omega
    · rcases hs with hs | hs <;> rw [hs] at hst <;> cases hst
  | inExt b hs => exact ⟨hlen, hmatch⟩
  | literals hs hx => simp_all [Lane.LengthOk]
  | cend hs => exact ⟨hlen, hmatch⟩
  | vec bs hv => exact ⟨hlen, hmatch⟩
  | succeed hs => simp [Lane.LengthOk]
  | advance hs hopD hip =>
    have := hlen (by simp [hs])
    exact ⟨fun _ => by simp only; omega, fun hst => by cases hst⟩
  | offset off hs hip =>
    have := hlen (by simp [hs])
    exact ⟨fun _ => by simp only; omega, fun hst => by rw [hs] at hst; cases hst⟩
  | pointer hs hpos hle => simp_all [Lane.LengthOk]
  | matchCode n hs hn => exact ⟨fun _ => by simp only; omega, fun hst => by rw [hs] at hst; cases hst⟩
  | bias hs hx =>
    have := hlen (by simp [hs])
    exact ⟨fun hst => by simp at hst, fun _ => by simp only [Config.minMatch]; omega⟩
  | matched adv hs hopD hadv => simp [Lane.LengthOk]

/-- Every move keeps every register within its width: a cursor within a size, a length within 255 for each byte read, a
match pointer within two strides of the output (R10, R25, R171). -/
theorem Lane.Move.keeps_fits {l l' : Lane} (h : l.Move l') (hl : l.RegistersOk) : l'.Fits := by
  obtain ⟨⟨hdec, -, -, hoff, -⟩, ⟨hlen, hmatch⟩, hfits, hS, hD⟩ := hl
  rw [maxSize_eq] at hS hD
  simp only [Lane.Fits, addrLimit_eq] at hfits ⊢
  cases h with
  | fail c hd hc => simp only; omega
  | token tok hs hip =>
    have := literalCode_le tok
    simp only; omega
  | extend ip len hs hip hmax hle =>
    obtain ⟨-, -, hipS, -⟩ := hdec hs.decoding
    have hlen15 := hlen (by rcases hs with hs | hs <;> simp [hs])
    simp only; omega
  | inExt b hs => exact hfits
  | literals hs hx => exact hfits
  | cend hs =>
    obtain ⟨-, -, hipS, hopD, -⟩ := hdec (by rcases hs with hs | hs <;> rw [hs] <;> rfl)
    have hlen19 : l.len ≤ 19 + 255 * l.ip := by
      rcases hs with hs | hs
      · exact Nat.le_trans (hlen (by simp [hs])) (by omega)
      · exact hmatch hs
    simp only; omega
  | vec bs hv => simp only; omega
  | succeed hs => exact hfits
  | advance hs hopD hip => simp only; omega
  | offset off hs hip => simp only; omega
  | pointer hs hpos hle => simp only; omega
  | matchCode n hs hn => simp only; omega
  | bias hs hx =>
    obtain ⟨-, -, hipS, -⟩ := hdec (by rw [hs]; rfl)
    have hlen15 := hlen (by simp [hs])
    simp only [Config.minMatch]; omega
  | matched adv hs hopD hadv =>
    obtain ⟨-, -, hmp⟩ := hoff (.inr hs)
    simp only; omega

/-- No move writes a size (R28). -/
theorem Lane.Move.sizes {l l' : Lane} (h : l.Move l') : l'.srcSize = l.srcSize ∧ l'.dstSize = l.dstSize := by
  cases h <;> exact ⟨rfl, rfl⟩

theorem Lane.Move.keeps_registersOk {l l' : Lane} (h : l.Move l') (hl : l.RegistersOk) : l'.RegistersOk where
  cursors := h.keeps_cursorsOk hl.cursors
  length := h.keeps_lengthOk hl.length
  fits := h.keeps_fits hl
  srcSize_le := by rw [h.sizes.1]; exact hl.srcSize_le
  dstSize_le := by rw [h.sizes.2]; exact hl.dstSize_le

/-! ### The lane between commands: reset, a command taken, the response -/

/-- An idle lane promises nothing of its cursors. -/
theorem Lane.cursorsOk_of_idle {l : Lane} (h : l.state = .idle) : l.CursorsOk := by
  simp [Lane.CursorsOk, LaneState.decoding, h]

/-- An idle lane promises nothing of its length. -/
theorem Lane.lengthOk_of_idle {l : Lane} (h : l.state = .idle) : l.LengthOk := by simp [Lane.LengthOk, h]

theorem Lane.reset_fits : Lane.reset.Fits := by simp [Lane.Fits, Lane.reset, addrLimit_eq]

/-- A free value of a working register is one that register can hold (R240). -/
theorem Lane.forgetWorking_fits {l : Lane} (d : Nat) (h : l.Fits) : (l.forgetWorking d).Fits := by
  obtain ⟨-, -, -, -, -, hsb, hss, hdb, hds, hfip, hfop, -⟩ := h
  have hword : ∀ k, (Config.freeWord d k).toNat < Config.addrLimit := fun k => (Config.freeWord d k).isLt
  exact ⟨hword 0, hword 1, hword 3, hword 5, hword 6, hsb, hss, hdb, hds, hfip, hfop, by simp [Lane.forgetWorking]⟩

theorem Lane.respondWith_fits {l : Lane} (d : Nat) (h : l.Fits) : (l.respondWith d).Fits := by
  unfold Lane.respondWith
  split
  · exact h
  · exact Lane.forgetWorking_fits (l := l) d h

@[simp] theorem Lane.respondWith_state (d : Nat) (l : Lane) : (l.respondWith d).state = .idle := rfl

/-- The acting lane's registers once a command is latched and its decode started: `VSEL` is `v`, and the time read
before is `t0` (R150, R214, R215). -/
def Lane.started (l : Lane) (cmd : Command) (v : Variant) (t0 : Wide) : Lane :=
  { l.latched cmd with vsel := v, t0 := t0, ip := 0, op := 0, state := .readToken, inExt := false }

/-- A started decode stands at index 0 of both spans (R150). -/
theorem Lane.started_cursorsOk (l : Lane) {cmd : Command} (v : Variant) (t0 : Wide)
    (h : trivialSizes cmd.sourceSize cmd.destSize = false) : (l.started cmd v t0).CursorsOk := by
  rw [← Bool.not_eq_true, trivialSizes_iff] at h
  have hpos : 0 < cmd.sourceSize ∧ 0 < cmd.destSize := by omega
  simpa [Lane.CursorsOk, Lane.started, Lane.latched, LaneState.decoding] using hpos

/-- A command without a decode is done at once, its diagnostic registers cleared (R213). -/
theorem Lane.latched_done_cursorsOk (l : Lane) (cmd : Command) :
    ({ l.latched cmd with state := .done } : Lane).CursorsOk := by
  simp [Lane.CursorsOk, Lane.latched, LaneState.decoding]

theorem Lane.latched_fits {l : Lane} {cmd : Command} (hl : l.Fits) (hs : cmd.source < Config.addrLimit)
    (hS : cmd.sourceSize < Config.addrLimit) (hd : cmd.dest < Config.addrLimit) (hD : cmd.destSize < Config.addrLimit) :
    (l.latched cmd).Fits := by
  obtain ⟨hip, hop, hlen, hmp, hcend, -, -, -, -, -, -, hvec⟩ := hl
  exact ⟨hip, hop, hlen, hmp, hcend, hs, hS, hd, hD, by simp [Lane.latched, addrLimit_eq],
    by simp [Lane.latched, addrLimit_eq], hvec⟩

theorem Lane.started_fits {l : Lane} {cmd : Command} (v : Variant) (t0 : Wide) (h : (l.latched cmd).Fits) :
    (l.started cmd v t0).Fits := by
  obtain ⟨-, -, hrest⟩ := h
  exact ⟨by simp [Lane.started, addrLimit_eq], by simp [Lane.started, addrLimit_eq], hrest⟩

/-! ### What a lane's step leaves alone, and what keeps the contract -/

/-- What no step of a lane changes: `t` has the parameters, the regions, the number of contexts and all lanes but the
acting one from `s`. -/
structure OthersSame (s t : State) : Prop where
  params : t.params = s.params
  regions : t.regions = s.regions
  nCtx : t.ctxs.length = s.ctxs.length
  others : t.otherLanes = s.otherLanes

theorem OthersSame.refl (s : State) : OthersSame s s := ⟨rfl, rfl, rfl, rfl⟩

theorem StepFrame.othersSame {s t : State} (h : StepFrame s t) : OthersSame s t := by
  have ht := h.around
  unfold SameAround at ht
  rw [ht]
  exact ⟨rfl, rfl, rfl, rfl⟩

theorem State.mem_lanes (s : State) (l : Lane) : l ∈ s.lanes ↔ l = s.lane ∨ l ∈ s.otherLanes := by
  simp only [State.lanes, State.otherLanes, List.mem_append, List.mem_cons]
  tauto

theorem State.length_lanes (s : State) : s.lanes.length = s.otherLanes.length + 1 := by
  simp [State.lanes, State.otherLanes, Nat.add_assoc]

/-- What holds of every lane still does, once the acting lane's new registers have it. -/
theorem OthersSame.forall_lanes {s t : State} {P : Lane → Prop} (h : OthersSame s t) (hs : ∀ l ∈ s.lanes, P l)
    (ht : P t.lane) : ∀ l ∈ t.lanes, P l := by
  intro l hl
  rcases (t.mem_lanes l).mp hl with rfl | hl
  · exact ht
  · exact hs l ((s.mem_lanes l).mpr (.inr (by rwa [← h.others])))

theorem State.lane_mem_lanes (s : State) : s.lane ∈ s.lanes := (s.mem_lanes s.lane).mpr (.inl rfl)

/-- That two commands' spans are apart is said of either of the two (R76). -/
theorem Lane.Apart.symm {p : Config.Params} {l l' : Lane} (h : l.Apart p l') : l'.Apart p l := by
  intro h' hl
  obtain ⟨hsrc, hdst⟩ := h hl h'
  simp only [Lane.avoids, Bool.and_eq_true] at hsrc hdst ⊢
  exact ⟨⟨disjoint_comm .. ▸ hsrc.1, disjoint_comm .. ▸ hdst.1⟩, disjoint_comm .. ▸ hsrc.2, disjoint_comm .. ▸ hdst.2⟩

theorem State.pairwise_apart (s : State) (p : Config.Params) : s.lanes.Pairwise (Lane.Apart p) ↔
    (∀ l ∈ s.otherLanes, s.lane.Apart p l) ∧ s.otherLanes.Pairwise (Lane.Apart p) := by
  unfold State.lanes State.otherLanes
  rw [List.pairwise_middle Lane.Apart.symm, List.pairwise_cons]

/-- The contracts of all commands are kept where the acting lane's is, and no other lane changes. -/
theorem ContractInv.of_othersSame {s t : State} (h : ContractInv s) (hf : OthersSame s t)
    (hlane : t.lane.Contract s.params s.regions s.ctxs.length) (hapart : ∀ l ∈ s.otherLanes, t.lane.Apart s.params l) :
    ContractInv t := by
  obtain ⟨hp, hnl, hnc, hall, hpair⟩ := h
  unfold ContractInv
  rw [hf.params, hf.regions, hf.nCtx, State.pairwise_apart, State.length_lanes, hf.others, ← State.length_lanes]
  exact ⟨hp, hnl, hnc, hf.forall_lanes hall hlane, hapart, ((s.pairwise_apart _).mp hpair).2⟩

/-- A lane that holds its spans has its command still running (R76). -/
theorem Lane.holdsSpans_iff (l : Lane) :
    l.holdsSpans = true ↔ l.state ≠ .idle ∧ trivialSizes l.srcSize l.dstSize = false := by
  simp [Lane.holdsSpans]

/-- A lane that has come to its response breaks no contract (R242). -/
theorem ContractInv.of_idle {s t : State} (h : ContractInv s) (hf : OthersSame s t) (hi : t.lane.state = .idle) :
    ContractInv t :=
  h.of_othersSame hf (fun hn => absurd hi hn) fun _ _ hs => absurd hi ((Lane.holdsSpans_iff _).mp hs).1

/-- A running command whose latched registers stay keeps its contract (R28, R211). -/
theorem ContractInv.of_sameCommand {s t : State} (h : ContractInv s) (hf : OthersSame s t)
    (hc : SameCommand s.lane t.lane) (hd : s.lane.state.decoding = true) : ContractInv t := by
  have hrun : s.lane.state ≠ .idle := fun hi => by rw [hi] at hd; cases hd
  obtain ⟨hsb, hss, hdb, hds, hctx, -, -, -⟩ := hc
  have hold : t.lane.holdsSpans = true → s.lane.holdsSpans = true := by
    simp only [Lane.holdsSpans_iff, hss, hds]
    exact fun ht => ⟨hrun, ht.2⟩
  obtain ⟨-, -, -, hall, hpair⟩ := id h
  have hlane := hall s.lane s.lane_mem_lanes hrun
  have hapart := ((s.pairwise_apart _).mp hpair).1
  refine h.of_othersSame hf (fun _ => ?_) fun l hl ht hl' => ?_
  · rw [hsb, hss, hdb, hds, hctx]
    obtain ⟨h1, h2, h3, h4, h5, h6⟩ := hlane
    exact ⟨h1, h2, h3, h4, h5, fun ht => h6 (hold ht)⟩
  · rw [hsb, hss, hdb, hds]
    exact hapart l hl (hold ht) hl'

/-! ### The end of a command -/

/-- What the end of a command does to the lanes: it waits, or the acting lane's registers become those of the
response. -/
theorem respond_lane {s t : State} (h : respond s = .next t) :
    t = s ∨ (OthersSame s t ∧ t.lane = s.lane.respondWith s.draws) := by
  rcases respond_next h with ⟨-, c, -, ⟨-, rfl⟩ | ⟨-, rfl⟩⟩ | ⟨-, rfl⟩
  · exact .inl rfl
  · exact .inr ⟨⟨by simp [updateEffect], by simp [updateEffect], by simp [updateEffect],
      by simp [updateEffect, State.otherLanes]⟩, rfl⟩
  · exact .inr ⟨⟨by simp, by simp, by simp, by simp [State.otherLanes]⟩, rfl⟩

/-- What a step of a lane leaves of the lanes: all; all but the registers a decode writes in the acting one; or all but
the acting one, whose registers become those of the response. -/
theorem laneStep_lanes {s t : State} (h : laneStep s = .next t) :
    t = s ∨ (OthersSame s t ∧ ((s.lane.state.decoding = true ∧ SameCommand s.lane t.lane)
      ∨ t.lane = s.lane.respondWith s.draws)) := by
  rcases laneStep_cases h with ⟨-, rfl⟩ | ⟨hd, -, hf⟩ | ⟨-, hr⟩
  · exact .inl rfl
  · exact .inr ⟨hf.othersSame, .inl ⟨hd, hf.command⟩⟩
  · exact (respond_lane hr).imp id fun ⟨ho, hl⟩ => ⟨ho, .inr hl⟩

/-! ### The start of a command -/

/-- What the contract's check has established of a command it accepts (R211, R243). -/
structure Accepted (cmd : Command) (s : State) : Prop where
  idle : s.lane.state = .idle
  sourceSize_le : cmd.sourceSize ≤ Config.maxSize
  destSize_le : cmd.destSize ≤ Config.maxSize
  source_le : cmd.source + cmd.sourceSize + s.params.slack ≤ Config.addrLimit
  dest_lt : cmd.dest < Config.addrLimit
  dest_le : cmd.dest + cmd.destSize ≤ Config.addrLimit
  stats_lt : cmd.stats < s.ctxs.length
  spans : trivialSizes cmd.sourceSize cmd.destSize = false →
    spanProblem s.params.slack s.regions cmd.source cmd.sourceSize cmd.dest cmd.destSize = none
  apart : trivialSizes cmd.sourceSize cmd.destSize = false → ∀ l ∈ s.otherLanes, l.holdsSpans = true →
    l.avoids s.params.slack cmd.source (cmd.sourceSize + s.params.slack) = true
      ∧ l.avoids s.params.slack cmd.dest cmd.destSize = true

theorem accepted_of_contractProblem {cmd : Command} {s : State} (h : contractProblem cmd s = none) :
    Accepted cmd s := by
  unfold contractProblem at h
  split_ifs at h with hidle hsize hwrap hctx htriv hall
  all_goals
    simp only [bne_iff_ne, ne_eq, not_not, Bool.or_eq_true, decide_eq_true_eq, not_or, Nat.not_lt, Nat.not_le]
      at hidle hsize hwrap hctx
    obtain ⟨⟨hsrc, hdst⟩, hdstEnd⟩ := hwrap
  · exact ⟨hidle, hsize.1, hsize.2, hsrc, hdst, hdstEnd, hctx, fun hf => by simp [hf] at htriv,
      fun hf => by simp [hf] at htriv⟩
  · split at h
    · cases h
    · rename_i hspan
      refine ⟨hidle, hsize.1, hsize.2, hsrc, hdst, hdstEnd, hctx, fun _ => hspan, fun _ l hl hh => ?_⟩
      simpa [hh] using List.all_eq_true.mp hall l hl
  · split at h <;> cases h

/-- What taking a command does to the lanes: it waits for a lock, or the acting lane has latched the command and is
done, or has started its decode (R212 to R215). -/
theorem execDecompress_lanes {cmd : Command} {s t : State} (h : execDecompress cmd s = .next t) :
    t = s ∨ (Accepted cmd s ∧ OthersSame s t ∧
      (t.lane = { s.lane.latched cmd with state := .done }
        ∨ (trivialSizes cmd.sourceSize cmd.destSize = false ∧ ∃ v t0, t.lane = s.lane.started cmd v t0))) := by
  unfold execDecompress at h
  split at h
  · cases h
  · rename_i hcp
    have hacc := accepted_of_contractProblem hcp
    split_ifs at h with hwait htriv hmeas
    · exact .inl (Host.Outcome.next.inj h).symm
    · obtain rfl := Host.Outcome.next.inj h
      exact .inr ⟨hacc, ⟨rfl, rfl, rfl, rfl⟩, .inl rfl⟩
    · have htriv := Bool.eq_false_iff.mpr htriv
      unfold startMeasured at h
      rcases transact_cases (latch cmd s).lane.ctx (latch cmd s) _ with ⟨-, he⟩ | ⟨c, hc, hl, -⟩ | ⟨c, -, -, he⟩
      · rw [he] at h; cases h
      · have hc : s.ctxs[cmd.stats]? = some c := hc
        simp [selectWaits, hmeas, hc, hl] at hwait
      · rw [he] at h
        obtain rfl := Host.Outcome.next.inj h
        refine .inr ⟨hacc, ⟨rfl, rfl, ?_, rfl⟩, .inr ⟨htriv, _, _, rfl⟩⟩
        exact List.length_set
    · have htriv := Bool.eq_false_iff.mpr htriv
      obtain rfl := Host.Outcome.next.inj h
      exact .inr ⟨hacc, ⟨rfl, rfl, rfl, rfl⟩, .inr ⟨htriv, _, _, rfl⟩⟩

/-- The command registers hold the command (R28, R210). -/
def Lane.HoldsCommand (l : Lane) (cmd : Command) : Prop :=
  l.srcBase = cmd.source ∧ l.srcSize = cmd.sourceSize ∧ l.dstBase = cmd.dest ∧ l.dstSize = cmd.destSize
    ∧ l.ctx = cmd.stats

/-- A command taken meets its contract, and its spans meet no running command's (R211). -/
theorem ContractInv.of_accepted {s t : State} {cmd : Command} (h : ContractInv s) (ha : Accepted cmd s)
    (hf : OthersSame s t) (hcmd : t.lane.HoldsCommand cmd) : ContractInv t := by
  obtain ⟨hsb, hss, hdb, hds, hctx⟩ := hcmd
  refine h.of_othersSame hf (fun _ => ?_) fun l hl ht hl' => ?_
  · rw [Lane.holdsSpans_iff, hsb, hss, hdb, hds, hctx]
    exact ⟨ha.stats_lt, ha.sourceSize_le, ha.destSize_le, ha.source_le, ha.dest_le, fun ht => ha.spans ht.2⟩
  · rw [Lane.holdsSpans_iff, hss, hds] at ht
    rw [hsb, hss, hdb, hds]
    exact ha.apart ht.2 l hl hl'

/-- The registers that latch an accepted command fit it (R211 (b)). -/
theorem Accepted.latched_fits {cmd : Command} {s : State} (ha : Accepted cmd s) (hslack : s.SlackOk)
    (hl : s.lane.Fits) : (s.lane.latched cmd).Fits := by
  obtain ⟨-, hS, hD, hsrc, hdst, -⟩ := ha
  rw [maxSize_eq] at hS hD
  rw [addrLimit_eq] at hsrc
  unfold State.SlackOk Config.minSlack at hslack
  have hsource : cmd.source < Config.addrLimit := by rw [addrLimit_eq]; omega
  have hsourceSize : cmd.sourceSize < Config.addrLimit := by rw [addrLimit_eq]; omega
  have hdestSize : cmd.destSize < Config.addrLimit := by rw [addrLimit_eq]; omega
  exact Lane.latched_fits hl hsource hsourceSize hdst hdestSize

/-! ### What a move of the host, and a step of the core, can do -/

/-- The state after the host's reset (R260). -/
def State.afterReset (s : State) (rest : List HostMove) : State :=
  { s with
    host := rest
    lanesBelow := s.lanesBelow.map fun _ => Lane.reset
    lane := Lane.reset
    lanesAbove := s.lanesAbove.map fun _ => Lane.reset
    ctxs := s.ctxs.map fun _ => Context.reset }

theorem State.afterReset_lanes (s : State) (rest : List HostMove) :
    (s.afterReset rest).lanes = s.lanes.map fun _ => Lane.reset := by
  simp [State.lanes, State.afterReset]

theorem State.mem_afterReset_lanes {s : State} {rest : List HostMove} {l : Lane} (h : l ∈ (s.afterReset rest).lanes) :
    l = Lane.reset := by
  rw [State.afterReset_lanes] at h
  obtain ⟨-, -, rfl⟩ := List.mem_map.mp h
  rfl

/-- What the host's next move can do, with the guard it has passed (R219). -/
inductive HostMoved (s : State) : State → Prop
  | nothing (hh : s.host = []) : HostMoved s s
  | provide (r : Region) (rest : List HostMove) (hh : s.host = .provide r :: rest)
      (hlim : r.base + r.size ≤ Config.addrLimit) :
      HostMoved s { s with host := rest, regions := s.regions ++ [r] }
  | store (addr : Nat) (bytes : List Byte) (rest : List HostMove) (hh : s.host = .store addr bytes :: rest)
      (hlim : addr + bytes.length ≤ Config.addrLimit)
      (hoff : ∀ l ∈ s.lanes, l.holdsSpans = true → l.avoids s.params.slack addr bytes.length = true) :
      HostMoved s { s with host := rest, mem := s.mem.writeBytes addr bytes }
  | reset (rest : List HostMove) (hh : s.host = .reset :: rest) (hidle : ∀ l ∈ s.lanes, l.state = .idle) :
      HostMoved s (s.afterReset rest)
  | waits (k : Nat) (cmd : Command) (rest : List HostMove) (u : State) (hh : s.host = .issue k cmd :: rest)
      (hu : s.focus k = some u) (hw : commandWaits cmd u = true) : HostMoved s u
  | issue (k : Nat) (cmd : Command) (rest : List HostMove) (u t : State) (hh : s.host = .issue k cmd :: rest)
      (hu : s.focus k = some u) (hw : commandWaits cmd u = false)
      (ht : execDecompress cmd { u with host := rest } = .next t) : HostMoved s t

theorem hostMoved_of_hostStep {s t : State} (h : hostStep s = .next t) : HostMoved s t := by
  unfold hostStep at h
  split at h
  · rename_i hh
    obtain rfl := Host.Outcome.next.inj h
    exact .nothing hh
  · rename_i r rest hh
    unfold hostProvide at h
    split_ifs at h with hlim
    obtain rfl := Host.Outcome.next.inj h
    exact .provide r rest hh (by omega)
  · rename_i addr bytes rest hh
    unfold hostStore at h
    split_ifs at h with hlim hoff
    obtain rfl := Host.Outcome.next.inj h
    refine .store addr bytes rest hh (by omega) fun l hl hspans => ?_
    simpa [hspans] using List.all_eq_true.mp hoff l hl
  · rename_i k cmd rest hh
    obtain ⟨u, hu, hi⟩ := onLane_next h
    split_ifs at hi with hw
    · obtain rfl := Host.Outcome.next.inj hi
      exact .waits k cmd rest u hh hu hw
    · exact .issue k cmd rest u t hh hu (Bool.eq_false_iff.mpr hw) hi
  · rename_i rest hh
    unfold hostReset at h
    split_ifs at h with hidle
    obtain rfl := Host.Outcome.next.inj h
    exact .reset rest hh fun l hl => by simpa using List.all_eq_true.mp hidle l hl

/-- What a step of the core can do to one lane. -/
inductive Lane.Stepped (s : State) (l : Lane) : Lane → Prop
  | same : l.Stepped s l
  | reset : l.Stepped s Lane.reset
  | decode (l' : Lane) (hd : l.state.decoding = true) (hm : l.Moves l') : l.Stepped s l'
  | respond (d : Nat) : l.Stepped s (l.respondWith d)
  | done (cmd : Command) (u : State) (hu : u.lane = l) (hp : u.params = s.params) (ha : Accepted cmd u) :
      l.Stepped s { l.latched cmd with state := .done }
  | start (cmd : Command) (u : State) (v : Variant) (t0 : Wide) (hu : u.lane = l) (hp : u.params = s.params)
      (ha : Accepted cmd u) (ht : trivialSizes cmd.sourceSize cmd.destSize = false) : l.Stepped s (l.started cmd v t0)

/-- A step of the acting lane: it does what it does to that lane, and leaves every other. -/
theorem OthersSame.lanes_stepped {s u t : State} (h : OthersSame u t) (hl : u.lanes = s.lanes)
    (ht : u.lane.Stepped s t.lane) : ∀ l' ∈ t.lanes, ∃ l ∈ s.lanes, l.Stepped s l' :=
  h.forall_lanes (fun l hu => ⟨l, hl ▸ hu, .same⟩) ⟨u.lane, hl ▸ u.lane_mem_lanes, ht⟩

theorem laneStep_stepped {s u t : State} (hl : u.lanes = s.lanes) (hc : u.lane.CursorsOk) (h : laneStep u = .next t) :
    ∀ l' ∈ t.lanes, ∃ l ∈ s.lanes, l.Stepped s l' := by
  rcases laneStep_lanes h with rfl | ⟨ho, ⟨hd, -⟩ | hr⟩
  · exact (OthersSame.refl t).lanes_stepped hl .same
  · exact ho.lanes_stepped hl (.decode _ hd (laneStep_moves hd hc h))
  · exact ho.lanes_stepped hl (hr ▸ .respond _)

theorem hostStep_stepped {s u t : State} (hl : u.lanes = s.lanes) (hp : u.params = s.params)
    (h : hostStep u = .next t) :
    ∀ l' ∈ t.lanes, ∃ l ∈ s.lanes, l.Stepped s l' := by
  have hsame : ∀ {v : State}, v.lanes = s.lanes → ∀ l' ∈ v.lanes, ∃ l ∈ s.lanes, l.Stepped s l' :=
    fun hv l' hl' => ⟨l', hv ▸ hl', .same⟩
  cases hostMoved_of_hostStep h with
  | nothing hh => exact hsame hl
  | provide r rest hh hlim => exact hsame hl
  | store addr bytes rest hh hlim hoff => exact hsame hl
  | reset rest hh hidle =>
    intro l' hl'
    exact ⟨u.lane, hl ▸ u.lane_mem_lanes, State.mem_afterReset_lanes hl' ▸ .reset⟩
  | waits k cmd rest v hh hv hw => exact hsame ((turned_focus hv).1.trans hl)
  | issue k cmd rest v t hh hv hw ht =>
    obtain ⟨hvl, hvp, -⟩ := turned_focus hv
    have hvl : ({ v with host := rest } : State).lanes = s.lanes := hvl.trans hl
    rcases execDecompress_lanes ht with rfl | ⟨ha, ho, hd | ⟨htriv, w, t0, hd⟩⟩
    · exact hsame hvl
    · exact ho.lanes_stepped hvl (hd ▸ .done cmd _ rfl (hvp.trans hp) ha)
    · exact ho.lanes_stepped hvl (hd ▸ .start cmd _ w t0 rfl (hvp.trans hp) ha htriv)

/-- Every lane after a step of the core comes from one before it by one of the ways of `Lane.Stepped`. -/
theorem step_stepped {s t : State} (hc : CursorInv s) (h : step s = .next t) :
    ∀ l' ∈ t.lanes, ∃ l ∈ s.lanes, l.Stepped s l' := by
  obtain ⟨u, ⟨hl, hp, -⟩, hh | hs⟩ := step_cases h
  · exact hostStep_stepped hl hp hh
  · exact laneStep_stepped hl (hc _ (hl ▸ u.lane_mem_lanes)) hs

/-! ### The invariants, kept by every step of the core -/

theorem ContractInv.congr {s t : State} (h : ContractInv s) (hl : t.lanes = s.lanes) (hp : t.params = s.params)
    (hr : t.regions = s.regions) (hn : t.ctxs.length = s.ctxs.length) : ContractInv t := by
  unfold ContractInv
  rw [hl, hp, hr, hn]
  exact h

theorem ContractInv.of_turned {s u : State} (h : ContractInv s) (hu : Turned s u) : ContractInv u := by
  obtain ⟨hl, hp, -, hr, hc, -⟩ := hu
  exact h.congr hl hp hr (by rw [hc])

/-- A lane's step keeps the contracts: a decode writes no command register, and a response ends the command. -/
theorem laneStep_keeps_contractInv {s t : State} (h : ContractInv s) (hs : laneStep s = .next t) : ContractInv t := by
  rcases laneStep_lanes hs with rfl | ⟨ho, ⟨hd, hc⟩ | hr⟩
  · exact h
  · exact h.of_sameCommand ho hc hd
  · exact h.of_idle ho (by rw [hr]; rfl)

/-- A move of the host keeps the contracts: what is accessible stays so, and a command is taken only if it keeps
them. -/
theorem hostStep_keeps_contractInv {s t : State} (h : ContractInv s) (hs : hostStep s = .next t) : ContractInv t := by
  cases hostMoved_of_hostStep hs with
  | nothing hh => exact h
  | provide r rest hh hlim =>
    obtain ⟨hp, hnl, hnc, hall, hpair⟩ := h
    refine ⟨hp, hnl, hnc, fun l hl hrun => ?_, hpair⟩
    obtain ⟨hctx, hS, hD, hsrc, hdst, hspan⟩ := hall l hl hrun
    exact ⟨hctx, hS, hD, hsrc, hdst, fun hh => spanProblem_append r (hspan hh)⟩
  | store addr bytes rest hh hlim hoff => exact h.congr rfl rfl rfl rfl
  | reset rest hh hidle =>
    obtain ⟨hp, hnl, hnc, -, -⟩ := h
    have hreset : ∀ l ∈ (s.afterReset rest).lanes, l.state = .idle := fun l hl => State.mem_afterReset_lanes hl ▸ rfl
    refine ⟨hp, ?_, ?_, fun l hl hrun => absurd (hreset l hl) hrun, ?_⟩
    · rw [State.afterReset_lanes, List.length_map]
      exact hnl
    · exact (List.length_map _).trans hnc
    · exact List.pairwise_of_forall_mem_list fun l hl _ _ hh =>
        absurd (hreset l hl) ((Lane.holdsSpans_iff l).mp hh).1
  | waits k cmd rest u hh hu hw => exact h.of_turned (turned_focus hu)
  | issue k cmd rest u t hh hu hw ht =>
    have hu : ContractInv { u with host := rest } := (h.of_turned (turned_focus hu)).congr rfl rfl rfl rfl
    rcases execDecompress_lanes ht with rfl | ⟨ha, ho, hd | ⟨-, v, t0, hd⟩⟩
    · exact hu
    · exact hu.of_accepted ha ho (hd ▸ ⟨rfl, rfl, rfl, rfl, rfl⟩)
    · exact hu.of_accepted ha ho (hd ▸ ⟨rfl, rfl, rfl, rfl, rfl⟩)

theorem step_keeps_contractInv {s t : State} (h : ContractInv s) (hs : step s = .next t) : ContractInv t := by
  obtain ⟨u, hu, hh | hl⟩ := step_cases hs
  · exact hostStep_keeps_contractInv (h.of_turned hu) hh
  · exact laneStep_keeps_contractInv (h.of_turned hu) hl

theorem step_keeps_cursorInv {s t : State} (h : CursorInv s) (hs : step s = .next t) : CursorInv t := by
  intro l' hl'
  obtain ⟨l, hl, hstep⟩ := step_stepped h hs l' hl'
  cases hstep with
  | same => exact h _ hl
  | reset => exact Lane.cursorsOk_of_idle rfl
  | decode l' hd hm => exact hm.keep Lane.Move.keeps_cursorsOk (h l hl)
  | respond d => exact Lane.cursorsOk_of_idle rfl
  | done cmd u hu hp ha => exact Lane.latched_done_cursorsOk l cmd
  | start cmd u v t0 hu hp ha ht => exact Lane.started_cursorsOk l v t0 ht

/-- A decoding lane's sizes are at most `MAXSIZE` by its contract, so its registers are in order (R211 (b), D2). -/
theorem RegistersFit.registersOk {s : State} (h : RegistersFit s) {l : Lane} (hl : l ∈ s.lanes)
    (hd : l.state.decoding = true) : l.RegistersOk := by
  obtain ⟨⟨-, -, -, hcon, -⟩, hcur, hreg⟩ := h
  have hrun : l.state ≠ .idle := fun hi => by rw [hi] at hd; cases hd
  obtain ⟨-, hS, hD, -⟩ := hcon l hl hrun
  exact ⟨hcur l hl, (hreg l hl).1, (hreg l hl).2, hS, hD⟩

/-- Every step keeps each lane's length and registers within their bounds (R10, R25, R171). -/
theorem step_keeps_lengthOk_and_fits {s t : State} (h : RegistersFit s) (hs : step s = .next t) :
    ∀ l ∈ t.lanes, l.LengthOk ∧ l.Fits := by
  intro l' hl'
  obtain ⟨⟨⟨hslack, -⟩, -⟩, hcur, hreg⟩ := id h
  obtain ⟨l, hl, hstep⟩ := step_stepped hcur hs l' hl'
  cases hstep with
  | same => exact hreg _ hl
  | reset => exact ⟨Lane.lengthOk_of_idle rfl, Lane.reset_fits⟩
  | decode l' hd hm =>
    have hok := hm.keep Lane.Move.keeps_registersOk (h.registersOk hl hd)
    exact ⟨hok.length, hok.fits⟩
  | respond d => exact ⟨Lane.lengthOk_of_idle rfl, Lane.respondWith_fits d (hreg l hl).2⟩
  | done cmd u hu hp ha =>
    subst hu
    exact ⟨by simp [Lane.LengthOk], ha.latched_fits (by rwa [State.SlackOk, hp]) (hreg _ hl).2⟩
  | start cmd u v t0 hu hp ha ht =>
    subst hu
    exact ⟨by simp [Lane.LengthOk, Lane.started],
      Lane.started_fits v t0 (ha.latched_fits (by rwa [State.SlackOk, hp]) (hreg _ hl).2)⟩

/-- Settles O58: every step of the core keeps the contracts, the cursors in order, and each lane's length and registers
within their bounds. -/
theorem registersNeverOverflow : Obligations.RegistersNeverOverflow := by
  intro s t h hs
  exact ⟨step_keeps_contractInv h.1 hs, step_keeps_cursorInv h.2.1 hs, step_keeps_lengthOk_and_fits h hs⟩

end Sys2Proof.Machine

namespace Sys2Proof.Machine

/-! ### What a lane fetches, said of the block (R61, R90) -/

/-- Fewer bytes than an element of the slot takes are no element of it (R99 (e)). -/
theorem decode_of_length_lt {slot : Slot} {bytes : List Byte} (h : bytes.length < slot.size) :
    decode slot bytes = .error (.streamEnds slot) := by
  cases slot <;> rcases bytes with _ | ⟨b0, _ | ⟨b1, bs⟩⟩ <;> simp [Slot.size] at h <;> rfl

/-- Where the block ends before the element a lane needs, it raises the cause of its position (R152, R153, R158). -/
theorem fetchStep_of_short {slot : Slot} {s : State} (h : s.lane.srcSize - s.lane.ip < slot.size) :
    fetchStep slot s = .next (raiseFail (eosCause s.lane.state) s) := by
  unfold fetchStep fetchBytes
  rw [decode_of_length_lt (by simp only [State.length_srcRead]; omega)]

theorem srcRead_one (s : State) (i : Nat) : s.srcRead i 1 = [s.src i] := rfl

theorem srcRead_two (s : State) (i : Nat) : s.srcRead i 2 = [s.src i, s.src (i + 1)] := rfl

theorem fetchStep_token {s : State} (h : s.lane.ip < s.lane.srcSize) :
    fetchStep .token s = exec (decodeToken (s.src s.lane.ip)) s := by
  unfold fetchStep fetchBytes
  rw [show min Slot.token.size (s.lane.srcSize - s.lane.ip) = 1 by simp only [Slot.size]; omega, srcRead_one]
  rfl

theorem fetchStep_ext {s : State} (h : s.lane.ip < s.lane.srcSize) :
    fetchStep .ext s = exec (decodeExt (s.src s.lane.ip)) s := by
  unfold fetchStep fetchBytes
  rw [show min Slot.ext.size (s.lane.srcSize - s.lane.ip) = 1 by simp only [Slot.size]; omega, srcRead_one]
  rfl

theorem fetchStep_field {s : State} (h : 2 ≤ s.lane.srcSize - s.lane.ip) :
    fetchStep .field s = execOffset (offsetOf (s.src s.lane.ip) (s.src (s.lane.ip + 1))) s := by
  unfold fetchStep fetchBytes
  rw [show min Slot.field.size (s.lane.srcSize - s.lane.ip) = 2 by simp only [Slot.size]; omega, srcRead_two]
  rfl

/-- On spans in order, a lane at a place where an element is read fetches it. -/
theorem laneStep_of_slot {s : State} {slot : Slot} (hsp : s.SpansOk) (hslot : s.lane.slot = some slot) :
    laneStep s = fetchStep slot s := by
  obtain ⟨hsrc, hdst, hspan⟩ := hsp
  unfold laneStep
  cases hst : s.lane.state
  case idle | done | failed | copyLiterals | copyMatch => simp [Lane.slot, hst] at hslot
  all_goals simp only [onSpans_of_ok _ hsrc hdst hspan, hslot]

/-- On spans in order, a lane inside its decode that reads no element performs the step its `STATE` names. -/
theorem laneStep_of_inner {s : State} (hsp : s.SpansOk) (hd : s.lane.state.decoding = true)
    (hslot : s.lane.slot = none) : laneStep s = innerStep s := by
  obtain ⟨hsrc, hdst, hspan⟩ := hsp
  unfold laneStep
  cases hst : s.lane.state
  case idle | done | failed => rw [hst] at hd; cases hd
  all_goals simp only [onSpans_of_ok _ hsrc hdst hspan, hslot]

/-! ### The four sequence forms are one sequence of the decoder's steps (D28) -/

/-- A sequence from the end of ReadToken on: steps 2 to 6 of the decoder (R154 to R161). -/
def sequenceBody (s : State) : Flow :=
  ((((extendLiteralLength s).andThen copyLiterals).andThen readMatch).andThen extendMatchLength).andThen copyMatch

/-- A whole sequence: the six steps of the decoder, one after the other (R151). -/
def runSequence (tok : Byte) (s : State) : Flow := (readToken tok s).andThen sequenceBody

theorem Flow.andThen_assoc (fl : Flow) (f g : State → Flow) :
    (fl.andThen f).andThen g = fl.andThen fun s => (f s).andThen g := by
  cases fl <;> rfl

theorem Flow.andThen_congr {fl : Flow} {f g : State → Flow} (h : ∀ t, fl = .goesOn t → f t = g t) :
    fl.andThen f = fl.andThen g := by
  cases fl with
  | goesOn t => exact h t rfl
  | ended t => rfl

/-- The literal length and the literals as a sequence form has them, by the token's high nibble (R163 to R166). -/
def literalForm (ll : Nibble) (s : State) : Flow :=
  if ll = 15#4 then (extend .litExtEos s).andThen copyLiterals else copyLiterals s

/-- The match length as a sequence form has it, by the token's low nibble (R163 to R166). -/
def matchForm (ml : Nibble) (s : State) : Flow :=
  if ml = 15#4 then (extend .matExtEos (s.withLane { s.lane with len := 15 })).andThen fun s => .goesOn (addMinMatch s)
  else .goesOn (addMinMatch (loadMatchCode s))

/-- `STATE` plays no part in the strides of a literal copy. -/
theorem stridesIn_goto (w t src n : Nat) (s : State) (st : LaneState) :
    stridesIn w t src n (s.goto st) = (stridesIn w t src n s).goto st := by
  induction n generalizing s t src with
  | zero => rfl
  | succ n ih => exact ih (t + w) (src + w) (strideIn w t src s)

/-- CopyLiterals does the same from either `STATE` a sequence comes to it in. -/
theorem copyLiterals_goto (s : State) (st : LaneState) : copyLiterals (s.goto st) = copyLiterals s := by
  have hcopy : finishLiterals (wildCopyIn s.W s.lane.op s.lane.ip s.lane.len
        ((s.withLane { s.lane with cend := s.lane.op + s.lane.len }).goto st)) =
      finishLiterals (wildCopyIn s.W s.lane.op s.lane.ip s.lane.len
        (s.withLane { s.lane with cend := s.lane.op + s.lane.len })) := by
    rw [wildCopyIn, stridesIn_goto]
    rfl
  unfold copyLiterals
  exact ite_congr rfl (fun _ => rfl) fun _ => ite_congr rfl (fun _ => rfl) fun _ =>
    ite_congr rfl (fun _ => rfl) fun _ => hcopy

/-- A nibble's number is 15 only if the nibble is. -/
theorem nibble_toNat_eq_iff (n : Nibble) : n.toNat = 15 ↔ n = 15#4 := by
  revert n
  decide

theorem literalForm_eq {s : State} {tok : Byte} (hlen : s.lane.len = literalCode tok) :
    (extendLiteralLength s).andThen copyLiterals = literalForm (tokLL tok) s := by
  have hcopy : (fun u : State => copyLiterals (u.goto .copyLiterals)) = copyLiterals :=
    funext fun u => copyLiterals_goto u _
  unfold extendLiteralLength literalForm
  rw [hlen, Flow.andThen_assoc]
  simp only [literalCode, nibble_toNat_eq_iff, Flow.goesOn_andThen, hcopy]
  split <;> rfl

theorem matchForm_eq {s : State} {tok : Byte} (htok : s.lane.tok = tok) :
    extendMatchLength s = matchForm (tokML tok) s := by
  subst htok
  unfold extendMatchLength matchForm
  simp only [loadMatchCode, State.withLane_lane, matchCode, nibble_toNat_eq_iff]
  split
  · rename_i h
    rw [h]
    rfl
  · rfl

/-! ### What the decoder's steps leave in the registers where they go on -/

theorem extend_goesOn {cause : Cause} {s t : State} (h : extend cause s = .goesOn t) :
    ∃ ip len, t = s.withLane { s.lane with ip := ip, len := len } := by
  unfold extend at h
  rcases extendLoop_cases cause (s.lane.srcSize - s.lane.ip) s with
    ⟨len, ip, -, -, -, -, -, he⟩ | ⟨len, ip, -, -, -, -, -, he⟩ <;> rw [he] at h
  · exact ⟨ip, len, (Flow.goesOn.inj h).symm⟩
  · cases h

/-- CopyLiterals fails, or copies into the output and finishes (R155, R157). -/
theorem copyLiterals_outcome (s : State) :
    (∃ c, c ≠ .none ∧ copyLiterals s = .ended (raiseFail c (s.withLane { s.lane with cend := s.lane.op + s.lane.len })))
      ∨ ∃ u, CopyFrame (s.withLane { s.lane with cend := s.lane.op + s.lane.len }) u s.lane.op
          (s.lane.op + ceilTo s.W s.lane.len) ∧ copyLiterals s = finishLiterals u := by
  rcases copyLiterals_cases s with ⟨-, he⟩ | ⟨-, -, he⟩ | ⟨-, -, -, he⟩ | ⟨-, -, -, he⟩
  · exact .inl ⟨_, by decide, he⟩
  · exact .inl ⟨_, by decide, he⟩
  · exact .inl ⟨_, by decide, he⟩
  · exact .inr ⟨_, wildCopyIn_copyFrame s.W_pos _ _ _ _, he⟩

theorem copyLiterals_goesOn {s t : State} (h : copyLiterals s = .goesOn t) :
    t.lane = { s.lane with
      cend := s.lane.op + s.lane.len, ip := s.lane.ip + s.lane.len, op := s.lane.op + s.lane.len
      state := .readMatch, vec := t.lane.vec } := by
  rcases copyLiterals_outcome s with ⟨c, -, he⟩ | ⟨u, hu, he⟩ <;> rw [he] at h
  · cases h
  · rcases finishLiterals_cases u with ⟨-, hf⟩ | ⟨-, hf⟩ <;> rw [hf] at h <;> cases h
    rw [State.withLane_lane, hu.only.lane]
    rfl

theorem readOffset_goesOn {off : Half} {s t : State} (h : readOffset off s = .goesOn t) :
    t = s.withLane { s.lane with
      off := off, ip := s.lane.ip + 2, mp := s.lane.op - off.toNat, state := .extendMatchLength } := by
  rcases readOffset_cases off s with ⟨-, he⟩ | ⟨-, he⟩ <;> rw [he] at h
  · cases h
  · rcases takeOffset_cases off s with ⟨-, he⟩ | ⟨-, -, he⟩ | ⟨-, -, he⟩ <;> rw [he] at h <;> cases h
    rfl

/-- Where a part of the decoder goes on, `TOK` is as given. -/
def Flow.HasTok (fl : Flow) (tok : Byte) : Prop := ∀ t, fl = .goesOn t → t.lane.tok = tok

theorem Flow.HasTok.andThen {fl : Flow} {f : State → Flow} {tok : Byte} (h : fl.HasTok tok)
    (hf : ∀ t : State, t.lane.tok = tok → (f t).HasTok tok) : (fl.andThen f).HasTok tok := by
  cases fl with
  | goesOn t => exact hf t (h t rfl)
  | ended t => exact fun _ h => by cases h

theorem copyLiterals_hasTok {s : State} {tok : Byte} (h : s.lane.tok = tok) : (copyLiterals s).HasTok tok :=
  fun t ht => by rw [copyLiterals_goesOn ht]; exact h

theorem readMatch_hasTok {s : State} {tok : Byte} (h : s.lane.tok = tok) : (readMatch s).HasTok tok :=
  fun t ht => by rw [readOffset_goesOn ht]; exact h

theorem literalForm_hasTok {ll : Nibble} {s : State} {tok : Byte} (h : s.lane.tok = tok) :
    (literalForm ll s).HasTok tok := by
  have hext : (extend .litExtEos s).HasTok tok := fun t ht => by
    obtain ⟨ip, len, rfl⟩ := extend_goesOn ht
    exact h
  unfold literalForm
  split
  · exact hext.andThen fun t => copyLiterals_hasTok
  · exact copyLiterals_hasTok h

/-- After a token, the decoder's steps do what the form of that token does (R163 to R166). -/
theorem sequenceBody_eq {s : State} {tok : Byte} (htok : s.lane.tok = tok) (hlen : s.lane.len = literalCode tok) :
    sequenceBody s =
      (((literalForm (tokLL tok) s).andThen readMatch).andThen (matchForm (tokML tok))).andThen copyMatch := by
  have hkeep : ((literalForm (tokLL tok) s).andThen readMatch).HasTok tok :=
    (literalForm_hasTok htok).andThen fun t => readMatch_hasTok
  unfold sequenceBody
  rw [literalForm_eq hlen, Flow.andThen_congr fun t ht => matchForm_eq (hkeep t ht)]

theorem literalForm_fifteen : literalForm 15#4 = fun s => (extend .litExtEos s).andThen copyLiterals :=
  funext fun _ => if_pos rfl

theorem literalForm_of_ne {ll : Nibble} (h : ll ≠ 15#4) : literalForm ll = copyLiterals := funext fun _ => if_neg h

theorem matchForm_fifteen : matchForm 15#4 = fun s =>
    (extend .matExtEos (s.withLane { s.lane with len := 15 })).andThen fun s => .goesOn (addMinMatch s) :=
  funext fun _ => if_pos rfl

theorem matchForm_of_ne {ml : Nibble} (h : ml ≠ 15#4) :
    matchForm ml = fun s => .goesOn (addMinMatch (loadMatchCode s)) := funext fun _ => if_neg h

/-- The sequence as its form has it: ReadToken, then the parts the two nibbles choose (R96, R163 to R166). -/
theorem runSequence_tokenByte (ll ml : Nibble) (s : State) :
    runSequence (tokenByte ll ml) s =
      ((((readToken (tokenByte ll ml) s).andThen (literalForm ll)).andThen readMatch).andThen (matchForm ml)).andThen
        copyMatch := by
  unfold runSequence
  rcases readToken_cases (tokenByte ll ml) s with ⟨-, he⟩ | ⟨-, he⟩ <;> rw [he]
  · rfl
  · rw [Flow.goesOn_andThen, sequenceBody_eq (tok := tokenByte ll ml) rfl rfl, Laws.tokLL_tokenByte,
      Laws.tokML_tokenByte]
    rfl

/-- The decoded form of a token runs the whole sequence (D28). -/
theorem exec_decodeToken (tok : Byte) (s : State) : exec (decodeToken tok) s = atToken s (runSequence tok) := by
  obtain ⟨ll, ml, rfl⟩ : ∃ ll ml, tok = tokenByte ll ml := ⟨_, _, (Laws.tokenByte_nibbles tok).symm⟩
  have hseq := funext (runSequence_tokenByte ll ml)
  have hassoc : ∀ u, (readToken (tokenByte 15#4 ml) u).andThen (fun u => (extend .litExtEos u).andThen copyLiterals) =
      ((readToken (tokenByte 15#4 ml) u).andThen (extend .litExtEos)).andThen copyLiterals :=
    fun u => (Flow.andThen_assoc _ _ _).symm
  rw [Laws.decodeToken_eq, Laws.tokLL_tokenByte, Laws.tokML_tokenByte, hseq]
  by_cases hll : ll = 15#4 <;> by_cases hml : ml = 15#4
  · subst hll hml
    simp only [if_true, literalForm_fifteen, matchForm_fifteen, hassoc]
    rfl
  · subst hll
    simp only [if_true, if_neg hml, literalForm_fifteen, matchForm_of_ne hml, hassoc]
    rfl
  · subst hml
    simp only [if_true, if_neg hll, literalForm_of_ne hll, matchForm_fifteen]
    rfl
  · simp only [if_neg hll, if_neg hml, literalForm_of_ne hll, matchForm_of_ne hml]
    rfl

/-! ### The decoder's steps at the grain of R30 -/

/-- One step of the acting lane at the grain of R30. -/
def MicroStep (s t : State) : Prop := microStep s = .next t

/-- A chain of such steps. -/
abbrev MicroSteps : State → State → Prop := Relation.ReflTransGen MicroStep

/-- A chain of steps is a run of some length. -/
theorem MicroSteps.microRun {s t : State} (h : MicroSteps s t) : ∃ k, microRun k s = .next t := by
  induction h using Relation.ReflTransGen.head_induction_on with
  | refl => exact ⟨0, rfl⟩
  | head hstep _ ih =>
    obtain ⟨k, hk⟩ := ih
    exact ⟨k + 1, by rw [Machine.microRun, hstep]; exact hk⟩

/-- Away from a token the two grains are the same. -/
theorem microStep_of_ne_readToken {s : State} (h : s.lane.state ≠ .readToken) : microStep s = laneStep s := if_neg h

/-- At a token, on spans in order, the step is ReadToken alone, whose byte counts only if there is one (R152). -/
theorem microStep_readToken {s : State} (hsp : s.SpansOk) (hs : s.lane.state = .readToken) :
    microStep s = .next (readToken (s.src s.lane.ip) s).state := by
  obtain ⟨hsrc, hdst, hspan⟩ := hsp
  unfold microStep
  rw [if_pos hs, onSpans_of_ok _ hsrc hdst hspan]
  rcases readToken_cases (s.src s.lane.ip) s with ⟨hip, he⟩ | ⟨hip, he⟩ <;> rw [he] <;> unfold fetchBytes
  · rw [show min Slot.token.size (s.lane.srcSize - s.lane.ip) = 0 by omega]
    rfl
  · rw [show min Slot.token.size (s.lane.srcSize - s.lane.ip) = 1 by simp only [Slot.size]; omega, srcRead_one]
    simp only [he]

/-- The spans of a lane stay as they are along a decode (R28). -/
theorem StepFrame.spansOk {s t : State} (h : StepFrame s t) (hsp : s.SpansOk) : t.SpansOk := by
  obtain ⟨hsb, hss, hdb, hds, -⟩ := h.command
  have ho := h.othersSame
  unfold State.SpansOk at *
  rwa [hsb, hss, hdb, hds, ho.params, ho.regions]

/-- A part of the decoder, from a lane that stands at the step `st` to one that stands at `st'` where it goes on: it
keeps to the frame of a decode, and the steps of R30 perform it. -/
structure DecoderPart (st st' : LaneState) (f : State → Flow) : Prop where
  frame : ∀ s, StepFrame s (f s).state
  reaches : ∀ {s : State}, s.lane.At st → (f s).Reaches s.lane st'
  steps : ∀ {s : State}, s.SpansOk → s.lane.At st → MicroSteps s (f s).state

/-- Two parts one after the other. -/
theorem DecoderPart.andThen {st st' st'' : LaneState} {f g : State → Flow} (hf : DecoderPart st st' f)
    (hg : DecoderPart st' st'' g) : DecoderPart st st'' fun s => (f s).andThen g where
  frame s := Flow.andThen_frame (hf.frame s) fun t _ => hg.frame t
  reaches h := (hf.reaches h).andThen fun _ => hg.reaches
  steps {s} hsp h := by
    have hframe := hf.frame s
    have hreach := hf.reaches h
    have hsteps := hf.steps hsp h
    cases hfl : f s with
    | ended t => rwa [hfl] at hsteps
    | goesOn t =>
      rw [hfl] at hsteps hframe
      exact hsteps.trans (hg.steps (hframe.spansOk hsp) (hreach.goesOn t hfl))

/-- A lane inside its decode that reads no element takes the inner step, at either grain. -/
theorem microStep_of_inner {s : State} (hsp : s.SpansOk) (hs : s.lane.state ≠ .readToken)
    (hd : s.lane.state.decoding = true) (hslot : s.lane.slot = none) : microStep s = innerStep s := by
  rw [microStep_of_ne_readToken hs, laneStep_of_inner hsp hd hslot]

theorem copyLiterals_part : DecoderPart .copyLiterals .readMatch copyLiterals where
  frame := copyLiterals_frame
  reaches h := copyLiterals_reaches (.inr h)
  steps {s} hsp h := by
    refine .single ?_
    unfold MicroStep
    rw [microStep_of_inner hsp (by simp [h.1]) (by rw [h.1]; rfl) (by simp [Lane.slot, h.1]), innerStep, h.1]

theorem copyMatch_part : DecoderPart .copyMatch .readToken copyMatch where
  frame := copyMatch_frame
  reaches := copyMatch_reaches
  steps {s} hsp h := by
    refine .single ?_
    unfold MicroStep
    rw [microStep_of_inner hsp (by simp [h.1]) (by rw [h.1]; rfl) (by simp [Lane.slot, h.1]), innerStep, h.1]

theorem readMatch_part : DecoderPart .readMatch .extendMatchLength readMatch where
  frame s := readOffset_frame _ s
  reaches h := readOffset_reaches _ h
  steps {s} hsp h := by
    refine .single ?_
    have hs := h.1
    unfold MicroStep
    rw [microStep_of_ne_readToken (by simp [hs]), laneStep_of_slot hsp (slot := .field) (by simp [Lane.slot, hs])]
    rcases Nat.lt_or_ge (s.lane.srcSize - s.lane.ip) 2 with hip | hip
    · rw [fetchStep_of_short hip, hs]
      unfold readMatch readOffset
      rw [if_pos hip]
      rfl
    · rw [fetchStep_field hip]
      exact if_pos hs

/-! ### An extension, byte by byte (R153) -/

/-- The lane with its position inside the EXTEND loop set (R153). -/
def State.withInExt (s : State) (b : Bool) : State := s.withLane { s.lane with inExt := b }

/-- Inside an extension the step fetches an extension byte. -/
theorem microStep_inExt {s : State} (hsp : s.SpansOk) (hs : s.lane.AtExtension) :
    microStep (s.withInExt true) = fetchStep .ext (s.withInExt true) := by
  have hslot : (s.withInExt true).lane.slot = some .ext := by
    rcases hs with hs | hs <;> simp [State.withInExt, Lane.slot, hs]
  have hne : (s.withInExt true).lane.state ≠ .readToken := by
    rcases hs with hs | hs <;> simp [State.withInExt, hs]
  rw [microStep_of_ne_readToken hne]
  exact laneStep_of_slot hsp hslot

/-- No byte is left: the extension fails (R153). -/
theorem microStep_inExt_short {s : State} (hsp : s.SpansOk) (hs : s.lane.AtExtension)
    (hip : s.lane.srcSize ≤ s.lane.ip) : MicroStep (s.withInExt true) (raiseFail (eosCause s.lane.state) s) := by
  unfold MicroStep
  rw [microStep_inExt hsp hs,
    fetchStep_of_short (by simp only [State.withInExt, State.withLane_lane, Slot.size]; omega)]
  rfl

/-- A byte is left: it is added, and the extension goes on after a byte 255 and ends after any other (R100, R153). -/
theorem microStep_inExt_byte {s : State} (hsp : s.SpansOk) (hs : s.lane.AtExtension)
    (hip : s.lane.ip < s.lane.srcSize) :
    MicroStep (s.withInExt true)
      (if s.src s.lane.ip = 255#8 then (extendByte (s.src s.lane.ip) s).withInExt true
        else leaveExtension (extendByte (s.src s.lane.ip) s)) := by
  have hin : (s.withInExt true).extending = true := (State.extending_iff _).mpr ⟨rfl, hs⟩
  have hat : ∀ k : State → State, atExtension (s.withInExt true) k = .next (k (s.withInExt true)) := fun k => by
    have hleft : ¬ (s.withInExt true).lane.srcSize ≤ (s.withInExt true).lane.ip := Nat.not_le.mpr hip
    rw [atExtension, if_pos hin, if_neg hleft]
  unfold MicroStep
  rw [microStep_inExt hsp hs, fetchStep_ext (s := s.withInExt true) hip, Laws.decodeExt_eq,
    show (s.withInExt true).src (s.withInExt true).lane.ip = s.src s.lane.ip from rfl]
  split
  · rename_i hb
    rw [hb]
    exact hat _
  · exact hat fun u => leaveExtension (extendByte _ u)

/-- Inside an extension, the steps of R30 read its bytes one by one, and do what the whole EXTEND loop does, and then
what ends it (R153, R154, R160). -/
theorem extendLoop_microSteps (fuel : Nat) {s : State} (hsp : s.SpansOk) (hs : s.lane.AtExtension)
    (hfuel : s.lane.srcSize - s.lane.ip ≤ fuel) :
    MicroSteps (s.withInExt true)
      ((extendLoop (eosCause s.lane.state) fuel s).andThen fun t => .goesOn (leaveExtension t)).state := by
  induction fuel generalizing s with
  | zero => exact .single (microStep_inExt_short hsp hs (by omega))
  | succ fuel ih =>
    rw [extendLoop]
    rcases Nat.lt_or_ge s.lane.ip s.lane.srcSize with hip | hip
    · have hstep := microStep_inExt_byte hsp hs hip
      rw [if_neg (by omega)]
      by_cases hb : s.src s.lane.ip = 255#8
      · rw [if_pos hb] at hstep
        simp only [if_pos hb]
        exact .head hstep (ih (s := extendByte (s.src s.lane.ip) s) hsp hs
          (by simp only [extendByte, State.withLane_lane]; omega))
      · rw [if_neg hb] at hstep
        simp only [if_neg hb]
        exact .single hstep
    · rw [if_pos hip]
      exact .single (microStep_inExt_short hsp hs hip)

/-- A step that reads no element, outside an extension, enters one. -/
theorem extension_microSteps {s u : State} (hstep : MicroStep s (u.withInExt true)) (hsp : u.SpansOk)
    (hu : u.lane.AtExtension) :
    MicroSteps s ((extend (eosCause u.lane.state) u).andThen fun t => .goesOn (leaveExtension t)).state :=
  .head hstep (extendLoop_microSteps _ hsp hu (Nat.le_refl _))

theorem leaveExtension_literal {s : State} (h : s.lane.At .extendLiteralLength) :
    leaveExtension s = s.goto .copyLiterals := by
  obtain ⟨hs, hx⟩ := h
  unfold leaveExtension State.goto
  rw [← hx]
  exact if_neg (by simp [hs])

theorem leaveExtension_match {s : State} (h : s.lane.At .extendMatchLength) : leaveExtension s = addMinMatch s := by
  obtain ⟨hs, hx⟩ := h
  unfold leaveExtension
  rw [← hx]
  exact if_pos hs

/-- Whether EXTEND is performed, by the length so far (R154, R160). -/
def extendIfFifteen (cause : Cause) (s : State) : Flow := if s.lane.len = 15 then extend cause s else .goesOn s

theorem extendIfFifteen_reaches {cause : Cause} (hc : cause ≠ .none) {s : State} {st : LaneState} (h : s.lane.At st)
    (hst : st = .extendLiteralLength ∨ st = .extendMatchLength) : (extendIfFifteen cause s).Reaches s.lane st := by
  unfold extendIfFifteen
  split
  · exact extend_reaches hc h hst
  · exact .next .refl h

/-- A step from `s` that reads no element has come to `u`, inside an extension if the length is 15 and past it by `f` if
not; then the steps of R30 perform the extension, if any, and `f`, which ends it. -/
theorem extendIfFifteen_microSteps {s u : State} {st : LaneState} {f : State → State} (hsp : u.SpansOk)
    (hu : u.lane.At st) (hst : st = .extendLiteralLength ∨ st = .extendMatchLength)
    (hf : ∀ t : State, t.lane.At st → leaveExtension t = f t)
    (hstep : MicroStep s (if u.lane.len = 15 then u.withInExt true else f u)) :
    MicroSteps s ((extendIfFifteen (eosCause st) u).andThen fun t => .goesOn (f t)).state := by
  have hreach := extendIfFifteen_reaches (eosCause_ne_none st) hu hst
  have hu' : u.lane.AtExtension := by rwa [Lane.AtExtension, hu.1]
  rw [← Flow.andThen_congr fun t ht => congrArg Flow.goesOn (hf t (hreach.goesOn t ht)), ← hu.1]
  unfold extendIfFifteen
  by_cases hlen : u.lane.len = 15
  · rw [if_pos hlen] at hstep ⊢
    exact .head hstep (extendLoop_microSteps _ hsp hu' (Nat.le_refl _))
  · rw [if_neg hlen, ← hf u hu] at hstep
    rw [if_neg hlen]
    exact .single hstep

theorem extendLiteralLength_part : DecoderPart .extendLiteralLength .copyLiterals extendLiteralLength where
  frame := extendLiteralLength_frame
  reaches {s} h := (extendIfFifteen_reaches (cause := .litExtEos) (by decide) h (.inl rfl)).andThen fun t ht =>
    .next (.single (.literals ht.1 ht.2)) ⟨rfl, ht.2⟩
  steps {s} hsp h := by
    have hs := h.1
    refine extendIfFifteen_microSteps hsp h (.inl rfl) (fun t => leaveExtension_literal) ?_
    unfold MicroStep
    rw [microStep_of_inner hsp (by simp [hs]) (by rw [hs]; rfl) (by simp [Lane.slot, hs, h.2]), innerStep, hs]
    rfl

theorem extendMatchLength_part : DecoderPart .extendMatchLength .copyMatch extendMatchLength where
  frame := extendMatchLength_frame
  reaches {s} h := by
    have hload : s.lane.Move (loadMatchCode s).lane := .matchCode _ h.1 (matchCode_le _)
    have hext := extendIfFifteen_reaches (cause := .matExtEos) (s := loadMatchCode s) (by decide) h (.inr rfl)
    have hrest := hext.andThen fun t => addMinMatch_reaches
    exact ⟨.head hload hrest.moves, hrest.goesOn⟩
  steps {s} hsp h := by
    have hs := h.1
    refine extendIfFifteen_microSteps (u := loadMatchCode s) hsp h (.inr rfl) (fun t => leaveExtension_match) ?_
    unfold MicroStep
    rw [microStep_of_inner hsp (by simp [hs]) (by rw [hs]; rfl) (by simp [Lane.slot, hs, h.2]), innerStep, hs]
    rfl

/-- After the token, the steps of R30 perform the rest of the sequence. -/
theorem sequenceBody_part : DecoderPart .extendLiteralLength .readToken sequenceBody :=
  (((extendLiteralLength_part.andThen copyLiterals_part).andThen readMatch_part).andThen extendMatchLength_part).andThen
    copyMatch_part

/-- At a sequence boundary a lane's step runs the whole sequence, or fails for want of a token (R152). -/
theorem laneStep_at_token {s : State} (hsp : s.SpansOk) (hs : s.lane.state = .readToken) :
    laneStep s = .next (runSequence (s.src s.lane.ip) s).state := by
  rw [laneStep_of_slot hsp (slot := .token) (by simp [Lane.slot, hs])]
  rcases Nat.lt_or_ge s.lane.ip s.lane.srcSize with hip | hip
  · rw [fetchStep_token hip, exec_decodeToken, atToken_of _ hs hsp]
  · rw [fetchStep_of_short (by simp only [Slot.size]; omega), hs, runSequence, readToken, if_pos hip]
    rfl

/-- Settles O39: a sequence is ReadToken and then the rest, each of whose parts the steps of R30 perform. -/
theorem microStepsComposeToSequence : Obligations.MicroStepsComposeToSequence := by
  rintro s t - ⟨-, hsp, hs, -⟩ h
  rw [laneStep_at_token hsp hs] at h
  obtain rfl := Host.Outcome.next.inj h
  have hfirst := microStep_readToken hsp hs
  have hframe := readToken_frame (s.src s.lane.ip) s
  have hreach := readToken_reaches (s.src s.lane.ip) hs
  have hrest : MicroSteps (readToken (s.src s.lane.ip) s).state (runSequence (s.src s.lane.ip) s).state := by
    unfold runSequence
    cases htok : readToken (s.src s.lane.ip) s with
    | ended u => exact .refl
    | goesOn u =>
      rw [htok] at hframe
      exact sequenceBody_part.steps (hframe.spansOk hsp) (hreach.goesOn u htok)
  obtain ⟨k, hk⟩ := hrest.microRun
  exact ⟨k + 1, by omega, by rw [microRun, hfirst]; exact hk⟩

/-! ### The diagnostic registers (R31, R240) -/

/-- The diagnostic registers are as they were, or a failure has recorded its cause and both cursors (R31, R240). -/
def Lane.Diagnosed (l l' : Lane) : Prop :=
  SameDiagnosis l l' ∨ (l'.state = .failed ∧ l'.fcause ≠ .none ∧ l'.fip = l'.ip ∧ l'.fop = l'.op)

theorem Lane.Diagnosed.same (l : Lane) : l.Diagnosed l := .inl ⟨rfl, rfl, rfl⟩

theorem raiseFail_diagnosed {c : Cause} (hc : c ≠ .none) (l : Lane) (s : State) : l.Diagnosed (raiseFail c s).lane :=
  .inr ⟨rfl, hc, rfl, rfl⟩

/-- A move writes the diagnostic registers at a failure only, and none follows a failure but one of `VEC`. -/
theorem Lane.Move.keeps_diagnosed {l₀ l l' : Lane} (h : l.Move l') (hl : l₀.Diagnosed l) : l₀.Diagnosed l' := by
  have hdec : l.state.decoding = true → SameDiagnosis l₀ l := fun hd =>
    hl.resolve_right fun ⟨hs, _⟩ => by rw [hs] at hd; cases hd
  cases h with
  | fail c hd hc => exact .inr ⟨rfl, hc, rfl, rfl⟩
  | vec | cend => exact hl
  | extend _ _ hs | inExt _ hs => exact .inl (hdec hs.decoding)
  | token _ hs | literals hs | succeed hs | advance hs | offset _ hs | pointer hs | matchCode _ hs | bias hs
  | matched _ hs => exact .inl (hdec (by rw [hs]; rfl))

theorem Lane.Moves.diagnosed {l l' : Lane} (h : l.Moves l') : l.Diagnosed l' :=
  h.keep Lane.Move.keeps_diagnosed (.same l)

theorem readOffset_diagnosed (off : Half) (s : State) : s.lane.Diagnosed (readOffset off s).state.lane := by
  rcases readOffset_cases off s with ⟨-, he⟩ | ⟨-, he⟩ <;> rw [he]
  · exact raiseFail_diagnosed (by decide) _ _
  · rcases takeOffset_cases off s with ⟨-, he⟩ | ⟨-, -, he⟩ | ⟨-, -, he⟩ <;> rw [he]
    · exact raiseFail_diagnosed (by decide) _ _
    · exact raiseFail_diagnosed (by decide) _ _
    · exact .inl ⟨rfl, rfl, rfl⟩

theorem copyLiterals_diagnosed (s : State) : s.lane.Diagnosed (copyLiterals s).state.lane := by
  rcases copyLiterals_outcome s with ⟨c, hc, he⟩ | ⟨u, hu, he⟩ <;> rw [he]
  · exact raiseFail_diagnosed hc _ _
  · have hsame : SameDiagnosis s.lane u.lane := by
      rw [hu.only.lane]
      exact ⟨rfl, rfl, rfl⟩
    rcases finishLiterals_cases u with ⟨-, hf⟩ | ⟨-, hf⟩ <;> rw [hf] <;> exact .inl hsame

theorem copyMatch_diagnosed (s : State) : s.lane.Diagnosed (copyMatch s).state.lane := by
  rcases copyMatch_cases s with ⟨-, he⟩ | ⟨-, t, he, hf, -⟩ <;> rw [he]
  · exact raiseFail_diagnosed (by decide) _ _
  · rw [Flow.goesOn_state, hf.lane]
    exact .inl ⟨rfl, rfl, rfl⟩

/-- A stream element writes the diagnostic registers at a failure only. -/
theorem exec_element_diagnosed {i : Instr} {slot : Slot} (hi : i.slot = some slot) {s t : State}
    (h : exec i s = .next t) : s.lane.Diagnosed t.lane := by
  cases i with
  | seq ll ml => exact (execSeq_moves h).diagnosed
  | seqXL ml => exact (execSeqXL_moves h).diagnosed
  | seqXM ll => exact (execSeqXM_moves h).diagnosed
  | seqXLXM => exact (execSeqXLXM_moves h).diagnosed
  | extCont => exact (execExtCont_moves h).diagnosed
  | extEnd value => exact (execExtEnd_moves h).diagnosed
  | offset off =>
    obtain ⟨-, rfl⟩ := execOffset_next h
    exact readOffset_diagnosed off s
  | copyOverlap8 | copyOverlap16 | copyOverlap32 | copyFromOutput8 | copyFromOutput16 | copyFromOutput32
  | wildCopyIn8 | wildCopyIn16 | wildCopyIn32 | wildCopyOut8 | wildCopyOut16 | wildCopyOut32
  | select | update | decompress => cases hi

theorem innerStep_diagnosed {s t : State} (h : innerStep s = .next t) : s.lane.Diagnosed t.lane := by
  unfold innerStep at h
  split at h <;> obtain rfl := Host.Outcome.next.inj h
  · split <;> exact .inl ⟨rfl, rfl, rfl⟩
  · split <;> exact .inl ⟨rfl, rfl, rfl⟩
  · exact copyLiterals_diagnosed s
  · exact copyMatch_diagnosed s
  all_goals exact .same _

/-- A step of a decode writes the diagnostic registers at a failure only. -/
theorem laneStep_diagnosed {s t : State} (hd : s.lane.state.decoding = true) (h : laneStep s = .next t) :
    s.lane.Diagnosed t.lane := by
  obtain ⟨-, ⟨slot, -, hf⟩ | ⟨-, hi⟩⟩ := laneStep_decoding hd h
  · unfold fetchStep at hf
    split at hf
    · rename_i i rest heq
      exact exec_element_diagnosed (decode_slot heq) hf
    · obtain rfl := Host.Outcome.next.inj hf
      exact raiseFail_diagnosed (eosCause_ne_none _) _ _
  · exact innerStep_diagnosed hi

/-! ### What each operation can do -/

/-- A micro-operation stores in the output of the acting lane only, and changes no register but `MP` and `VEC` (R66). -/
structure CopiedOut (s t : State) : Prop where
  only : OnlyCopied s t
  keeps : KeepsOutside s t 0 s.lane.dstSize

theorem CopiedOut.of_microOp {ok : Bool} {s t u : State} {m b e : Nat} {k : State → State}
    (h : microOp ok s k = .next t) (hk : k s = u.setMp m) (hf : CopyFrame s u b e) : CopiedOut s t := by
  obtain ⟨ho, -, hkeep, -⟩ := microOp_frame h hk hf
  exact ⟨ho, fun x hx => hkeep x (by omega)⟩

theorem CopiedOut.of_copyOverlap {w : Nat} (hw : w = 8 ∨ w = 16 ∨ w = 32) {ok : Bool} {s u : State} {t m n : Nat}
    (h : microOp ok s (copyOverlap w t m n) = .next u) : CopiedOut s u := by
  obtain ⟨v, hv, hf⟩ := copyOverlap_frame hw t m n s
  exact .of_microOp h hv hf

theorem CopiedOut.of_copyFromOutput {w : Nat} {ok : Bool} {s u : State} {t src : Nat}
    (h : microOp ok s (copyFromOutput w t src) = .next u) : CopiedOut s u :=
  .of_microOp h rfl (strideOut_copyFrame w t src s)

theorem CopiedOut.of_wildCopyIn {w : Nat} (hw : 0 < w) {ok : Bool} {s u : State} {t src size : Nat}
    (h : microOp ok s (wildCopyIn w t src size) = .next u) : CopiedOut s u :=
  .of_microOp (m := (wildCopyIn w t src size s).lane.mp) h rfl (wildCopyIn_copyFrame hw t src size s)

theorem CopiedOut.of_wildCopyOut {w : Nat} (hw : 0 < w) {ok : Bool} {s u : State} {t src size : Nat}
    (h : microOp ok s (wildCopyOut w t src size) = .next u) : CopiedOut s u :=
  .of_microOp (m := (wildCopyOut w t src size s).lane.mp) h rfl (wildCopyOut_copyFrame hw t src size s)

/-- What a transaction that answers a next state has done: it waited for the lock, or ran with the lock free (R33). -/
theorem transact_next {ctx : Nat} {s t : State} {k : Context → State} (h : transact ctx s k = .next t) :
    ∃ c, s.ctxs[ctx]? = some c ∧ ((c.lock = true ∧ t = s) ∨ (c.lock = false ∧ t = k c)) := by
  rcases transact_cases ctx s k with ⟨-, he⟩ | ⟨c, hc, hl, he⟩ | ⟨c, hc, hl, he⟩ <;> rw [he] at h
  · cases h
  · exact ⟨c, hc, .inl ⟨hl, (Host.Outcome.next.inj h).symm⟩⟩
  · exact ⟨c, hc, .inr ⟨hl, (Host.Outcome.next.inj h).symm⟩⟩

/-- What DECOMPRESS can do, as whole states: it waits; it is done at once; or it starts the decode, with the narrowest
variant, or with the selected one and the time read (R212 to R215). -/
theorem execDecompress_next {cmd : Command} {s t : State} (h : execDecompress cmd s = .next t) :
    t = s
      ∨ t = s.withLane { s.lane.latched cmd with state := .done }
      ∨ t = s.withLane (s.lane.started cmd 0 s.lane.t0)
      ∨ ∃ c, t = (s.setCtx cmd.stats (locked countCall c)).withLane
          (s.lane.started cmd (chosenVariant c) s.time) := by
  unfold execDecompress at h
  split at h
  · cases h
  · rename_i hcp
    split_ifs at h with hwait htriv hmeas
    · exact .inl (Host.Outcome.next.inj h).symm
    · exact .inr (.inl (Host.Outcome.next.inj h).symm)
    · obtain ⟨c, hc, ⟨hl, -⟩ | ⟨-, rfl⟩⟩ := transact_next h
      · have hc : s.ctxs[cmd.stats]? = some c := hc
        simp [selectWaits, hmeas, hc, hl] at hwait
      · exact .inr (.inr (.inr ⟨c, rfl⟩))
    · exact .inr (.inr (.inl (Host.Outcome.next.inj h).symm))

/-- What an operation that answers a next state has done. -/
inductive Executed (s : State) : Instr → State → Prop
  /-- A stream element took a step of the decode. -/
  | element {i : Instr} {slot : Slot} {t : State} (hi : i.slot = some slot) (hf : StepFrame s t)
      (hd : s.lane.Diagnosed t.lane) : Executed s i t
  /-- A micro-operation copied. -/
  | copied {i : Instr} {t : State} (hc : CopiedOut s t) : Executed s i t
  /-- A transaction, or the SELECT of a command, waits for a lock. -/
  | waits {i : Instr} : Executed s i s
  | select (ctx : Nat) (c : Context) : Executed s (.select ctx) (selectEffect ctx s c)
  | update (ctx : Nat) (v : Variant) (elapsed : Wide) (bytes : Nat) (c : Context) :
      Executed s (.update ctx v elapsed bytes) (updateEffect ctx v elapsed bytes s c)
  | decompress (cmd : Command) (t : State) (h : execDecompress cmd s = .next t) : Executed s (.decompress cmd) t

theorem exec_executed {i : Instr} {s t : State} (h : exec i s = .next t) : Executed s i t := by
  have helement : ∀ {slot : Slot}, i.slot = some slot → Executed s i t := fun hi =>
    .element hi (exec_frame hi h) (exec_element_diagnosed hi h)
  cases i with
  | seq | seqXL | seqXM | seqXLXM | extCont | extEnd | offset => exact helement rfl
  | copyOverlap8 | copyOverlap16 | copyOverlap32 => exact .copied (.of_copyOverlap (by decide) h)
  | copyFromOutput8 | copyFromOutput16 | copyFromOutput32 => exact .copied (.of_copyFromOutput h)
  | wildCopyIn8 | wildCopyIn16 | wildCopyIn32 => exact .copied (.of_wildCopyIn (by decide) h)
  | wildCopyOut8 | wildCopyOut16 | wildCopyOut32 => exact .copied (.of_wildCopyOut (by decide) h)
  | select ctx =>
    obtain ⟨c, -, ⟨-, rfl⟩ | ⟨-, rfl⟩⟩ := transact_next h
    · exact .waits
    · exact .select ctx c
  | update ctx v elapsed bytes =>
    obtain ⟨c, -, ⟨-, rfl⟩ | ⟨-, rfl⟩⟩ := transact_next h
    · exact .waits
    · exact .update ctx v elapsed bytes c
  | decompress cmd => exact .decompress cmd t h

/-! ### What the response leaves (R216, R242) -/

theorem Lane.respondWith_result (d : Nat) (l : Lane) : (l.respondWith d).result = verdict l.state := rfl

theorem verdict_eq (st : LaneState) : verdict st = decide (st = .done) := by cases st <;> rfl

/-- The response keeps the command registers, `VSEL` and the time the decode began (R28, R31). -/
theorem Lane.respondWith_command (d : Nat) (l : Lane) :
    SameCommand l { l.respondWith d with result := l.result } := by
  unfold Lane.respondWith
  split <;> exact ⟨rfl, rfl, rfl, rfl, rfl, rfl, rfl, rfl⟩

/-- The response keeps the diagnostic registers (R31). -/
theorem Lane.respondWith_diagnosis (d : Nat) (l : Lane) : SameDiagnosis l (l.respondWith d) := by
  unfold Lane.respondWith
  split <;> exact ⟨rfl, rfl, rfl⟩

/-! ### What a step leaves of the core around the acting lane -/

/-- The contexts are as they were, or a transaction on one of them has ended, its lock free again (R33). -/
def Transacted (s t : State) : Prop := t.ctxs = s.ctxs ∨ ∃ i f c, t.ctxs = s.ctxs.set i (locked f c)

/-- What every step of a lane leaves alone: the other lanes, the parameters, the regions, the host, the agenda, `TIME`
and the time the decode began; of the contexts, all but the one of a command that ends (R20, R215, R218). -/
structure LaneFrame (s t : State) : Prop where
  lanesBelow : t.lanesBelow = s.lanesBelow
  lanesAbove : t.lanesAbove = s.lanesAbove
  params : t.params = s.params
  regions : t.regions = s.regions
  host : t.host = s.host
  agenda : t.agenda = s.agenda
  time : t.time = s.time
  t0 : t.lane.t0 = s.lane.t0
  ctxs : t.ctxs = s.ctxs ∨ ((s.lane.state = .done ∨ s.lane.state = .failed)
    ∧ ∃ f c, t.ctxs = s.ctxs.set s.lane.ctx (locked f c))

theorem StepFrame.laneFrame {s t : State} (h : StepFrame s t) : LaneFrame s t := by
  obtain ⟨-, -, -, -, -, -, -, ht0⟩ := h.command
  have ht := h.around
  unfold SameAround at ht
  rw [ht]
  exact ⟨rfl, rfl, rfl, rfl, rfl, rfl, rfl, ht0, .inl rfl⟩

/-- Delivering the response leaves what every step of a lane leaves, from contexts already updated. -/
theorem laneFrame_deliver {s u : State} (hu : u = s.withCtxs u.ctxs)
    (hctxs : u.ctxs = s.ctxs ∨ ((s.lane.state = .done ∨ s.lane.state = .failed)
      ∧ ∃ f c, u.ctxs = s.ctxs.set s.lane.ctx (locked f c))) : LaneFrame s (deliver u) := by
  obtain ⟨-, -, -, -, -, -, -, ht0⟩ := Lane.respondWith_command u.draws u.lane
  have hl : u.lane = s.lane := by rw [hu]; rfl
  refine ⟨?_, ?_, ?_, ?_, ?_, ?_, ?_, ?_, ?_⟩
  · rw [deliver_lanesBelow, hu]; rfl
  · rw [deliver_lanesAbove, hu]; rfl
  · rw [deliver_params, hu]; rfl
  · rw [deliver_regions, hu]; rfl
  · rw [deliver_host, hu]; rfl
  · rw [deliver_agenda, hu]; rfl
  · rw [deliver_time, hu]; rfl
  · rw [deliver_lane, ← hl]; exact ht0
  · rw [deliver_ctxs]; exact hctxs

theorem laneStep_laneFrame {s t : State} (h : laneStep s = .next t) : LaneFrame s t := by
  have hrefl : LaneFrame s s := (StepFrame.refl s).laneFrame
  rcases laneStep_cases h with ⟨-, rfl⟩ | ⟨-, -, hf⟩ | ⟨hst, hr⟩
  · exact hrefl
  · exact hf.laneFrame
  · rcases respond_next hr with ⟨-, c, -, ⟨-, rfl⟩ | ⟨-, rfl⟩⟩ | ⟨-, rfl⟩
    · exact hrefl
    · exact laneFrame_deliver rfl (.inr ⟨hst, _, c, rfl⟩)
    · exact laneFrame_deliver rfl (.inl rfl)

theorem LaneFrame.othersSame {s t : State} (h : LaneFrame s t) : OthersSame s t where
  params := h.params
  regions := h.regions
  nCtx := by
    rcases h.ctxs with he | ⟨-, f, c, he⟩ <;> rw [he]
    exact List.length_set
  others := by rw [State.otherLanes, h.lanesBelow, h.lanesAbove, State.otherLanes]

theorem LaneFrame.transacted {s t : State} (h : LaneFrame s t) : Transacted s t :=
  h.ctxs.imp id fun ⟨_, f, c, he⟩ => ⟨s.lane.ctx, f, c, he⟩

/-! ### Time and locks -/

/-- What the clock and the locks rest on in one step of an agent: `TIME` stands, the acting lane's t0 is the old one or
`TIME` itself, and every transaction has ended (R33, R34, R215). -/
structure ClockFrame (s t : State) : Prop where
  others : OthersSame s t
  time : t.time = s.time
  t0 : t.lane.t0 = s.lane.t0 ∨ t.lane.t0 = s.time
  transacted : Transacted s t

theorem LaneFrame.clockFrame {s t : State} (h : LaneFrame s t) : ClockFrame s t :=
  ⟨h.othersSame, h.time, .inl h.t0, h.transacted⟩

theorem execDecompress_clockFrame {cmd : Command} {s t : State} (h : execDecompress cmd s = .next t) :
    ClockFrame s t := by
  rcases execDecompress_next h with rfl | rfl | rfl | ⟨c, rfl⟩
  · exact ⟨.refl _, rfl, .inl rfl, .inl rfl⟩
  · exact ⟨⟨rfl, rfl, rfl, rfl⟩, rfl, .inl rfl, .inl rfl⟩
  · exact ⟨⟨rfl, rfl, rfl, rfl⟩, rfl, .inl rfl, .inl rfl⟩
  · exact ⟨⟨rfl, rfl, List.length_set, rfl⟩, rfl, .inr rfl, .inr ⟨_, _, c, rfl⟩⟩

/-- A transaction leaves every lock free (R33). -/
theorem Transacted.locksFree {s t : State} (h : Transacted s t) (hs : ∀ c ∈ s.ctxs, c.lock = false) :
    ∀ c ∈ t.ctxs, c.lock = false := by
  intro c hc
  rcases h with he | ⟨i, f, c', he⟩ <;> rw [he] at hc
  · exact hs c hc
  · rcases List.mem_or_eq_of_mem_set hc with hc | rfl
    · exact hs c hc
    · rfl

theorem ClockAndLockInv.of_clockFrame {s t : State} (h : ClockAndLockInv s) (hf : ClockFrame s t) :
    ClockAndLockInv t := by
  obtain ⟨hlock, ht0⟩ := h
  refine ⟨hf.transacted.locksFree hlock, ?_⟩
  rw [hf.time]
  refine hf.others.forall_lanes ht0 ?_
  rcases hf.t0 with he | he <;> rw [he]
  · exact ht0 _ s.lane_mem_lanes
  · exact BitVec.le_refl _

/-- Moving the timer on and giving a lane its turn keeps the clock and the locks in order. -/
theorem ClockAndLockInv.of_turned {s u : State} (h : ClockAndLockInv s) (hu : Turned s u) : ClockAndLockInv u := by
  obtain ⟨hl, -, -, -, hc, ht, -⟩ := hu
  obtain ⟨hlock, ht0⟩ := h
  unfold ClockAndLockInv
  rw [hl, hc]
  exact ⟨hlock, fun l hm => BitVec.le_trans (ht0 l hm) ht⟩

/-- No move of the host moves `TIME` (R34). -/
theorem hostStep_time {s t : State} (h : hostStep s = .next t) : t.time = s.time := by
  cases hostMoved_of_hostStep h with
  | nothing | provide | store | reset => rfl
  | waits k cmd rest u hh hu hw =>
    obtain ⟨-, -, hu⟩ := State.focus_some hu
    rw [hu]
  | issue k cmd rest u t hh hu hw ht =>
    obtain ⟨-, -, hu⟩ := State.focus_some hu
    rw [(execDecompress_clockFrame ht).time, hu]

theorem hostStep_keeps_clockAndLockInv {s t : State} (h : ClockAndLockInv s) (hs : hostStep s = .next t) :
    ClockAndLockInv t := by
  cases hostMoved_of_hostStep hs with
  | nothing | provide | store => exact h
  | reset rest hh hidle =>
    refine ⟨fun c hc => ?_, fun l hl => ?_⟩
    · obtain ⟨-, -, rfl⟩ := List.mem_map.mp hc
      rfl
    · rw [State.mem_afterReset_lanes hl]
      exact Nat.zero_le _
  | waits k cmd rest u hh hu hw => exact h.of_turned (turned_focus hu)
  | issue k cmd rest u t hh hu hw ht =>
    have hu : ClockAndLockInv u := h.of_turned (turned_focus hu)
    exact .of_clockFrame (s := { u with host := rest }) hu (execDecompress_clockFrame ht)

/-! ### A lane's turn -/

/-- What the decoder reads is well formed (R96, R100). -/
theorem decode_wf {slot : Slot} {bytes rest : List Byte} {i : Instr} (h : decode slot bytes = .ok (i, rest)) :
    i.wf = true := by
  have htok : ∀ b, (decodeToken b).wf = true := fun b => by
    rw [Laws.decodeToken_eq]
    split_ifs with hll hml hml <;> simp [Instr.wf, *]
  have hext : ∀ b, (decodeExt b).wf = true := fun b => by
    rw [Laws.decodeExt_eq]
    split_ifs with hb <;> simp [Instr.wf, *]
  cases slot with
  | token =>
    cases bytes with
    | nil => cases h
    | cons b bs => obtain ⟨rfl, -⟩ := Prod.mk.inj (Except.ok.inj h); exact htok b
  | ext =>
    cases bytes with
    | nil => cases h
    | cons b bs => obtain ⟨rfl, -⟩ := Prod.mk.inj (Except.ok.inj h); exact hext b
  | field =>
    rcases bytes with _ | ⟨b0, _ | ⟨b1, bs⟩⟩
    · cases h
    · cases h
    · obtain ⟨rfl, -⟩ := Prod.mk.inj (Except.ok.inj h); rfl

/-- In a lane's turn, a step of the core is a step of that lane. -/
theorem step_of_turnOf {s u : State} (h : s.TurnOf u) : step s = laneStep u := by
  have hon : ∀ {v : State} {k : Nat}, v.focus k = some u → onLane v k laneStep = laneStep u := fun hv => by
    rw [onLane, hv]
  unfold step coreStep agentStep
  rcases h with ⟨hagenda, hrun, rfl⟩ | ⟨hagenda, hidle, k, l, hl, hrun, hbefore, hu⟩ | ⟨k, rest, hagenda, hu⟩
  · rw [State.tick_agenda, hagenda]
    exact if_neg hrun
  · have hfirst : s.tick.runningLane = some k := by
      obtain ⟨hk, rfl⟩ := List.getElem?_eq_some_iff.mp hl
      refine List.findIdx?_eq_some_iff_getElem.mpr ⟨hk, by simpa using hrun, fun j hj => ?_⟩
      simpa using hbefore _ (List.mem_take_iff_getElem.mpr ⟨j, by omega, rfl⟩)
    rw [State.tick_agenda, hagenda]
    simp only [defaultTurn, State.tick_lane, if_pos hidle, hfirst]
    exact hon hu
  · rw [State.tick_agenda, hagenda]
    exact hon hu

/-! ### The statements settled -/

/-- Settles O56: every lane comes from one before the step by a chain of moves, a command taken, a response or a reset,
each of which keeps its cursors in order. -/
theorem cursorsStayInOrder : Obligations.CursorsStayInOrder := fun _ _ => step_keeps_cursorInv

/-- Settles O31: an operation or a step of a lane keeps the diagnostic registers or fails, and a command's start clears
them. -/
theorem diagnosticsChangeOnlyAtFailure : Obligations.DiagnosticsChangeOnlyAtFailure := by
  refine ⟨fun i s t hi h => ?_, fun s t h => ?_, fun cmd s t h => ?_⟩
  · cases exec_executed h with
    | element hslot hf hd => exact hd
    | copied hc => rw [hc.only]; exact .inl ⟨rfl, rfl, rfl⟩
    | waits | select | update => exact .inl ⟨rfl, rfl, rfl⟩
    | decompress cmd => exact absurd rfl (hi cmd)
  · rcases laneStep_cases h with ⟨-, rfl⟩ | ⟨hd, -, -⟩ | ⟨-, hr⟩
    · exact .inl ⟨rfl, rfl, rfl⟩
    · exact (laneStep_diagnosed hd h).imp id fun hfail => ⟨hd, hfail⟩
    · rcases respond_lane hr with rfl | ⟨-, hl⟩
      · exact .inl ⟨rfl, rfl, rfl⟩
      · rw [hl]; exact .inl (Lane.respondWith_diagnosis _ _)
  · rcases execDecompress_next h with rfl | rfl | rfl | ⟨c, rfl⟩
    · exact .inl rfl
    all_goals exact .inr ⟨rfl, rfl, rfl⟩

/-- Settles O32: no operation writes `RESULT`, and a step of a lane does only where it delivers the response. -/
theorem resultWrittenOnlyAtResponse : Obligations.ResultWrittenOnlyAtResponse := by
  refine ⟨fun i s t h => ?_, fun s t h => ?_⟩
  · cases exec_executed h with
    | element hslot hf hd =>
      obtain ⟨-, -, -, -, -, hresult, -⟩ := hf.command
      exact hresult
    | copied hc => rw [hc.only]; rfl
    | waits | select | update => rfl
    | decompress cmd t h => rcases execDecompress_next h with rfl | rfl | rfl | ⟨c, rfl⟩ <;> rfl
  · rcases laneStep_cases h with ⟨-, rfl⟩ | ⟨-, -, hf⟩ | ⟨hst, hr⟩
    · exact .inl rfl
    · obtain ⟨-, -, -, -, -, hresult, -⟩ := hf.command
      exact .inl hresult
    · rcases respond_lane hr with rfl | ⟨-, hl⟩
      · exact .inl rfl
      · rw [hl, Lane.respondWith_result, verdict_eq]
        exact .inr ⟨hst, rfl, rfl⟩

/-- Settles O33: a stream element and a micro-operation keep the command registers and `VSEL`, and so does a step of a
lane, the response included. -/
theorem commandRegistersStayLatched : Obligations.CommandRegistersStayLatched := by
  refine ⟨fun i s t hi h => ?_, fun s t h => ?_⟩
  · cases exec_executed h with
    | element hslot hf hd =>
      obtain ⟨hsb, hss, hdb, hds, hctx, -, hvsel, -⟩ := hf.command
      exact ⟨hsb, hss, hdb, hds, hctx, fun _ => hvsel⟩
    | copied hc => rw [hc.only]; exact ⟨rfl, rfl, rfl, rfl, rfl, fun _ => rfl⟩
    | waits | update => exact ⟨rfl, rfl, rfl, rfl, rfl, fun _ => rfl⟩
    | select ctx => exact ⟨rfl, rfl, rfl, rfl, rfl, fun hne => absurd rfl (hne ctx)⟩
    | decompress cmd => exact absurd rfl (hi cmd)
  · rcases laneStep_lanes h with rfl | ⟨-, ⟨-, hc⟩ | hl⟩
    · exact ⟨rfl, rfl, rfl, rfl, rfl, rfl⟩
    · obtain ⟨hsb, hss, hdb, hds, hctx, -, hvsel, -⟩ := hc
      exact ⟨hsb, hss, hdb, hds, hctx, hvsel⟩
    · obtain ⟨hsb, hss, hdb, hds, hctx, -, hvsel, -⟩ := Lane.respondWith_command s.draws s.lane
      rw [hl]
      exact ⟨hsb, hss, hdb, hds, hctx, hvsel⟩

/-- Settles O35: the frame of a decode step: the cursors do not move back, and stores start at `OP`. -/
theorem committedPrefixIsFinal : Obligations.CommittedPrefixIsFinal := by
  intro s t hd h
  have hf := laneStep_frame hd h
  obtain ⟨-, -, hdb, -⟩ := hf.command
  exact ⟨hf.ip_le, hf.op_le, fun j hj => hf.keeps.dst hdb (.inl hj)⟩

/-- Settles O37: an idle lane does nothing, and any other keeps to `LaneFrame`. -/
theorem laneStepKeepsTheRest : Obligations.LaneStepKeepsTheRest := by
  intro s t h
  have hf := laneStep_laneFrame h
  refine ⟨fun hidle => ?_, hf.lanesBelow, hf.lanesAbove, hf.params, hf.regions, hf.host, hf.agenda, hf.time,
    hf.othersSame.nCtx, fun k hk => ?_⟩
  · unfold laneStep at h
    rw [hidle] at h
    exact (Host.Outcome.next.inj h).symm
  · rcases hf.ctxs with he | ⟨hst, f, c, he⟩ <;> rw [he]
    have hne : k ≠ s.lane.ctx := hk.resolve_right fun hn => hst.elim hn.1 hn.2
    exact List.getElem?_set_ne hne.symm

/-- Settles O53: the timer moves forward in a step, and no agent moves it. -/
theorem timeNeverDecreases : Obligations.TimeNeverDecreases := by
  intro s t h
  obtain ⟨u, ⟨-, -, -, -, -, htime, -⟩, hh | hl⟩ := step_cases h
  · rwa [hostStep_time hh]
  · rwa [(laneStep_laneFrame hl).time]

/-- Settles O57: every transaction ends in the step it begins in, and t0 is read from `TIME`, which never goes back. -/
theorem locksAreFreeBetweenSteps : Obligations.LocksAreFreeBetweenSteps := by
  intro s t h hs
  obtain ⟨u, hu, hh | hl⟩ := step_cases hs
  · exact hostStep_keeps_clockAndLockInv (h.of_turned hu) hh
  · exact (h.of_turned hu).of_clockFrame (laneStep_laneFrame hl).clockFrame

/-- Settles O10: the turn is that lane's, whose step fetches at `IP`, and what is decoded there is well formed. -/
theorem stepRunsDecodedElement : Obligations.StepRunsDecodedElement := by
  intro s u slot i rest hturn hsp hslot hdec
  refine ⟨?_, decode_wf hdec⟩
  rw [step_of_turnOf hturn, laneStep_of_slot hsp hslot, fetchStep, hdec]

/-! ### The match copy lays down the pattern of its offset (R161, R131) -/

/-- The first stride's advance stays within the offset and in phase with a stride (R126, R161). -/
theorem firstAdvance_spec (w : Nat) {off : Nat} (h : 1 ≤ off) :
    firstAdvance w off ≤ off ∧ firstAdvance w off % off = w % off := by
  unfold firstAdvance
  split
  · exact (advance_spec w off h).2
  · exact ⟨by omega, rfl⟩

/-- The first stride lays W bytes, as an overlap copy or as a plain one (R161). -/
theorem firstMatchStride_laid {s : State} (hm : s.mem.wf) (hoff : 1 ≤ s.lane.off.toNat)
    (hop : s.lane.op = s.lane.mp + s.lane.off.toNat) :
    Laid s (firstMatchStride s) s.lane.mp s.lane.off.toNat s.W := by
  unfold firstMatchStride
  rw [hop]
  split
  · exact copyOverlap_laid hm s.W_cases _ _ hoff
  · have hplain := (Laid.zero hm s.lane.mp s.lane.off.toNat).stride_stage (w := s.W) (a := 0) (by omega) rfl
    rw [Nat.zero_add] at hplain
    exact hplain.congr _ rfl rfl

/-- The first two strides lay 2W bytes (R161). -/
theorem matchStrides_laid {s : State} (hm : s.mem.wf) (hoff : 1 ≤ s.lane.off.toNat)
    (hop : s.lane.op = s.lane.mp + s.lane.off.toNat) :
    Laid s (matchStrides s) s.lane.mp s.lane.off.toNat (2 * s.W) := by
  obtain ⟨hadv, hphase⟩ := firstAdvance_spec s.W hoff
  obtain ⟨hframe, hop1, hmp1, -⟩ := firstMatchStride_spec (MatchFrame.refl s s.lane.op) rfl (Nat.le_add_right _ _)
  have hfirst := firstMatchStride_laid hm hoff hop
  have hW : (firstMatchStride s).W = s.W := hframe.W
  unfold matchStrides
  generalize firstMatchStride s = u at *
  have hsecond := (hfirst.congr { u.lane with op := u.lane.op + u.W } rfl rfl).stride_stage
    (w := s.W) (a := firstAdvance s.W s.lane.off.toNat) (by omega) hphase
  rw [← hmp1, ← hop, ← hop1, ← hW, ← Nat.two_mul] at hsecond
  rw [← hW]
  exact hsecond.congr _ rfl rfl

/-- A wild copy from the laid pattern extends it to the end of its last stride (R122, R131). -/
theorem Laid.wild_stage {s t : State} {m n c w a : Nat} (h : Laid s t m n c) (hw : 0 < w) (ha : a + w ≤ n + c)
    (hp : a % n = c % n) (size : Nat) :
    Laid s (wildCopyOut w (m + n + c) (m + a) size t) m n (c + ceilTo w size) := by
  rw [← strideCount_mul hw]
  exact h.strides_stage _ ha hp

/-- A match that is copied ends within the output (R161). -/
theorem copyMatch_goesOn_le {s t : State} (h : copyMatch s = .goesOn t) : s.lane.op + s.lane.len ≤ s.lane.dstSize := by
  rcases copyMatch_cases s with ⟨-, he⟩ | ⟨hdst, -⟩
  · rw [he] at h; cases h
  · exact hdst

/-- A match that is copied is laid down in its whole length (R161). -/
theorem copyMatch_laid {s t : State} (hm : s.mem.wf) (hoff : 1 ≤ s.lane.off.toNat)
    (hop : s.lane.op = s.lane.mp + s.lane.off.toNat) (h : copyMatch s = .goesOn t) :
    ∃ c, s.lane.len ≤ c ∧ Laid s t s.lane.mp s.lane.off.toNat c := by
  obtain ⟨hadv, hphase⟩ := firstAdvance_spec s.W hoff
  have hceil := (ceilTo_bounds s.W_pos (s.lane.len - 2 * s.W)).1
  have hlaid := matchStrides_laid (s := s.withLane { s.lane with cend := s.lane.op + s.lane.len }) hm hoff hop
  obtain ⟨hframe, hop2, hmp2, hcend2⟩ := matchStrides_spec
    (MatchFrame.refl (s.withLane { s.lane with cend := s.lane.op + s.lane.len }) s.lane.op) rfl (Nat.le_add_right _ _)
  have hW : (matchStrides (s.withLane { s.lane with cend := s.lane.op + s.lane.len })).W = s.W := hframe.W
  have hlen := hframe.len
  have hdst : ¬ s.lane.dstSize < s.lane.op + s.lane.len := Nat.not_lt.mpr (copyMatch_goesOn_le h)
  unfold copyMatch at h
  simp only [State.withLane_lane, if_neg hdst] at h
  generalize matchStrides (s.withLane { s.lane with cend := s.lane.op + s.lane.len }) = u at *
  have hbase : Laid s u s.lane.mp s.lane.off.toNat (2 * s.W) := ⟨hlaid.base, hlaid.size, hlaid.wf, hlaid.bytes⟩
  clear hframe hlaid
  simp only [State.withLane_lane, State.withLane_W] at hlen hop2 hmp2 hcend2
  rw [show width s.lane.vsel = s.W from rfl] at hop2 hmp2
  by_cases hlong : 2 * u.W < u.lane.len
  · rw [if_pos hlong] at h
    split at h
    · cases h
    obtain rfl := Flow.goesOn.inj h
    have hwild := hbase.wild_stage s.W_pos (a := firstAdvance s.W s.lane.off.toNat + s.W) (by omega)
      (by rw [Nat.two_mul, Nat.add_mod, hphase, ← Nat.add_mod]) (s.lane.len - 2 * s.W)
    have hcopy : wildCopyOut u.W (u.lane.op + u.W) u.lane.mp (u.lane.cend - (u.lane.op + u.W)) u =
        wildCopyOut s.W (s.lane.mp + s.lane.off.toNat + 2 * s.W)
          (s.lane.mp + (firstAdvance s.W s.lane.off.toNat + s.W)) (s.lane.len - 2 * s.W) u := by
      rw [hW]
      congr 1 <;> omega
    rw [hcopy]
    exact ⟨_, by omega, hwild.congr _ rfl rfl⟩
  · rw [if_neg hlong] at h
    obtain rfl := Flow.goesOn.inj h
    exact ⟨2 * s.W, by omega, hbase.congr _ rfl rfl⟩

/-- Every byte of a match is the byte `OFF` before it (R161). -/
theorem copyMatch_selfCopy {s t : State} (hm : s.mem.wf) (hoff : 1 ≤ s.lane.off.toNat)
    (hop : s.lane.op = s.lane.mp + s.lane.off.toNat) (h : copyMatch s = .goesOn t) :
    ∀ j, j < s.lane.len → t.dst (s.lane.op + j) = t.dst (s.lane.op + j - s.lane.off.toNat) := by
  obtain ⟨c, hc, hlaid⟩ := copyMatch_laid hm hoff hop h
  have hdst := copyMatch_goesOn_le h
  intro j hj
  rw [hop, show s.lane.mp + s.lane.off.toNat + j = s.lane.mp + (s.lane.off.toNat + j) by omega,
    show s.lane.mp + (s.lane.off.toNat + j) - s.lane.off.toNat = s.lane.mp + j by omega,
    hlaid.bytes _ (by omega) (by omega), hlaid.bytes j (by omega) (by omega), Nat.add_mod_left]

/-! ### The output and the block as lists (R12, R167) -/

theorem State.output_eq (s : State) (n : Nat) : s.output n = (List.range n).map s.dst := rfl

@[simp] theorem State.length_output (s : State) (n : Nat) : (s.output n).length = n := by simp [State.output_eq]

theorem State.output_congr {s t : State} {n : Nat} (h : ∀ j, j < n → t.dst j = s.dst j) : t.output n = s.output n :=
  List.map_congr_left fun j hj => h j (List.mem_range.mp hj)

theorem State.output_add (s : State) (n k : Nat) :
    s.output (n + k) = s.output n ++ (List.range k).map fun j => s.dst (n + j) := by
  rw [State.output_eq, List.range_add, List.map_append, List.map_map]
  rfl

theorem State.getD_output (s : State) {n i : Nat} (h : i < n) : (s.output n).getD i 0#8 = s.dst i := by
  rw [List.getD_eq_getElem _ _ (by simpa using h)]
  simp [State.output_eq]

/-- A stretch of the block (R61). -/
theorem State.take_drop_block (s : State) {a k : Nat} (h : a + k ≤ s.lane.srcSize) :
    (s.block.drop a).take k = (List.range k).map fun j => s.src (a + j) := by
  refine List.ext_getElem (by simp; omega) fun j h1 h2 => ?_
  simp [State.block]

/-- Literals copied to the end of the output extend it by a stretch of the block (R155). -/
theorem output_of_literals {s t : State} {n a k : Nat} (hkeep : ∀ j, j < n → t.dst j = s.dst j)
    (hcopy : ∀ j, j < k → t.dst (n + j) = s.src (a + j)) (h : a + k ≤ s.lane.srcSize) :
    t.output (n + k) = s.output n ++ (s.block.drop a).take k := by
  rw [State.output_add, State.output_congr hkeep, s.take_drop_block h]
  exact congrArg _ (List.map_congr_left fun j hj => hcopy j (List.mem_range.mp hj))

/-- A match whose every byte is the byte `off` before it is REF's match loop (R167). -/
theorem output_of_match {t : State} {off : Nat} (hoff : 1 ≤ off) (m : Nat) {n : Nat} (hn : off ≤ n)
    (hcopy : ∀ j, j < m → t.dst (n + j) = t.dst (n + j - off)) : t.output (n + m) = refCopy off m (t.output n) := by
  induction m generalizing n with
  | zero => rfl
  | succ m ih =>
    have hbyte : t.dst n = t.dst (n - off) := hcopy 0 (by omega)
    have hone : t.output n ++ [(t.output n).getD ((t.output n).length - off) 0#8] = t.output (n + 1) := by
      rw [State.output_add, State.length_output, State.getD_output _ (by omega), ← hbyte]
      rfl
    rw [refCopy, hone, show n + (m + 1) = n + 1 + m by omega]
    refine ih (by omega) fun j hj => ?_
    rw [Nat.add_right_comm]
    exact hcopy (j + 1) (by omega)

theorem StepFrame.slackOk {s t : State} (h : StepFrame s t) (hs : s.SlackOk) : t.SlackOk := by
  unfold State.SlackOk
  rwa [h.othersSame.params]

/-- A decode writes neither its block nor the slack after it (R62, R76). -/
theorem StepFrame.block {s t : State} (h : StepFrame s t) (hsp : s.SpansOk) : t.block = s.block := by
  obtain ⟨hsb, hss, -⟩ := h.command
  unfold State.block State.srcRead
  rw [hsb, hss]
  refine Memory.readBytes_congr fun j hj => h.keeps _ ?_
  rcases Nat.eq_zero_or_pos s.lane.dstSize with hD | hD
  · omega
  · have := hsp.apart (i := j) (by omega) hD
    omega

/-! ### Each part of a sequence does what REF does (R167, R168) -/

/-- A decode has ended as REF's result says, its diagnostic registers after a success apart (R168). -/
def State.StoppedAs (t : State) : RefResult → Prop
  | .ok out => t.lane.state = .done ∧ t.output t.lane.dstSize = out
  | .fail c ip op => t.lane.state = .failed ∧ t.lane.fcause = c ∧ t.lane.fip = ip ∧ t.lane.fop = op

theorem State.StoppedAs.state_ne {t : State} {r : RefResult} (h : t.StoppedAs r) : t.lane.state ≠ .readToken := by
  cases r with
  | ok out => rw [h.1]; decide
  | fail c ip op => rw [h.1]; decide

/-- A part of the decoder agrees with one pass of REF's loop: it goes on to a sequence boundary at REF's next cursor,
with REF's output, or has stopped with REF's result. -/
def Flow.Agrees (fl : Flow) : RefStep → Prop
  | .more ip out => ∃ t, fl = .goesOn t ∧ t.AtBoundary ∧ t.lane.ip = ip ∧ t.output t.lane.op = out
  | .stop r => ∃ t, fl = .ended t ∧ t.StoppedAs r

/-- A failure is REF's failure with the same cause and cursors. -/
theorem Flow.Agrees.raise {c : Cause} {s : State} {ip op : Nat} (hip : s.lane.ip = ip) (hop : s.lane.op = op) :
    (Flow.ended (raiseFail c s)).Agrees (.stop (.fail c ip op)) := ⟨_, rfl, rfl, rfl, hip, hop⟩

/-- The length a code stands for, with its extension where it has one, as REF reads it (R92, R153). -/
theorem extendIfFifteen_cases (cause : Cause) {s : State} {code : Nibble} (hlen : s.lane.len = code.toNat)
    (hip : s.lane.ip ≤ s.lane.srcSize) :
    (∃ len ip, refLength s.block code s.lane.ip = .ok (len, ip) ∧ ip ≤ s.lane.srcSize
        ∧ extendIfFifteen cause s = .goesOn (s.withLane { s.lane with ip := ip, len := len }))
      ∨ ∃ len ip, refLength s.block code s.lane.ip = .error ip
        ∧ extendIfFifteen cause s = .ended (raiseFail cause (s.withLane { s.lane with ip := ip, len := len })) := by
  unfold refLength extendIfFifteen
  rw [hlen]
  by_cases hcode : code = 15#4
  · subst hcode
    rw [State.length_block, if_pos rfl, if_pos (show (15#4).toNat = 15 from rfl)]
    rcases extendLoop_cases cause (s.lane.srcSize - s.lane.ip) s with
      ⟨len, ip, hr, -, hle, -, -, he⟩ | ⟨len, ip, hr, -, -, -, -, he⟩ <;> rw [hlen] at hr
    · exact .inl ⟨len, ip, hr, hle, he⟩
    · exact .inr ⟨len, ip, hr, he⟩
  · rw [if_neg hcode, if_neg (by rwa [nibble_toNat_eq_iff])]
    exact .inl ⟨_, _, rfl, hip, by rw [← hlen]; rfl⟩

/-- CopyMatch, from a match pointer `OFF` behind the output's end, does what REF's match loop does (R161, R167). -/
theorem copyMatch_agrees {s : State} (hm : s.mem.wf) (hslack : s.SlackOk) (hsp : s.SpansOk)
    (hip : s.lane.ip ≤ s.lane.srcSize) (hoff : 1 ≤ s.lane.off.toNat)
    (hop : s.lane.op = s.lane.mp + s.lane.off.toNat) :
    (copyMatch s).Agrees (if s.lane.dstSize < s.lane.op + s.lane.len then .stop (.fail .matchDst s.lane.ip s.lane.op)
      else .more s.lane.ip (refCopy s.lane.off.toNat s.lane.len (s.output s.lane.op))) := by
  have hframe := copyMatch_frame s
  rcases copyMatch_cases s with ⟨hdst, he⟩ | ⟨hdst, t, he, hf, htop, -, hts, -⟩
  · rw [he, if_pos hdst]
    exact .raise rfl rfl
  · rw [he, Flow.goesOn_state] at hframe
    rw [he, if_neg (by omega)]
    obtain ⟨-, -, hdb, hds, -⟩ := hframe.command
    have htip : t.lane.ip = s.lane.ip := by rw [hf.lane]
    have hss : t.lane.srcSize = s.lane.srcSize := by rw [hf.lane]
    have hout : t.output t.lane.op = refCopy s.lane.off.toNat s.lane.len (s.output s.lane.op) := by
      rw [htop, output_of_match hoff s.lane.len (by omega) (copyMatch_selfCopy hm hoff hop he),
        State.output_congr fun j hj => hframe.keeps.dst hdb (.inl hj)]
    exact ⟨t, rfl, ⟨hframe.slackOk hslack, hframe.spansOk hsp, hts, by omega, by omega⟩, htip, hout⟩

/-- REF's match part from the match length on (R95, R167). -/
def refMatchLength (src : List Byte) (d : Nat) (ml : Nibble) (ip off : Nat) (out : List Byte) : RefStep :=
  match refLength src ml ip with
  | .error ip => .stop (.fail .matExtEos ip out.length)
  | .ok (m, ip) =>
    if d < out.length + (m + Config.minMatch) then .stop (.fail .matchDst ip out.length)
    else .more ip (refCopy off (m + Config.minMatch) out)

/-- REF's match part tests the offset's presence, then its value, then reads the match length (R94, R167). -/
theorem refMatch_eq (src : List Byte) (d : Nat) (ml : Nibble) (ip : Nat) (out : List Byte) :
    refMatch src d ml ip out =
      if src.length - ip < 2 then .stop (.fail .offsetEos ip out.length)
      else if (offsetOf (src.getD ip 0#8) (src.getD (ip + 1) 0#8)).toNat = 0 then
        .stop (.fail .offsetZero (ip + 2) out.length)
      else if out.length < (offsetOf (src.getD ip 0#8) (src.getD (ip + 1) 0#8)).toNat then
        .stop (.fail .offsetRange (ip + 2) out.length)
      else refMatchLength src d ml (ip + 2) (offsetOf (src.getD ip 0#8) (src.getD (ip + 1) 0#8)).toNat out := rfl

/-- The match length and the match do what REF's do (R160, R161, R167). -/
theorem matchLength_agrees {s : State} (hm : s.mem.wf) (hslack : s.SlackOk) (hsp : s.SpansOk)
    (hip : s.lane.ip ≤ s.lane.srcSize) (hoff : 1 ≤ s.lane.off.toNat)
    (hop : s.lane.op = s.lane.mp + s.lane.off.toNat) :
    ((extendMatchLength s).andThen copyMatch).Agrees (refMatchLength s.block s.lane.dstSize (tokML s.lane.tok) s.lane.ip
      s.lane.off.toNat (s.output s.lane.op)) := by
  have hcases := extendIfFifteen_cases .matExtEos (s := loadMatchCode s) (code := tokML s.lane.tok) rfl hip
  rw [show (loadMatchCode s).block = s.block from rfl, show (loadMatchCode s).lane.ip = s.lane.ip from rfl] at hcases
  have hunfold : extendMatchLength s =
      (extendIfFifteen .matExtEos (loadMatchCode s)).andThen fun u => .goesOn (addMinMatch u) := rfl
  unfold refMatchLength
  rw [hunfold]
  rcases hcases with ⟨m, next, hr, hle, he⟩ | ⟨m, next, hr, he⟩ <;> rw [hr, he]
  · simp only [State.length_output]
    exact copyMatch_agrees (s := addMinMatch (s.withLane { s.lane with ip := next, len := m }))
      hm hslack hsp hle hoff hop
  · simp only [State.length_output]
    exact .raise rfl rfl

/-- The match part of a sequence does what REF's does (R158 to R161, R167). -/
theorem matchPart_agrees {s : State} (hm : s.mem.wf) (hslack : s.SlackOk) (hsp : s.SpansOk) :
    (((readMatch s).andThen extendMatchLength).andThen copyMatch).Agrees
      (refMatch s.block s.lane.dstSize (tokML s.lane.tok) s.lane.ip (s.output s.lane.op)) := by
  rw [refMatch_eq, readMatch, State.length_block, State.length_output]
  rcases readOffset_cases (offsetOf (s.src s.lane.ip) (s.src (s.lane.ip + 1))) s with ⟨hip, he⟩ | ⟨hip, he⟩ <;> rw [he]
  · rw [if_pos hip]
    exact .raise rfl rfl
  rw [if_neg (by omega), s.getD_block (by omega), s.getD_block (by omega)]
  generalize offsetOf (s.src s.lane.ip) (s.src (s.lane.ip + 1)) = off
  have hzero : off.toNat = 0 ↔ off = 0#16 :=
    ⟨fun h => BitVec.eq_of_toNat_eq h, fun h => by rw [h]; rfl⟩
  rcases takeOffset_cases off s with ⟨h0, he⟩ | ⟨h0, hrange, he⟩ | ⟨h0, hrange, he⟩ <;> rw [he]
  · rw [if_pos (hzero.mpr h0)]
    exact .raise rfl rfl
  · rw [if_neg (mt hzero.mp h0), if_pos hrange]
    exact .raise rfl rfl
  · rw [if_neg (mt hzero.mp h0), if_neg (by omega)]
    have hpos : off.toNat ≠ 0 := mt hzero.mp h0
    exact matchLength_agrees (s := s.withLane { s.lane with
        off := off, ip := s.lane.ip + 2, mp := s.lane.op - off.toNat, state := .extendMatchLength }) hm hslack hsp
      (by simp only [State.withLane_lane]; omega) (Nat.pos_of_ne_zero hpos) (by simp only [State.withLane_lane]; omega)

/-- From the literals on, a sequence does what REF does (R155 to R161, R167). -/
theorem literals_agree {s : State} (hm : s.mem.wf) (hslack : s.SlackOk) (hsp : s.SpansOk) :
    ((((copyLiterals s).andThen readMatch).andThen extendMatchLength).andThen copyMatch).Agrees
      (if s.lane.dstSize < s.lane.op + s.lane.len then .stop (.fail .litDst s.lane.ip s.lane.op)
        else if s.lane.srcSize < s.lane.ip + s.lane.len then .stop (.fail .litSrc s.lane.ip s.lane.op)
        else if s.lane.op + s.lane.len = s.lane.dstSize then
          .stop (.ok (s.output s.lane.op ++ (s.block.drop s.lane.ip).take s.lane.len))
        else refMatch s.block s.lane.dstSize (tokML s.lane.tok) (s.lane.ip + s.lane.len)
          (s.output s.lane.op ++ (s.block.drop s.lane.ip).take s.lane.len)) := by
  rcases copyLiterals_cases s with ⟨hdst, he⟩ | ⟨hdst, hsrc, he⟩ | ⟨-, hsrc, hover, -⟩ | ⟨hdst, hsrc, -, -⟩
  · rw [he, if_pos hdst]
    exact .raise rfl rfl
  · rw [he, if_neg (by omega), if_pos hsrc]
    exact .raise rfl rfl
  · have := ceilTo_within_slack hslack hsrc
    omega
  rw [if_neg (by omega), if_neg (by omega)]
  have hframe := copyLiterals_frame s
  obtain ⟨t, he, hf, hcopy⟩ := copyLiterals_copies hm hslack hsp hdst hsrc
  have hl := hf.only.lane
  have hcend : t.lane.cend = s.lane.op + s.lane.len := by rw [hl]; rfl
  have hdsize : t.lane.dstSize = s.lane.dstSize := by rw [hl]; rfl
  have hout : t.output (s.lane.op + s.lane.len) = s.output s.lane.op ++ (s.block.drop s.lane.ip).take s.lane.len :=
    output_of_literals (fun j hj => hf.keeps.dst hf.only.dstBase (.inl hj)) hcopy hsrc
  rw [← hout, ← hcend, ← hdsize, he]
  rw [he] at hframe
  rcases finishLiterals_cases t with ⟨hend, hfin⟩ | ⟨hend, hfin⟩ <;> rw [hfin] at hframe ⊢
  · rw [if_pos hend, hend]
    exact ⟨_, rfl, rfl, rfl⟩
  · have htok : t.lane.tok = s.lane.tok := by rw [hl]; rfl
    have hip : t.lane.ip = s.lane.ip := by rw [hl]; rfl
    have hlen : t.lane.len = s.lane.len := by rw [hl]; rfl
    rw [if_neg hend, ← hframe.block hsp, ← htok, ← hip, ← hlen]
    exact matchPart_agrees (hframe.wf hm) (hframe.slackOk hslack) (hframe.spansOk hsp)

/-- A whole sequence does what one pass of REF's loop does (R151, R167, R168). -/
theorem runSequence_agrees {s : State} (hm : s.mem.wf) (hb : s.AtBoundary) :
    (runSequence (s.src s.lane.ip) s).Agrees (refSequence s.block s.lane.dstSize s.lane.ip (s.output s.lane.op)) := by
  obtain ⟨hslack, hsp, -, -, -⟩ := hb
  unfold refSequence runSequence
  rw [State.length_block]
  rcases readToken_cases (s.src s.lane.ip) s with ⟨hip, he⟩ | ⟨hip, he⟩ <;> rw [he]
  · rw [if_pos hip, State.length_output]
    exact .raise rfl rfl
  rw [if_neg (by omega), s.getD_block hip]
  generalize s.src s.lane.ip = tok
  have hunfold : ∀ u, sequenceBody u =
      (((((extendIfFifteen .litExtEos u).andThen fun u => .goesOn (u.goto .copyLiterals)).andThen
        copyLiterals).andThen readMatch).andThen extendMatchLength).andThen copyMatch := fun u => rfl
  rw [Flow.goesOn_andThen, hunfold]
  rcases extendIfFifteen_cases .litExtEos (code := tokLL tok) (s := s.withLane { s.lane with
      tok := tok, ip := s.lane.ip + 1, len := literalCode tok, state := .extendLiteralLength, inExt := false }) rfl hip
    with ⟨len, litAt, hr, -, he⟩ | ⟨len, litAt, hr, he⟩ <;>
    change refLength s.block (tokLL tok) (s.lane.ip + 1) = _ at hr
  · simp only [he, hr, State.length_output]
    exact literals_agree (s := s.withLane { s.lane with
      tok := tok, ip := litAt, len := len, state := .copyLiterals, inExt := false }) hm hslack hsp
  · simp only [he, hr, State.length_output]
    exact .raise rfl rfl

/-- Settles O40: at the start REF's loop has the same cursor and no output, and a step from a boundary is one sequence,
which does what one pass of REF's loop does. -/
theorem boundaryFollowsReference : Obligations.BoundaryFollowsReference := by
  refine ⟨fun s hstart => ?_, fun s t hm hb hreach h hst => ?_⟩
  · obtain ⟨-, hip, hop, -⟩ := hstart
    rw [hip, hop]
    exact .start
  · obtain ⟨-, hsp, hs, -, -⟩ := id hb
    have hframe := laneStep_frame (by rw [hs]; rfl) h
    have hblock := hframe.block hsp
    obtain ⟨-, -, -, hds, -⟩ := hframe.command
    rw [laneStep_at_token hsp hs] at h
    obtain rfl := Host.Outcome.next.inj h
    have hagree := runSequence_agrees hm hb
    cases href : refSequence s.block s.lane.dstSize s.lane.ip (s.output s.lane.op) with
    | stop r =>
      rw [href] at hagree
      obtain ⟨u, hu, hstop⟩ := hagree
      rw [hu] at hst
      exact absurd hst hstop.state_ne
    | more ip out =>
      rw [href] at hagree
      obtain ⟨u, hu, hboundary, hip, hout⟩ := hagree
      rw [hu, Flow.goesOn_state] at hblock hds ⊢
      rw [hblock, hds, hip, hout]
      exact ⟨hboundary, rfl, hreach.sequence href⟩

end Sys2Proof.Machine

namespace Sys2Proof.Machine

/-! ### Which bytes of memory a step can write (R66, R74, R76) -/

/-- Memory that stays as it is stays so outside every range. -/
theorem SameOutside.of_mem_eq {s t : State} (h : t.mem = s.mem) (b e : Nat) : SameOutside s t b e :=
  fun a _ => by rw [h]

/-- What stores in some indices of the output only stores in `DST[0 .. D)` only (R66). -/
theorem KeepsOutside.sameOutside {s t : State} {b e : Nat} (h : KeepsOutside s t b e) :
    SameOutside s t s.lane.dstBase (s.lane.dstBase + s.lane.dstSize) := fun a ha => h a (by omega)

/-- On spans in order, what stores in the output only leaves the block and its slack alone (R62, R76). -/
theorem SameOutside.source {s t : State}
    (h : SameOutside s t s.lane.dstBase (s.lane.dstBase + s.lane.dstSize)) (hsp : s.SpansOk) {k : Nat}
    (hk : k < s.lane.srcSize + s.params.slack) :
    t.mem.read (s.lane.srcBase + k) = s.mem.read (s.lane.srcBase + k) := by
  refine h _ ?_
  rcases Nat.eq_zero_or_pos s.lane.dstSize with hD | hD
  · omega
  · exact hsp.apart hk hD

/-- Taking a command writes no memory (R212). -/
theorem execDecompress_mem {cmd : Command} {s t : State} (h : execDecompress cmd s = .next t) : t.mem = s.mem := by
  rcases execDecompress_next h with rfl | rfl | rfl | ⟨c, rfl⟩ <;> rfl

theorem exec_sameOutside {i : Instr} {s t : State} (h : exec i s = .next t) :
    SameOutside s t s.lane.dstBase (s.lane.dstBase + s.lane.dstSize) := by
  cases exec_executed h with
  | element hslot hf hd => exact hf.keeps.sameOutside
  | copied hc => exact hc.keeps.sameOutside
  | waits | select | update => exact .of_mem_eq rfl _ _
  | decompress cmd t h => exact .of_mem_eq (execDecompress_mem h) _ _

/-- The end of a command writes memory only after a failure, and then only the output (R216, R240). -/
theorem respond_mem {s t : State} (h : respond s = .next t) :
    t.mem = s.mem ∨ (s.lane.state = .failed
      ∧ SameOutside s t s.lane.dstBase (s.lane.dstBase + s.lane.dstSize)) := by
  by_cases hfail : s.lane.state = .failed
  · refine .inr ⟨hfail, ?_⟩
    rcases respond_next h with ⟨-, c, -, ⟨-, rfl⟩ | ⟨-, rfl⟩⟩ | ⟨-, rfl⟩
    · exact .of_mem_eq rfl _ _
    · exact deliver_keeps (updateEffect s.lane.ctx s.lane.vsel (s.time - s.lane.t0) s.lane.dstSize s c)
    · exact deliver_keeps s
  · refine .inl ?_
    rcases respond_next h with ⟨-, c, -, ⟨-, rfl⟩ | ⟨-, rfl⟩⟩ | ⟨-, rfl⟩
    · rfl
    · exact (deliver_mem _).trans (if_neg hfail)
    · exact (deliver_mem s).trans (if_neg hfail)

/-- A step of a lane writes memory only in a decode or at the end of a failed one, and then only the output. -/
theorem laneStep_mem {s t : State} (h : laneStep s = .next t) :
    t.mem = s.mem ∨ ((s.lane.state.decoding = true ∨ s.lane.state = .failed)
      ∧ SameOutside s t s.lane.dstBase (s.lane.dstBase + s.lane.dstSize)) := by
  rcases laneStep_cases h with ⟨-, rfl⟩ | ⟨hd, -, hf⟩ | ⟨-, hr⟩
  · exact .inl rfl
  · exact .inr ⟨.inl hd, hf.keeps.sameOutside⟩
  · exact (respond_mem hr).imp id fun ⟨hfail, hout⟩ => ⟨.inr hfail, hout⟩

theorem laneStep_sameOutside {s t : State} (h : laneStep s = .next t) :
    SameOutside s t s.lane.dstBase (s.lane.dstBase + s.lane.dstSize) := by
  rcases laneStep_mem h with hmem | ⟨-, hout⟩
  · exact .of_mem_eq hmem _ _
  · exact hout

/-! ### The spans of the other running commands (R76) -/

/-- A byte of a command's spans lies outside every range they avoid. -/
theorem Lane.InSpans.outside {slack : Nat} {l : Lane} {a b n : Nat} (ha : l.InSpans slack a)
    (h : l.avoids slack b n = true) : a < b ∨ b + n ≤ a := by
  obtain ⟨hsrc, hdst⟩ := (l.avoids_iff slack b n).mp h
  have hs := hsrc a
  have hd := hdst a
  unfold Lane.InSpans InSource InDest at ha
  omega

/-- A lane that decodes, or whose decode has failed, holds its spans: its sizes are positive (R150, R213). -/
theorem Lane.CursorsOk.holdsSpans {l : Lane} (h : l.CursorsOk)
    (hst : l.state.decoding = true ∨ l.state = .failed) : l.holdsSpans = true := by
  obtain ⟨hdec, -, -, -, -, -, hfail⟩ := h
  have hpos : 0 < l.srcSize ∧ 0 < l.dstSize := by
    rcases hst with hd | hf
    · exact ⟨(hdec hd).1, (hdec hd).2.1⟩
    · exact ⟨(hfail hf).1, (hfail hf).2.1⟩
  have hrun : l.state ≠ .idle := by
    intro hi
    rw [hi] at hst
    exact absurd hst (by decide)
  rw [Lane.holdsSpans_iff, ← Bool.not_eq_true, trivialSizes_iff]
  exact ⟨hrun, by omega⟩

/-! ### The statements about who writes where -/

/-- Settles O34: an operation and a step of a lane keep memory outside the output, which the block and its slack do not
meet. -/
theorem onlyTheOutputIsWritten : Obligations.OnlyTheOutputIsWritten :=
  ⟨fun _ _ _ h => ⟨exec_sameOutside h, fun hsp _ hk => (exec_sameOutside h).source hsp hk⟩,
    fun _ _ h => ⟨laneStep_sameOutside h, fun hsp _ hk => (laneStep_sameOutside h).source hsp hk⟩⟩

/-- Settles O38: a lane that writes memory holds its spans and writes its output, which the other commands' spans
avoid. -/
theorem otherCommandsAreUndisturbed : Obligations.OtherCommandsAreUndisturbed := by
  intro s t l hcon hcur hl hspans h a ha
  rcases laneStep_mem h with hmem | ⟨hst, hout⟩
  · rw [hmem]
  · obtain ⟨-, -, -, -, hpair⟩ := hcon
    have hapart := ((s.pairwise_apart _).mp hpair).1 l hl
    have hacting := (hcur s.lane s.lane_mem_lanes).holdsSpans hst
    exact hout a (ha.outside (hapart hacting hspans).2)

/-- Settles O59: of the host's moves only a store writes memory, and it has passed the check that every running
command's spans avoid it. -/
theorem hostKeepsOffRunningSpans : Obligations.HostKeepsOffRunningSpans := by
  intro s t l a h hl hspans ha
  cases hostMoved_of_hostStep h with
  | nothing | provide | reset => rfl
  | store addr bytes rest hh hlim hoff =>
    exact Memory.read_writeBytes_other _ _ _ _ (ha.outside (hoff l hl hspans))
  | waits k cmd rest u hh hu hw =>
    obtain ⟨-, -, hmem, -⟩ := turned_focus hu
    rw [hmem]
  | issue k cmd rest u t hh hu hw ht =>
    obtain ⟨-, -, hmem, -⟩ := turned_focus hu
    rw [execDecompress_mem ht, hmem]

end Sys2Proof.Machine

namespace Sys2Proof.Laws

/-! ### Every operation is read back from its encoding (R90, R96, R100) -/

/-- Each operation, by its own lemma: those of R101 for want of a slot, the others by their bytes. -/
theorem RoundTrip.all (i : Instr) : RoundTrip.Statement i := by
  cases i with
  | seq ll ml => exact RoundTrip.seq ll ml
  | seqXL ml => exact RoundTrip.seqXL ml
  | seqXM ll => exact RoundTrip.seqXM ll
  | seqXLXM => exact RoundTrip.seqXLXM
  | extCont => exact RoundTrip.extCont
  | extEnd value => exact RoundTrip.extEnd value
  | offset off => exact RoundTrip.offset off
  | copyOverlap8 | copyOverlap16 | copyOverlap32 | copyFromOutput8 | copyFromOutput16 | copyFromOutput32
  | wildCopyIn8 | wildCopyIn16 | wildCopyIn32 | wildCopyOut8 | wildCopyOut16 | wildCopyOut32
  | select | update | decompress => exact RoundTrip.of_slotless rfl

/-- Settles O1: the round trip of each operation. -/
theorem decodeInvertsEncode : Obligations.DecodeInvertsEncode :=
  fun i slot rest hwf hslot => (RoundTrip.all i hwf slot hslot).2 rest

/-! ### What is decoded encodes to the bytes consumed (R90, R99) -/

/-- The form read from a token byte has that byte as its encoding (R91, R96). -/
theorem encode_decodeToken (b : Byte) : encode (decodeToken b) = [b] := by
  have hb := tokenByte_nibbles b
  rw [decodeToken_eq]
  by_cases hll : tokLL b = 15#4 <;> by_cases hml : tokML b = 15#4
  · rw [hll, hml] at hb
    rw [if_pos hll, if_pos hml, ← hb]
    rfl
  · rw [hll] at hb
    rw [if_pos hll, if_neg hml, encode, hb]
  · rw [hml] at hb
    rw [if_neg hll, if_pos hml, encode, hb]
  · rw [if_neg hll, if_neg hml, encode, hb]

/-- The kind read from an extension byte has that byte as its encoding (R100). -/
theorem encode_decodeExt (b : Byte) : encode (decodeExt b) = [b] := by
  rw [decodeExt_eq]
  by_cases hb : b = 255#8
  · rw [if_pos hb, hb]
    rfl
  · rw [if_neg hb]
    rfl

/-- The field read from two bytes has those bytes as its encoding (R94). -/
theorem encode_offset_offsetOf (b0 b1 : Byte) : encode (.offset (offsetOf b0 b1)) = [b0, b1] := by
  rw [encode, offsetLow_offsetOf, offsetHigh_offsetOf]

/-- What decoding answers, slot by slot: the element its first bytes make, or the refusal of a stream that is too short
(R90, R99). -/
theorem decode_cases (slot : Slot) (bytes : List Byte) :
    (bytes.length < slot.size ∧ decode slot bytes = .error (.streamEnds slot))
      ∨ ∃ i rest, slot.size ≤ bytes.length ∧ decode slot bytes = .ok (i, rest) ∧ encode i ++ rest = bytes := by
  rcases Nat.lt_or_ge bytes.length slot.size with hshort | hlong
  · exact .inl ⟨hshort, Machine.decode_of_length_lt hshort⟩
  · refine .inr ?_
    cases slot with
    | token =>
      obtain ⟨b, rest, rfl⟩ := List.exists_cons_of_length_pos hlong
      exact ⟨_, rest, hlong, rfl, by rw [encode_decodeToken]; rfl⟩
    | ext =>
      obtain ⟨b, rest, rfl⟩ := List.exists_cons_of_length_pos hlong
      exact ⟨_, rest, hlong, rfl, by rw [encode_decodeExt]; rfl⟩
    | field =>
      match bytes, hlong with
      | b0 :: b1 :: rest, hlong => exact ⟨_, rest, hlong, rfl, by rw [encode_offset_offsetOf]; rfl⟩

/-- Settles O2: an element is read where the stream is long enough for the slot, and it is the element of the bytes
consumed. -/
theorem encodeInvertsDecode : Obligations.EncodeInvertsDecode := by
  refine ⟨fun slot bytes rest i h => ⟨Machine.decode_wf h, Machine.decode_slot h, ?_⟩, fun slot bytes => ?_⟩
  · rcases decode_cases slot bytes with ⟨-, he⟩ | ⟨i', rest', -, he, hbytes⟩ <;> rw [he] at h <;> cases h
    exact hbytes
  · rcases decode_cases slot bytes with ⟨hshort, he⟩ | ⟨i, rest, hlong, he, -⟩ <;> rw [he]
    · simp [hshort]
    · simp [hlong]

/-! ### A token's nibbles (R91, R96) -/

/-- The high nibble is the byte divided by 16 (R91). -/
theorem tokLL_eq_ofNat (b : Byte) : tokLL b = BitVec.ofNat 4 (b.toNat / 16) := by
  rw [tokLL, BitVec.extractLsb', Nat.shiftRight_eq_div_pow]

/-- The low nibble is the remainder (R91). -/
theorem tokML_eq_ofNat (b : Byte) : tokML b = BitVec.ofNat 4 (b.toNat % 16) :=
  BitVec.eq_of_toNat_eq (by simp [tokML])

/-- The nibble of a number below 16 is 15 only if the number is. -/
theorem ofNat_eq_fifteen_iff {n : Nat} (h : n < 16) : BitVec.ofNat 4 n = 15#4 ↔ n = 15 := by
  rw [← Machine.nibble_toNat_eq_iff, BitVec.toNat_ofNat, Nat.mod_eq_of_lt h]

/-- Settles O3: the tests of the decoder are whether either nibble is 15. -/
theorem tokenFormFollowsFromNibbles : Obligations.TokenFormFollowsFromNibbles := by
  intro b
  have hb := b.isLt
  have hll := ofNat_eq_fifteen_iff (n := b.toNat / 16) (by omega)
  have hml := ofNat_eq_fifteen_iff (n := b.toNat % 16) (by omega)
  rw [decodeToken_eq, tokLL_eq_ofNat, tokML_eq_ofNat]
  simp only [hll, hml]
  refine ⟨?_, ?_, ?_, ?_⟩ <;> rintro ⟨h1, h2⟩ <;> simp only [h1, h2, if_true, if_false]

/-! ### Length extensions (R92) -/

/-- A byte 255 adds 255 and the run goes on (R92). -/
theorem readExt_cont (bytes : List Byte) :
    readExt (255#8 :: bytes) = (readExt bytes).map fun r => (r.1 + 255, r.2) := rfl

/-- Any other byte ends the run (R92). -/
theorem readExt_end {b : Byte} (h : b ≠ 255#8) (bytes : List Byte) : readExt (b :: bytes) = some (b.toNat, bytes) := by
  rw [readExt, show rowExtCont.hits b = false from (rowXLXM_hits b).trans (decide_eq_false h)]
  rfl

/-- A run of `k` bytes 255 and a last byte reads as its sum (R92). -/
theorem readExt_run (k : Nat) {b : Byte} (h : b ≠ 255#8) (rest : List Byte) :
    readExt (List.replicate k 255#8 ++ b :: rest) = some (255 * k + b.toNat, rest) := by
  induction k with
  | zero => rw [Nat.mul_zero, Nat.zero_add]; exact readExt_end h rest
  | succ k ih =>
    rw [List.replicate_succ, List.cons_append, readExt_cont, ih, Option.map_some]
    congr 2
    omega

/-- The value of a last byte is spelled by that byte alone (R92). -/
theorem extBytes_end {b : Byte} (h : b ≠ 255#8) : extBytes b.toNat = [b] := by
  have hlt : b.toNat < 255 := by
    have hne : b.toNat ≠ 255 := fun h255 => h (BitVec.eq_of_toNat_eq h255)
    have := b.isLt
    omega
  rw [extBytes, Nat.div_eq_of_lt hlt, Nat.mod_eq_of_lt hlt, BitVec.ofNat_toNat, BitVec.setWidth_eq]
  rfl

/-- A value 255 larger is spelled with one more byte 255 (R92). -/
theorem extBytes_cont (value : Nat) : extBytes (value + 255) = 255#8 :: extBytes value := by
  rw [extBytes, Nat.add_div_right _ (by decide), Nat.add_mod_right]
  rfl

/-- The spelling of a value reads as that value (R92). -/
theorem readExt_extBytes (value : Nat) (rest : List Byte) : readExt (extBytes value ++ rest) = some (value, rest) := by
  have hmod : value % 255 < 255 := Nat.mod_lt _ (by decide)
  have hlast : (BitVec.ofNat 8 (value % 255)).toNat = value % 255 := by
    rw [BitVec.toNat_ofNat]
    omega
  have hne : BitVec.ofNat 8 (value % 255) ≠ 255#8 := fun h => by
    rw [h, BitVec.toNat_ofNat] at hlast
    omega
  rw [extBytes, List.append_assoc, List.singleton_append, readExt_run _ hne, hlast, Nat.div_add_mod]

/-- A run that reads is the spelling of its value (R92). -/
theorem eq_extBytes_of_readExt {bytes rest : List Byte} {value : Nat} (h : readExt bytes = some (value, rest)) :
    bytes = extBytes value ++ rest := by
  induction bytes generalizing value with
  | nil => cases h
  | cons b bytes ih =>
    by_cases hb : b = 255#8
    · subst hb
      rw [readExt_cont, Option.map_eq_some_iff] at h
      obtain ⟨⟨value', rest'⟩, hr, heq⟩ := h
      cases heq
      rw [ih hr, extBytes_cont]
      rfl
    · rw [readExt_end hb] at h
      cases h
      rw [extBytes_end hb]
      rfl

/-- A length from 15 on has code 15 (R93, R95). -/
theorem lengthCode_of_le {n : Nat} (h : 15 ≤ n) : lengthCode n = 15#4 := by
  rw [lengthCode, Nat.min_eq_right h]

/-- A length below 15 is its own code (R93, R95). -/
theorem lengthCode_toNat_of_lt {n : Nat} (h : n < 15) : (lengthCode n).toNat = n := by
  rw [lengthCode, BitVec.toNat_ofNat]
  omega

/-- A length is read back from its code and its extension (R92, R93, R95). -/
theorem readLength_lengthExt (n : Nat) (rest : List Byte) :
    readLength (lengthCode n) (lengthExt n ++ rest) = some (n, rest) := by
  rcases Nat.lt_or_ge n 15 with h | h
  · have hne : lengthCode n ≠ 15#4 := fun h15 => by
      have := lengthCode_toNat_of_lt h
      rw [h15, BitVec.toNat_ofNat] at this
      omega
    rw [readLength, if_neg hne, lengthCode_toNat_of_lt h, lengthExt, if_pos h]
    rfl
  · rw [readLength, if_pos (lengthCode_of_le h), lengthExt, if_neg (by omega), readExt_extBytes, Option.map_some,
      Nat.add_sub_cancel' h]

/-- Settles O5: a run reads as its sum, the run of a value is the one spelling of it, and a length is read back. -/
theorem extensionHasOneSpelling : Obligations.ExtensionHasOneSpelling :=
  ⟨fun k _ rest h => readExt_run k h rest,
    fun _ rest value => ⟨eq_extBytes_of_readExt, fun h => by rw [h]; exact readExt_extBytes value rest⟩,
    fun n rest h => ⟨lengthCode_of_le h, readLength_lengthExt n rest⟩⟩

/-! ### Whole sequences (R90 to R97) -/

/-- Past the token, the literal length and the literals, a sequence is final if its literals fill the room left, and
else its match part follows (R90, R97). -/
theorem parseSequence_literals {tok : Byte} {lit : List Byte} (htok : tokLL tok = lengthCode lit.length) (room : Nat)
    (tail : List Byte) :
    parseSequence room (tok :: (lengthExt lit.length ++ (lit ++ tail))) =
      if lit.length = room then some (.endLine lit (tokML tok).toNat, tail)
      else (readMatchPart (tokML tok) tail).map fun r => (.seqLine lit r.1.toNat r.2.1, r.2.2) := by
  have hfit : ¬ (lit ++ tail).length < lit.length := by rw [List.length_append]; omega
  rw [parseSequence, htok, readLength_lengthExt]
  simp only [if_neg hfit, List.take_left, List.drop_left]

/-- The match part is read back from the offset's bytes and the stored length's extension (R94, R95). -/
theorem readMatchPart_encode (off : Half) (n : Nat) (rest : List Byte) :
    readMatchPart (lengthCode n) (encode (.offset off) ++ (lengthExt n ++ rest)) =
      some (off, n + Config.minMatch, rest) := by
  rw [encode, List.cons_append, List.singleton_append, readMatchPart, readLength_lengthExt, offsetOf_bytes]
  rfl

/-- The bytes of a non-final sequence parse back to it (R90 to R97). -/
theorem parseSequence_assembleSeq {lit : List Byte} {off mlen room : Nat} (rest : List Byte) (hoff : off ≤ 65535)
    (hmlen : Config.minMatch ≤ mlen) (hroom : lit.length ≠ room) :
    parseSequence room (assembleSeq lit off mlen ++ rest) = some (.seqLine lit off mlen, rest) := by
  have hoffNat : (BitVec.ofNat 16 off).toNat = off := by
    rw [BitVec.toNat_ofNat]
    omega
  simp only [assembleSeq, List.cons_append, List.append_assoc]
  rw [parseSequence_literals (tokLL_tokenByte _ _), if_neg hroom, tokML_tokenByte, readMatchPart_encode,
    Option.map_some, hoffNat, Nat.sub_add_cancel hmlen]

/-- The bytes of the final sequence parse back to it, its low nibble included (R97). -/
theorem parseSequence_assembleEnd (lit rest : List Byte) {ml : Nat} (hml : ml ≤ 15) :
    parseSequence lit.length (assembleEnd lit ml ++ rest) = some (.endLine lit ml, rest) := by
  have hmlNat : (BitVec.ofNat 4 ml).toNat = ml := by
    rw [BitVec.toNat_ofNat]
    omega
  simp only [assembleEnd, List.cons_append, List.append_assoc]
  rw [parseSequence_literals (tokLL_tokenByte _ _), if_pos rfl, tokML_tokenByte, hmlNat]

theorem seqLine_wf_iff (lit : List Byte) (off mlen : Nat) :
    (AsmLine.seqLine lit off mlen).wf = true ↔ (1 ≤ off ∧ off ≤ 65535) ∧ Config.minMatch ≤ mlen := by
  simp [AsmLine.wf]

theorem endLine_wf_iff (lit : List Byte) (ml : Nat) : (AsmLine.endLine lit ml).wf = true ↔ ml ≤ 15 := by
  simp [AsmLine.wf]

theorem repLine_wf_iff (b : Byte) (n : Nat) : (AsmLine.repLine b n).wf = true ↔ 5 ≤ n := by
  simp [AsmLine.wf]

/-- Settles O6: a sequence and the final one parse back, and a REP line is a sequence of one literal (R103). -/
theorem assembledLineParses : Obligations.AssembledLineParses := by
  refine ⟨fun lit off mlen room rest hwf hroom => ?_, fun lit ml rest hwf => ?_, fun b n room rest hwf hroom => ?_⟩
  · obtain ⟨⟨-, hoff⟩, hmlen⟩ := (seqLine_wf_iff lit off mlen).mp hwf
    exact parseSequence_assembleSeq rest hoff hmlen hroom
  · exact parseSequence_assembleEnd lit rest ((endLine_wf_iff lit ml).mp hwf)
  · have hn := (repLine_wf_iff b n).mp hwf
    exact parseSequence_assembleSeq (lit := [b]) rest (by decide) (by unfold Config.minMatch; omega) hroom.symm

end Sys2Proof.Laws

namespace Sys2Proof.Machine

/-! ### The elements inside a sequence, each as a step of its own (R153, R158) -/

/-- Inside an extension with no byte left, an extension byte raises the cause of its step (R153). -/
theorem atExtension_of_short {s : State} (k : State → State) (hext : s.lane.inExt = true) (hs : s.lane.AtExtension)
    (hip : s.lane.srcSize ≤ s.lane.ip) : atExtension s k = .next (raiseFail (eosCause s.lane.state) s) := by
  rw [atExtension, if_pos ((State.extending_iff s).mpr ⟨hext, hs⟩), if_pos hip]

/-- Inside an extension with a byte left, an extension byte runs (R153). -/
theorem atExtension_of_byte {s : State} (k : State → State) (hext : s.lane.inExt = true) (hs : s.lane.AtExtension)
    (hip : s.lane.ip < s.lane.srcSize) : atExtension s k = .next (k s) := by
  rw [atExtension, if_pos ((State.extending_iff s).mpr ⟨hext, hs⟩), if_neg (Nat.not_le.mpr hip)]

/-- `EXT.END` is an extension byte after which the extension is left (R100, R153). -/
theorem exec_extEnd (b : Byte) (s : State) :
    exec (.extEnd b) s = atExtension s fun s => leaveExtension (extendByte b s) := rfl

/-- Either kind of extension byte, where the block has ended, raises the cause of its step (R153, D7). -/
theorem exec_extensionByte_of_short {s : State} {i : Instr} (hi : i = .extCont ∨ ∃ b, i = .extEnd b)
    (hext : s.lane.inExt = true) (hs : s.lane.AtExtension) (hip : s.lane.srcSize ≤ s.lane.ip) :
    exec i s = .next (raiseFail (eosCause s.lane.state) s) := by
  rcases hi with rfl | ⟨b, rfl⟩
  · exact atExtension_of_short _ hext hs hip
  · rw [exec_extEnd, atExtension_of_short _ hext hs hip]

/-- After the last byte of a literal length the lane is at CopyLiterals (R154). -/
theorem leaveExtension_of_literal {s : State} (h : s.lane.state = .extendLiteralLength) :
    leaveExtension s = s.withLane { s.lane with state := .copyLiterals, inExt := false } := by
  unfold leaveExtension
  exact if_neg (by simp [h])

/-- After the last byte of a match length the bias is added and the lane is at CopyMatch (R160). -/
theorem leaveExtension_of_match {s : State} (h : s.lane.state = .extendMatchLength) :
    leaveExtension s =
      s.withLane { s.lane with len := s.lane.len + Config.minMatch, state := .copyMatch, inExt := false } := by
  unfold leaveExtension
  exact if_pos h

/-- Settles O21: inside an extension its bytes are tested for, added, and after the last of them the step is left. -/
theorem extensionBytesAdd : Obligations.ExtensionBytesAdd := by
  intro s hext
  refine ⟨fun hs hip => ?_, fun b hs hip => ?_, fun b hs hip => ?_, fun i hi hip => ⟨fun hs => ?_, fun hs => ?_⟩⟩
  · exact atExtension_of_byte _ hext hs hip
  · rw [exec_extEnd, atExtension_of_byte _ hext (.inl hs) hip, leaveExtension_of_literal (s := extendByte b s) hs]
    rfl
  · rw [exec_extEnd, atExtension_of_byte _ hext (.inr hs) hip, leaveExtension_of_match (s := extendByte b s) hs]
    rfl
  · rw [exec_extensionByte_of_short hi hext (.inl hs) hip, hs]
    rfl
  · rw [exec_extensionByte_of_short hi hext (.inr hs) hip, hs]
    rfl

/-- In ReadMatch the offset field is what its step does (R158). -/
theorem exec_offset {s : State} (off : Half) (h : s.lane.state = .readMatch) :
    exec (.offset off) s = .next (readOffset off s).state := if_pos h

/-- Settles O24: the tests of ReadMatch in their order, and what each leaves. -/
theorem offsetFieldStep : Obligations.OffsetFieldStep := by
  intro s off hs hip
  rw [exec_offset off hs]
  rcases readOffset_cases off s with ⟨hshort, he⟩ | ⟨hleft, he⟩ <;> rw [he]
  · refine ⟨fun _ => rfl, fun h => ?_, fun h => ?_, fun h => ?_⟩ <;> omega
  have hne : off ≠ 0#16 → off.toNat ≠ 0 := mt fun h => BitVec.eq_of_toNat_eq h
  rcases takeOffset_cases off s with ⟨rfl, he⟩ | ⟨h0, hop, he⟩ | ⟨h0, hop, he⟩ <;> rw [he]
  · refine ⟨fun h => ?_, fun _ _ => rfl, fun _ _ h => absurd rfl h, fun _ h => absurd h (by decide)⟩
    omega
  · have := hne h0
    refine ⟨fun h => ?_, fun _ h => ?_, fun _ _ _ => rfl, fun _ _ h => ?_⟩ <;> omega
  · have := hne h0
    refine ⟨fun h => ?_, fun _ h => ?_, fun _ h => ?_, fun _ _ _ => rfl⟩ <;> omega

/-! ### The final sequence (R97, R157) -/

/-- CopyLiterals whose literals end at D: the decode succeeds with the literals in place, `IP` and `OP` where they were
(R157). -/
theorem copyLiterals_final {s : State} (hm : s.mem.wf) (hslack : s.SlackOk) (hsp : s.SpansOk)
    (hdst : s.lane.op + s.lane.len = s.lane.dstSize) (hsrc : s.lane.ip + s.lane.len ≤ s.lane.srcSize) :
    ∃ t, copyLiterals s = .ended t
      ∧ t.lane = { s.lane with cend := s.lane.dstSize, state := .done, vec := t.lane.vec }
      ∧ (∀ j, j < s.lane.op → t.dst j = s.dst j)
      ∧ ∀ j, j < s.lane.len → t.dst (s.lane.op + j) = s.src (s.lane.ip + j) := by
  obtain ⟨u, he, hf, hcopy⟩ := copyLiterals_copies hm hslack hsp (Nat.le_of_eq hdst) hsrc
  have hl := hf.only.lane
  rw [State.withLane_lane, hdst] at hl
  rcases finishLiterals_cases u with ⟨-, hfin⟩ | ⟨hend, -⟩
  · refine ⟨succeed u, he.trans hfin, ?_, fun j hj => hf.keeps.dst hf.only.dstBase (.inl hj), hcopy⟩
    rw [succeed_lane, hl]
  · exact absurd (by rw [hl]) hend

/-- With a token left, a sequence is the length the token's high nibble stands for, and then its literals and its match
(R152, R154). -/
theorem runSequence_of_length {s : State} {tok : Byte} {l litAt : Nat} (hip : s.lane.ip < s.lane.srcSize)
    (hlen : refLength s.block (tokLL tok) (s.lane.ip + 1) = .ok (l, litAt)) :
    runSequence tok s =
      (((copyLiterals (s.withLane { s.lane with
          tok := tok, ip := litAt, len := l, state := .copyLiterals, inExt := false })).andThen readMatch).andThen
        extendMatchLength).andThen copyMatch := by
  have hunfold : ∀ u, sequenceBody u =
      (((((extendIfFifteen .litExtEos u).andThen fun u => .goesOn (u.goto .copyLiterals)).andThen
        copyLiterals).andThen readMatch).andThen extendMatchLength).andThen copyMatch := fun u => rfl
  rcases readToken_cases tok s with ⟨hshort, -⟩ | ⟨-, he⟩
  · omega
  rw [runSequence, he, Flow.goesOn_andThen, hunfold]
  rcases extendIfFifteen_cases .litExtEos (code := tokLL tok) (s := s.withLane { s.lane with
      tok := tok, ip := s.lane.ip + 1, len := literalCode tok, state := .extendLiteralLength, inExt := false }) rfl hip
    with ⟨l', litAt', hr, -, he⟩ | ⟨l', litAt', hr, -⟩ <;> cases hr.symm.trans hlen
  rw [he]
  rfl

/-- At a final sequence with the token `tok`, the decode succeeds (R97, R157). -/
theorem runSequence_final {s : State} {tok : Byte} {l litAt : Nat} (hm : s.mem.wf) (hb : s.AtBoundary)
    (h : FinalAt s tok l litAt) : ∃ t, runSequence tok s = .ended t ∧ FinalDone s t tok l litAt := by
  obtain ⟨hslack, hsp, -, -, -⟩ := hb
  obtain ⟨hip, hlen, hdst, hsrc⟩ := h
  obtain ⟨t, he, hl, hkeep, hcopy⟩ := copyLiterals_final (s := s.withLane { s.lane with
    tok := tok, ip := litAt, len := l, state := .copyLiterals, inExt := false }) hm hslack hsp hdst hsrc
  refine ⟨t, by rw [runSequence_of_length hip hlen, he]; rfl, ?_⟩
  unfold FinalDone SameDiagnosis
  rw [hl]
  exact ⟨rfl, rfl, rfl, rfl, rfl, rfl, rfl, rfl, rfl, ⟨rfl, rfl, rfl⟩, hkeep, hcopy⟩

/-- A token's form, on a final sequence, ends the decode with success (R97, R163 to R166). -/
theorem finalSequenceRuns_decodeToken (tok : Byte) : FinalSequenceRuns (decodeToken tok) tok := by
  intro s l litAt hm hb h
  obtain ⟨-, hsp, hs, -, -⟩ := id hb
  obtain ⟨t, hrun, hdone⟩ := runSequence_final hm hb h
  have hexec : exec (decodeToken tok) s = .next t := by rw [exec_decodeToken, atToken_of _ hs hsp, hrun]; rfl
  have hframe := exec_frame (slot := .token) (decode_slot (bytes := [tok]) rfl) hexec
  exact ⟨t, hexec, hdone, hframe.around, hframe.command, fun a ha => hframe.keeps a (by omega)⟩

/-- A well-formed token form is what its own byte decodes to (R96). -/
theorem decodeToken_of_encode {i : Instr} {tok : Byte} (hwf : i.wf = true) (hslot : i.slot = some .token)
    (hb : encode i = [tok]) : decodeToken tok = i := by
  have := (Laws.RoundTrip.all i hwf _ hslot).2 []
  rw [hb] at this
  exact (Prod.mk.inj (Except.ok.inj this)).1

/-- Settles O27: each form is the one its token decodes to. -/
theorem finalSequencesSucceed : Obligations.FinalSequencesSucceed := by
  have hform : ∀ {i : Instr} {tok : Byte}, i.wf = true → i.slot = some .token → encode i = [tok] →
      FinalSequenceRuns i tok := fun hwf hslot hb => by
    rw [← decodeToken_of_encode hwf hslot hb]
    exact finalSequenceRuns_decodeToken _
  refine ⟨fun ll ml hll hml => hform ?_ rfl rfl, fun ml hml => hform ?_ rfl rfl, fun ll hll => hform ?_ rfl rfl,
    hform rfl rfl rfl⟩ <;> simp [Instr.wf, *]

end Sys2Proof.Machine

namespace Sys2Proof.Machine

/-! ### The preconditions of the micro-operations (R121 to R124) -/

theorem plainOperandsOk_iff (w t src : Nat) : plainOperandsOk w t src = true ↔ src + w ≤ t := by
  simp [plainOperandsOk]

theorem overlapOk_iff (w t m n : Nat) (s : State) :
    overlapOk w t m n s = true ↔ 1 ≤ n ∧ n < w ∧ t = m + n ∧ t < s.lane.dstSize := by
  simp [overlapOk, overlapOperandsOk, and_assoc]

theorem wildOutOk_iff (w t src size : Nat) (s : State) :
    wildOutOk w t src size s = true ↔ src + w ≤ t ∧ t + size ≤ s.lane.dstSize := by
  simp [wildOutOk, plainOperandsOk]

theorem wildInOk_iff (w t src size : Nat) (s : State) :
    wildInOk w t src size s = true ↔
      src + ceilTo w size ≤ s.lane.srcSize + s.params.slack ∧ t + size ≤ s.lane.dstSize := by
  simp [wildInOk]

/-- Outside its preconditions a micro-operation is refused (R132). -/
theorem microOp_refused {ok : Bool} {s : State} {k : State → State} (h : ¬ ok = true) :
    microOp ok s k = .refused .preconditionBroken := if_neg h

/-! ### One operation in three widths -/

/-- `i` is `COPYOVERLAP_W` of width `w` (R124). -/
def IsCopyOverlap (w : Nat) (i : Nat → Nat → Nat → Instr) : Prop :=
  ∀ t m n s, exec (i t m n) s = microOp (overlapOk w t m n s) s (copyOverlap w t m n)

/-- `i` is `COPYFROMOUTPUT_W` of width `w` (R121). -/
def IsCopyFromOutput (w : Nat) (i : Nat → Nat → Instr) : Prop :=
  ∀ t src s, exec (i t src) s = microOp (plainOperandsOk w t src) s (copyFromOutput w t src)

/-- `i` is `WILDCOPYIN_W` of width `w` (R123). -/
def IsWildCopyIn (w : Nat) (i : Nat → Nat → Nat → Instr) : Prop :=
  ∀ t src size s, exec (i t src size) s = microOp (wildInOk w t src size s) s (wildCopyIn w t src size)

/-- `i` is `WILDCOPYOUT_W` of width `w` (R122). -/
def IsWildCopyOut (w : Nat) (i : Nat → Nat → Nat → Instr) : Prop :=
  ∀ t src size s, exec (i t src size) s = microOp (wildOutOk w t src size s) s (wildCopyOut w t src size)

theorem isCopyOverlap8 : IsCopyOverlap 8 .copyOverlap8 := fun _ _ _ _ => rfl
theorem isCopyOverlap16 : IsCopyOverlap 16 .copyOverlap16 := fun _ _ _ _ => rfl
theorem isCopyOverlap32 : IsCopyOverlap 32 .copyOverlap32 := fun _ _ _ _ => rfl
theorem isCopyFromOutput8 : IsCopyFromOutput 8 .copyFromOutput8 := fun _ _ _ => rfl
theorem isCopyFromOutput16 : IsCopyFromOutput 16 .copyFromOutput16 := fun _ _ _ => rfl
theorem isCopyFromOutput32 : IsCopyFromOutput 32 .copyFromOutput32 := fun _ _ _ => rfl
theorem isWildCopyIn8 : IsWildCopyIn 8 .wildCopyIn8 := fun _ _ _ _ => rfl
theorem isWildCopyIn16 : IsWildCopyIn 16 .wildCopyIn16 := fun _ _ _ _ => rfl
theorem isWildCopyIn32 : IsWildCopyIn 32 .wildCopyIn32 := fun _ _ _ _ => rfl
theorem isWildCopyOut8 : IsWildCopyOut 8 .wildCopyOut8 := fun _ _ _ _ => rfl
theorem isWildCopyOut16 : IsWildCopyOut 16 .wildCopyOut16 := fun _ _ _ _ => rfl
theorem isWildCopyOut32 : IsWildCopyOut 32 .wildCopyOut32 := fun _ _ _ _ => rfl

/-! ### What a micro-operation leaves (R66, R120) -/

theorem OnlyCopied.lane {s t : State} (h : OnlyCopied s t) :
    t.lane = { s.lane with mp := t.lane.mp, vec := t.lane.vec } := congrArg State.lane h

/-- A copy leaves the spans as they were. -/
theorem OnlyCopied.spansOk {s t : State} (h : OnlyCopied s t) (hsp : s.SpansOk) : t.SpansOk := by
  unfold OnlyCopied at h
  rw [h]
  exact hsp

/-- A copy that returns no pointer keeps `MP` (R122, R123). -/
theorem CopyFrame.setMp_self {s u : State} {b e : Nat} (h : CopyFrame s u b e) : u.setMp s.lane.mp = u := by
  have hmp : u.lane.mp = s.lane.mp := by rw [h.only.lane]
  rw [← hmp]
  rfl

/-- A micro-operation within its preconditions runs; its frame and the bytes it stores are those of the copy it makes. -/
theorem microOp_copies {ok : Bool} {s u : State} {pos n mp : Nat} {byte : Nat → Byte} {k : State → State}
    (hok : ok = true) (hsp : s.SpansOk) (hk : k s = u.setMp mp) (hf : CopyFrame s u pos (pos + n))
    (hbytes : ∀ j, j < n → pos + j < s.lane.dstSize → u.dst (pos + j) = byte j) :
    microOp ok s k = .next (k s) ∧ CopyStored s (k s) pos n byte mp := by
  have hrun := microOp_of k hok hsp
  obtain ⟨honly, hmp, hkeep, -⟩ := microOp_frame hrun hk hf
  refine ⟨hrun, honly, hmp, ?_, fun a ha => hkeep a (by omega)⟩
  rw [hk]
  exact hbytes

/-- `COPYFROMOUTPUT_W` runs as R121 says. -/
theorem IsCopyFromOutput.plainCopyRuns {w : Nat} {i : Nat → Nat → Instr} (hi : IsCopyFromOutput w i) :
    PlainCopyRuns w i := by
  intro s t src hm hsp hw
  rw [hi]
  exact ⟨_, microOp_copies ((plainOperandsOk_iff w t src).mpr hw) hsp rfl (strideOut_copyFrame w t src s)
    fun j hj hd => strideOut_dst hm w t src j hj hd⟩

/-- `WILDCOPYIN_W` runs as R123 says: its loads lie in the source span and its slack, which DST does not meet. -/
theorem IsWildCopyIn.wildCopyInRuns {w : Nat} {i : Nat → Nat → Nat → Instr} (hi : IsWildCopyIn w i) (hw : 0 < w) :
    WildCopyInRuns w i := by
  intro s t src size hm hsp hsrc hdst
  have hf := wildCopyIn_copyFrame hw t src size s
  have happart : ∀ j, j < ceilTo w size → s.lane.srcBase + (src + j) < s.lane.dstBase
      ∨ s.lane.dstBase + s.lane.dstSize ≤ s.lane.srcBase + (src + j) := fun j hj => by
    rcases Nat.eq_zero_or_pos s.lane.dstSize with hD | hD
    · omega
    · exact hsp.apart (by omega) hD
  rw [hi]
  exact ⟨_, microOp_copies ((wildInOk_iff w t src size s).mpr ⟨hsrc, hdst⟩) hsp hf.setMp_self.symm hf
    fun j hj hd => wildCopyIn_dst hm hw t src size happart j hj hd⟩

/-- `WILDCOPYOUT_W` runs as R122 says. -/
theorem IsWildCopyOut.wildCopyOutRuns {w : Nat} {i : Nat → Nat → Nat → Instr} (hi : IsWildCopyOut w i) (hw : 0 < w) :
    WildCopyOutRuns w i := by
  intro s t src size hm hsp hplain hdst
  have hf := wildCopyOut_copyFrame hw t src size s
  rw [hi]
  exact ⟨_, microOp_copies ((wildOutOk_iff w t src size s).mpr ⟨hplain, hdst⟩) hsp hf.setMp_self.symm hf
    fun j hj hd => wildCopyOut_dst hm hw t src size hplain j hj hd⟩

/-- Settles O12: one stride and the advance by W, in each width. -/
theorem plainCopyResult : Obligations.PlainCopyResult :=
  ⟨isCopyFromOutput8.plainCopyRuns, isCopyFromOutput16.plainCopyRuns, isCopyFromOutput32.plainCopyRuns⟩

/-- Settles O13: strides from SRC, in each width. -/
theorem wildCopyInResult : Obligations.WildCopyInResult :=
  ⟨isWildCopyIn8.wildCopyInRuns (by decide), isWildCopyIn16.wildCopyInRuns (by decide),
    isWildCopyIn32.wildCopyInRuns (by decide)⟩

/-- Settles O14: strides from DST in increasing order, in each width. -/
theorem wildCopyOutResult : Obligations.WildCopyOutResult :=
  ⟨isWildCopyOut8.wildCopyOutRuns (by decide), isWildCopyOut16.wildCopyOutRuns (by decide),
    isWildCopyOut32.wildCopyOutRuns (by decide)⟩

/-! ### The overlap copy (R124 to R131) -/

/-- `COPYOVERLAP_W` within its preconditions runs, stores the seed repeated with period n, and returns `m + ADV_W[n]`
(R124, R126). -/
theorem IsCopyOverlap.copies {w : Nat} {i : Nat → Nat → Nat → Instr} (hi : IsCopyOverlap w i)
    (hw : w = 8 ∨ w = 16 ∨ w = 32) {s : State} {m n : Nat} (hm : s.mem.wf) (hsp : s.SpansOk) (hn : 1 ≤ n)
    (hnw : n < w) (hd : m + n < s.lane.dstSize) :
    exec (i (m + n) m n) s = .next (copyOverlap w (m + n) m n s)
      ∧ CopyStored s (copyOverlap w (m + n) m n s) (m + n) w (fun j => s.dst (m + j % n)) (m + advance w n) := by
  obtain ⟨u, hu, hf⟩ := copyOverlap_frame hw (m + n) m n s
  have hlaid := copyOverlap_laid hm hw m n hn
  rw [hi]
  refine microOp_copies ((overlapOk_iff w (m + n) m n s).mpr ⟨hn, hnw, rfl, hd⟩) hsp hu hf fun j hj hjd => ?_
  have hbyte : u.dst (m + (n + j)) = s.dst (m + (n + j) % n) := by
    rw [hu] at hlaid
    exact hlaid.bytes (n + j) (by omega) (by omega)
  rwa [Nat.add_mod_left, ← Nat.add_assoc] at hbyte

theorem IsCopyOverlap.overlapRuns {w : Nat} {i : Nat → Nat → Nat → Instr} (hi : IsCopyOverlap w i)
    (hw : w = 8 ∨ w = 16 ∨ w = 32) : OverlapRuns w i :=
  fun _ _ _ hm hsp hn hnw hd => ⟨_, hi.copies hw hm hsp hn hnw hd⟩

/-- Settles O15: either realisation lays the pattern down over W bytes, in each width. -/
theorem overlapCopyResult : Obligations.OverlapCopyResult :=
  ⟨isCopyOverlap8.overlapRuns (by decide), isCopyOverlap16.overlapRuns (by decide),
    isCopyOverlap32.overlapRuns (by decide)⟩

/-- Two copies of the same bytes to the same place, from states with the same memory and registers, leave the same
memory. -/
theorem CopyStored.mem_unique {s s' u v : State} {pos n mp mp' : Nat} {byte : Nat → Byte}
    (hu : CopyStored s u pos n byte mp) (hv : CopyStored s' v pos n byte mp') (hmem : s'.mem = s.mem)
    (hlane : s'.lane = s.lane) (huwf : u.mem.wf) (hvwf : v.mem.wf) : u.mem = v.mem := by
  obtain ⟨honly, -, hbyte, hout⟩ := hu
  obtain ⟨honly', -, hbyte', hout'⟩ := hv
  have hbase : u.lane.dstBase = s.lane.dstBase := by rw [honly.lane]
  have hbase' : v.lane.dstBase = s.lane.dstBase := by rw [honly'.lane, hlane]
  rw [hlane] at hbyte' hout'
  refine Memory.eq_of_read_eq huwf hvwf fun a => ?_
  by_cases ha : a < s.lane.dstBase + pos ∨ s.lane.dstBase + min s.lane.dstSize (pos + n) ≤ a
  · rw [hout a ha, hout' a ha, hmem]
  · obtain ⟨j, rfl⟩ : ∃ j, a = s.lane.dstBase + (pos + j) := ⟨a - s.lane.dstBase - pos, by omega⟩
    calc u.mem.read (s.lane.dstBase + (pos + j))
      _ = u.dst (pos + j) := by rw [State.dst, hbase]
      _ = byte j := hbyte j (by omega) (by omega)
      _ = v.dst (pos + j) := (hbyte' j (by omega) (by omega)).symm
      _ = v.mem.read (s.lane.dstBase + (pos + j)) := by rw [State.dst, hbase']

theorem IsCopyOverlap.realisationsAgree {w : Nat} {i : Nat → Nat → Nat → Instr} (hi : IsCopyOverlap w i)
    (hw : w = 8 ∨ w = 16 ∨ w = 32) : RealisationsAgree w i := by
  intro s m n hm hsp hn hnw hd
  obtain ⟨hu, hustored⟩ := hi.copies hw (s := s.withOcpu .shuffle) hm hsp hn hnw hd
  obtain ⟨hv, hvstored⟩ := hi.copies hw (s := s.withOcpu .scalar) hm hsp hn hnw hd
  have huwf := (copyOverlap_laid (s := s.withOcpu .shuffle) hm hw m n hn).wf
  have hvwf := (copyOverlap_laid (s := s.withOcpu .scalar) hm hw m n hn).wf
  exact ⟨_, _, hu, hv, hustored.mem_unique hvstored rfl rfl huwf hvwf, rfl⟩

/-- Settles O16: the two realisations store the same bytes, and canonical memories with the same bytes are the same. -/
theorem realisationsInterchangeable : Obligations.RealisationsInterchangeable :=
  ⟨isCopyOverlap8.realisationsAgree (by decide), isCopyOverlap16.realisationsAgree (by decide),
    isCopyOverlap32.realisationsAgree (by decide)⟩

/-- A plain stride from `m + ADV_W[n]` reads what is laid already, with the phase of the byte it stores first (R126,
R131). -/
theorem staysInPhase_of {w : Nat} {overlap : Nat → Nat → Nat → Instr} {plain : Nat → Nat → Instr}
    (ho : IsCopyOverlap w overlap) (hp : IsCopyFromOutput w plain) (hw : w = 8 ∨ w = 16 ∨ w = 32) :
    StaysInPhase w overlap plain := by
  intro s m n hm hsp hn hnw hd
  obtain ⟨hu, honly, -⟩ := ho.copies hw hm hsp hn hnw hd
  obtain ⟨-, hadv, hphase⟩ := advance_spec w n hn
  have hplain : plainOperandsOk w (m + n + w) (m + advance w n) = true :=
    (plainOperandsOk_iff _ _ _).mpr (by omega)
  have hlaid := (copyOverlap_laid hm hw m n hn).stride_stage (w := w) (a := advance w n) (by omega) hphase
  refine ⟨_, _, hu, (hp _ _ _).trans (microOp_of _ hplain (honly.spansOk hsp)), fun x hmx hx hxd => ?_⟩
  obtain ⟨i, rfl⟩ : ∃ i, x = m + i := ⟨x - m, by omega⟩
  rw [Nat.add_sub_cancel_left]
  exact hlaid.bytes i (by omega) hxd

/-- Settles O18: the advance keeps the phase, so the stride extends the pattern, in each width. -/
theorem overlapStaysInPhase : Obligations.OverlapStaysInPhase :=
  ⟨staysInPhase_of isCopyOverlap8 isCopyFromOutput8 (by decide),
    staysInPhase_of isCopyOverlap16 isCopyFromOutput16 (by decide),
    staysInPhase_of isCopyOverlap32 isCopyFromOutput32 (by decide)⟩

/-! ### Refusal and safety (R132) -/

/-- A micro-operation keeps `STATE` and the diagnostic registers. -/
theorem CopiedOut.raisesNothing {s t : State} (h : CopiedOut s t) :
    t.lane.state = s.lane.state ∧ SameDiagnosis s.lane t.lane := by
  rw [h.only.lane]
  exact ⟨rfl, rfl, rfl, rfl⟩

theorem refusesOutside_of {w : Nat} {overlap : Nat → Nat → Nat → Instr} {plain : Nat → Nat → Instr}
    {wildIn wildOut : Nat → Nat → Nat → Instr} (hw : w = 8 ∨ w = 16 ∨ w = 32) (ho : IsCopyOverlap w overlap)
    (hp : IsCopyFromOutput w plain) (hin : IsWildCopyIn w wildIn) (hout : IsWildCopyOut w wildOut) :
    RefusesOutside w overlap plain wildIn wildOut := by
  have hw0 : 0 < w := by omega
  refine fun s t m n src size => ⟨fun h => ?_, fun h => ?_, fun h => ?_, fun h => ?_, fun i u hi hu => ?_⟩
  · rw [ho, microOp_refused (by rw [overlapOk_iff]; omega)]
  · rw [hp, microOp_refused (by rw [plainOperandsOk_iff]; omega)]
  · rw [hin, microOp_refused (by rw [wildInOk_iff]; omega)]
  · rw [hout, microOp_refused (by rw [wildOutOk_iff]; omega)]
  · have hcopied : CopiedOut s u := by
      rcases hi with rfl | rfl | rfl | rfl
      · exact .of_copyOverlap hw ((ho t m n s).symm.trans hu)
      · exact .of_copyFromOutput ((hp t src s).symm.trans hu)
      · exact .of_wildCopyIn hw0 ((hin t src size s).symm.trans hu)
      · exact .of_wildCopyOut hw0 ((hout t src size s).symm.trans hu)
    exact hcopied.raisesNothing

/-- Settles O19: each operation tests its preconditions first, and what it runs only copies. -/
theorem microOpsRefuseOutsidePreconditions : Obligations.MicroOpsRefuseOutsidePreconditions :=
  ⟨refusesOutside_of (by decide) isCopyOverlap8 isCopyFromOutput8 isWildCopyIn8 isWildCopyOut8,
    refusesOutside_of (by decide) isCopyOverlap16 isCopyFromOutput16 isWildCopyIn16 isWildCopyOut16,
    refusesOutside_of (by decide) isCopyOverlap32 isCopyFromOutput32 isWildCopyIn32 isWildCopyOut32⟩

end Sys2Proof.Machine

namespace Sys2Proof.Machine

/-! ### One sequence, from a boundary of a decode that has not failed (R167, R168) -/

/-- Where a sequence has brought a lane, as one pass of REF's loop says: to the next boundary with REF's cursor and
output and no failure recorded, or to the end of the decode with REF's result (R168). -/
def State.Follows (t : State) : RefStep → Prop
  | .more ip out => t.AtBoundary ∧ t.lane.ip = ip ∧ t.output t.lane.op = out ∧ t.lane.fcause = .none
  | .stop r => EndsAs r t

/-- A lane that has not failed has recorded no cause if it had none (R31). -/
theorem Lane.Diagnosed.fcause_none {l l' : Lane} (h : l.Diagnosed l') (hl : l.fcause = .none)
    (hs : l'.state ≠ .failed) : l'.fcause = .none := by
  rcases h with ⟨hsame, -⟩ | ⟨hfailed, -⟩
  · rw [hsame, hl]
  · exact absurd hfailed hs

/-- A success leaves `FCAUSE` as the command's start has cleared it, a failure writes it (R150, R240). -/
theorem State.StoppedAs.endsAs {t : State} {r : RefResult} (h : t.StoppedAs r)
    (hcause : t.lane.state ≠ .failed → t.lane.fcause = .none) : EndsAs r t := by
  cases r with
  | ok out => exact ⟨h.1, hcause (by rw [h.1]; decide), h.2⟩
  | fail c ip op => exact h

/-- What agrees with REF follows it, where a cause is recorded by a failure only. -/
theorem Flow.Agrees.follows {fl : Flow} {r : RefStep} (h : fl.Agrees r)
    (hcause : fl.state.lane.state ≠ .failed → fl.state.lane.fcause = .none) : fl.state.Follows r := by
  cases r with
  | more ip out =>
    obtain ⟨t, rfl, hb, hip, hout⟩ := h
    obtain ⟨-, -, hst, -⟩ := id hb
    exact ⟨hb, hip, hout, hcause (by rw [Flow.goesOn_state, hst]; decide)⟩
  | stop r =>
    obtain ⟨t, rfl, hstop⟩ := h
    exact hstop.endsAs hcause

/-- A lane's step at a boundary keeps to the frame of a decode and brings the lane where REF's pass says. -/
theorem laneStep_follows {s : State} (hm : s.mem.wf) (hb : s.AtBoundary) (hcause : s.lane.fcause = .none) :
    ∃ t, laneStep s = .next t ∧ StepFrame s t
      ∧ t.Follows (refSequence s.block s.lane.dstSize s.lane.ip (s.output s.lane.op)) := by
  obtain ⟨-, hsp, hs, -⟩ := id hb
  have hd : s.lane.state.decoding = true := by rw [hs]; rfl
  have hstep := laneStep_at_token hsp hs
  exact ⟨_, hstep, laneStep_frame hd hstep,
    (runSequence_agrees hm hb).follows ((laneStep_diagnosed hd hstep).fcause_none hcause)⟩

/-- Settles O28: the form of the token is the lane's step, which follows REF's pass. -/
theorem sequenceAgreesWithReference : Obligations.SequenceAgreesWithReference := by
  intro s hm hb hcause hip
  obtain ⟨-, hsp, hs, -⟩ := id hb
  obtain ⟨t, hstep, hframe, hfollows⟩ := laneStep_follows hm hb hcause
  rw [laneStep_of_slot hsp (slot := .token) (by simp [Lane.slot, hs]), fetchStep_token hip] at hstep
  refine ⟨t, hstep, hframe.around, hframe.command, fun a ha => hframe.keeps a (by omega), ?_⟩
  cases href : refSequence s.block s.lane.dstSize s.lane.ip (s.output s.lane.op) with
  | more ip out =>
    rw [href] at hfollows
    obtain ⟨⟨-, -, hst, -⟩, htip, rfl, htcause⟩ := hfollows
    exact ⟨hst, htip, (State.length_output _ _).symm, rfl, htcause⟩
  | stop r =>
    rw [href] at hfollows
    exact hfollows

/-! ### A whole decode (R167, R168) -/

/-- A sequence that goes on has consumed its token at least (R152, R24). -/
theorem runSequence_ip_lt {tok : Byte} {s t : State} (h : runSequence tok s = .goesOn t) : s.lane.ip < t.lane.ip := by
  unfold runSequence at h
  rcases readToken_cases tok s with ⟨-, he⟩ | ⟨-, he⟩ <;> rw [he] at h
  · cases h
  · have hframe := sequenceBody_part.frame (s.withLane { s.lane with
      tok := tok, ip := s.lane.ip + 1, len := literalCode tok, state := .extendLiteralLength, inExt := false })
    rw [Flow.goesOn_andThen] at h
    rw [h] at hframe
    exact hframe.ip_le

/-- One pass of REF's loop moves its cursor forward (R167). -/
theorem refSequence_ip_lt {s : State} (hm : s.mem.wf) (hb : s.AtBoundary) {ip : Nat} {out : List Byte}
    (h : refSequence s.block s.lane.dstSize s.lane.ip (s.output s.lane.op) = .more ip out) : s.lane.ip < ip := by
  have hagree := runSequence_agrees hm hb
  rw [h] at hagree
  obtain ⟨t, hrun, -, rfl, -⟩ := hagree
  exact runSequence_ip_lt hrun

/-- A lane whose decode has ended takes no step more. -/
theorem runLane_of_not_decoding {s : State} (h : s.lane.state.decoding = false) (k : Nat) : runLane k s = .next s := by
  cases k with
  | zero => rfl
  | succ k => rw [runLane, h]; rfl

theorem runLane_succ {s t : State} (hd : s.lane.state.decoding = true) (h : laneStep s = .next t) (k : Nat) :
    runLane (k + 1) s = runLane k t := by
  rw [runLane, if_pos hd, h]

/-- The decode has ended where it ended as some result says. -/
theorem EndsAs.not_decoding {r : RefResult} {t : State} (h : EndsAs r t) : t.lane.state.decoding = false := by
  cases r with
  | ok out => rw [h.1]; rfl
  | fail c ip op => rw [h.1]; rfl

/-- From any boundary of a decode that has not failed, with a step for each byte left and one more, the decode ends as
REF's loop does from there (R167, R168). -/
theorem runLane_endsAs_refLoop (k : Nat) {s : State} (hm : s.mem.wf) (hb : s.AtBoundary)
    (hcause : s.lane.fcause = .none) (hk : s.lane.srcSize < s.lane.ip + k) :
    ∃ t, runLane k s = .next t ∧ StepFrame s t
      ∧ EndsAs (refLoop s.block s.lane.dstSize k s.lane.ip (s.output s.lane.op)) t := by
  induction k generalizing s with
  | zero =>
    obtain ⟨-, -, -, hip, -⟩ := hb
    omega
  | succ k ih =>
    obtain ⟨-, hsp, hs, -⟩ := id hb
    obtain ⟨u, hstep, hframe, hfollows⟩ := laneStep_follows hm hb hcause
    rw [runLane_succ (by rw [hs]; rfl) hstep, refLoop]
    cases href : refSequence s.block s.lane.dstSize s.lane.ip (s.output s.lane.op) with
    | stop r =>
      rw [href] at hfollows
      have hends : EndsAs r u := hfollows
      exact ⟨u, runLane_of_not_decoding hends.not_decoding k, hframe, hends⟩
    | more ip out =>
      have hlt := refSequence_ip_lt hm hb href
      rw [href] at hfollows
      obtain ⟨hub, rfl, rfl, hucause⟩ := hfollows
      obtain ⟨-, hss, -, hds, -⟩ := hframe.command
      obtain ⟨t, hrun, hrest, hends⟩ := ih (hframe.wf hm) hub hucause (by omega)
      rw [hframe.block hsp, hds] at hends
      exact ⟨t, hrun, hframe.trans hrest, hends⟩

/-- Settles O41: the start is a boundary with S bytes left, and REF is its loop from there. -/
theorem decodeMatchesReference : Obligations.DecodeMatchesReference := by
  rintro s hm ⟨hb, hip, hop, hS, hD, hcause, -⟩
  obtain ⟨t, hrun, hframe, hends⟩ := runLane_endsAs_refLoop (s.lane.srcSize + 1) hm hb hcause (by omega)
  have href : ref s.block s.lane.dstSize =
      refLoop s.block s.lane.dstSize (s.lane.srcSize + 1) s.lane.ip (s.output s.lane.op) := by
    rw [ref, State.length_block, if_neg (by omega), hip, hop]
    rfl
  exact ⟨t, hrun, href ▸ hends, hframe.around, hframe.command, hframe.keeps.sameOutside⟩

end Sys2Proof.Machine

namespace Sys2Proof.Machine

/-! ### The steps of the decoder, each as a step of the lane (R152 to R162) -/

/-- Settles O11: the turn is that lane's, whose fetch finds too few bytes. -/
theorem stepRaisesWhereBlockEnds : Obligations.StepRaisesWhereBlockEnds := by
  intro s u slot hturn hsp hslot hshort
  have hsize : 0 < slot.size := by cases slot <;> decide
  rw [step_of_turnOf hturn, laneStep_of_slot hsp hslot, fetchStep_of_short (by omega)]
  refine ⟨eosCause u.lane.state, rfl, fun h => ?_, fun h => ?_, fun h => ?_, fun h => ?_⟩ <;> rw [h] <;> rfl

/-- The code of the literal length is the token's high nibble (R91). -/
theorem literalCode_eq (tok : Byte) : literalCode tok = tok.toNat / 16 := by
  have := tok.isLt
  rw [literalCode, Laws.tokLL_eq_ofNat, BitVec.toNat_ofNat]
  omega

/-- The code of the match length is the token's low nibble (R91). -/
theorem matchCode_eq (tok : Byte) : matchCode tok = tok.toNat % 16 := by
  rw [matchCode, Laws.tokML_eq_ofNat, BitVec.toNat_ofNat]
  omega

/-- Settles O20: the two cases of ReadToken. -/
theorem readTokenStep : Obligations.ReadTokenStep := by
  intro s hsp hs
  rw [microStep_readToken hsp hs, ← literalCode_eq]
  rcases readToken_cases (s.src s.lane.ip) s with ⟨hip, he⟩ | ⟨hip, he⟩ <;> rw [he]
  · exact ⟨fun _ => rfl, fun h => absurd hip (Nat.not_le.mpr h)⟩
  · exact ⟨fun h => absurd h (Nat.not_le.mpr hip), fun _ => rfl⟩

/-- Outside an extension the two length steps read no element (R154, R160). -/
theorem Lane.slot_of_not_inExt {l : Lane} (h : l.inExt = false) (hs : l.AtExtension) : l.slot = none := by
  rcases hs with hs | hs <;> simp [Lane.slot, hs, h]

/-- The test at the start of a literal length's extension (R154). -/
theorem laneStep_extendLiteralLength {s : State} (hsp : s.SpansOk) (hext : s.lane.inExt = false)
    (hs : s.lane.state = .extendLiteralLength) :
    laneStep s = .next (if s.lane.len = 15 then s.withLane { s.lane with inExt := true } else s.goto .copyLiterals) := by
  rw [laneStep_of_inner hsp (by rw [hs]; rfl) (Lane.slot_of_not_inExt hext (.inl hs)), innerStep, hs]

/-- The test at the start of a match length's extension (R160). -/
theorem laneStep_extendMatchLength {s : State} (hsp : s.SpansOk) (hext : s.lane.inExt = false)
    (hs : s.lane.state = .extendMatchLength) :
    laneStep s = .next (if matchCode s.lane.tok = 15
      then s.withLane { s.lane with len := matchCode s.lane.tok, inExt := true }
      else s.withLane { s.lane with len := matchCode s.lane.tok + Config.minMatch, state := .copyMatch }) := by
  rw [laneStep_of_inner hsp (by rw [hs]; rfl) (Lane.slot_of_not_inExt hext (.inr hs)), innerStep, hs]
  rfl

/-- Settles O22: where no extension has begun, the step is the test of the code for 15. -/
theorem extensionOnlyForCodeFifteen : Obligations.ExtensionOnlyForCodeFifteen := by
  intro s hsp hext
  refine ⟨fun hs => ?_, fun hs => ?_⟩
  · rw [laneStep_extendLiteralLength hsp hext hs]
    by_cases hcode : s.lane.len = 15
    · rw [if_pos hcode, if_pos hcode]
    · rw [if_neg hcode, if_neg hcode]
      rfl
  · rw [laneStep_extendMatchLength hsp hext hs, ← matchCode_eq]
    by_cases hcode : matchCode s.lane.tok = 15
    · rw [if_pos hcode, if_pos hcode, hcode]
    · rw [if_neg hcode, if_neg hcode]
      rfl

/-- In CopyLiterals a lane's step is the whole step (R155). -/
theorem laneStep_copyLiterals {s : State} (hsp : s.SpansOk) (hs : s.lane.state = .copyLiterals) :
    laneStep s = .next (copyLiterals s).state := by
  rw [laneStep_of_inner hsp (by rw [hs]; rfl) (by simp [Lane.slot, hs]), innerStep, hs]

/-- In CopyMatch a lane's step is the whole step (R161). -/
theorem laneStep_copyMatch {s : State} (hsp : s.SpansOk) (hs : s.lane.state = .copyMatch) :
    laneStep s = .next (copyMatch s).state := by
  rw [laneStep_of_inner hsp (by rw [hs]; rfl) (by simp [Lane.slot, hs]), innerStep, hs]

/-- After a copy, an update of the lane is one of the state before the copy with the memory after it. -/
theorem CopiedVec.withLane {s t : State} (h : CopiedVec s t) (l : Lane) :
    t.withLane l = (s.withMem t.mem).withLane l :=
  (congrArg (State.withLane · l) h :)

/-- CopyLiterals within its bounds: success or advance, the registers of either, what it may have stored, and the
literals in place (R155, R157). -/
theorem copyLiterals_within {s : State} (hm : s.mem.wf) (hslack : s.SlackOk) (hsp : s.SpansOk)
    (hdst : s.lane.op + s.lane.len ≤ s.lane.dstSize) (hsrc : s.lane.ip + s.lane.len ≤ s.lane.srcSize) :
    ∃ t, copyLiterals s = (if s.lane.op + s.lane.len = s.lane.dstSize then .ended t else .goesOn t)
      ∧ t = (s.withMem t.mem).withLane (if s.lane.op + s.lane.len = s.lane.dstSize
          then { s.lane with cend := s.lane.dstSize, state := .done, vec := t.lane.vec }
          else { s.lane with
            cend := s.lane.op + s.lane.len, ip := s.lane.ip + s.lane.len, op := s.lane.op + s.lane.len
            state := .readMatch, vec := t.lane.vec })
      ∧ KeepsOutside s t s.lane.op (s.lane.op + ceilTo s.W s.lane.len)
      ∧ ∀ j, j < s.lane.len → t.dst (s.lane.op + j) = s.src (s.lane.ip + j) := by
  obtain ⟨u, he, hf, hcopy⟩ := copyLiterals_copies hm hslack hsp hdst hsrc
  have hl := hf.only.lane
  rw [State.withLane_lane] at hl
  have hcend : u.lane.cend = s.lane.op + s.lane.len := by rw [hl]
  have hds : u.lane.dstSize = s.lane.dstSize := by rw [hl]
  rcases finishLiterals_cases u with ⟨hend, hfin⟩ | ⟨hend, hfin⟩ <;> rw [hcend, hds] at hend
  · refine ⟨_, (he.trans hfin).trans (if_pos hend).symm, ?_, hf.keeps, hcopy⟩
    rw [if_pos hend, ← hend]
    refine (hf.only.withLane _).trans ?_
    rw [hl]
    rfl
  · refine ⟨_, (he.trans hfin).trans (if_neg hend).symm, ?_, hf.keeps, hcopy⟩
    rw [if_neg hend]
    refine (hf.only.withLane _).trans ?_
    rw [hl]
    rfl

/-- Settles O23: the tests in their order; what passes them is copied and finished. -/
theorem copyLiteralsStep : Obligations.CopyLiteralsStep := by
  intro s hm hslack hsp hs
  rw [laneStep_copyLiterals hsp hs]
  rcases copyLiterals_cases s with ⟨hdst, he⟩ | ⟨hdst, hsrc, he⟩ | ⟨-, hsrc, hover, -⟩ | ⟨hdst, hsrc, -, -⟩
  · rw [he]
    refine ⟨fun _ => rfl, fun h => ?_, fun h => ?_⟩ <;> omega
  · rw [he]
    refine ⟨fun h => ?_, fun _ _ => rfl, fun _ h => ?_⟩ <;> omega
  · have := ceilTo_within_slack hslack hsrc
    omega
  · obtain ⟨t, he, ht, hkeep, hcopy⟩ := copyLiterals_within hm hslack hsp hdst hsrc
    have hstate : (copyLiterals s).state = t := by rw [he]; split <;> rfl
    rw [hstate]
    refine ⟨fun h => ?_, fun _ h => ?_, fun _ _ => ⟨t, rfl, ht, hcopy, fun a ha => hkeep a (by omega)⟩⟩ <;> omega

/-- CopyMatch within the output: its registers, what it may have stored, and the bytes of the match (R161, R162). -/
theorem copyMatch_copies {s : State} (hm : s.mem.wf) (hoff : 1 ≤ s.lane.off.toNat)
    (hop : s.lane.op = s.lane.mp + s.lane.off.toNat) (hdst : s.lane.op + s.lane.len ≤ s.lane.dstSize) :
    ∃ t, copyMatch s = .goesOn t
      ∧ t = (s.withMem t.mem).withLane { s.lane with
          cend := s.lane.op + s.lane.len, op := s.lane.op + s.lane.len, state := .readToken
          mp := t.lane.mp, vec := t.lane.vec }
      ∧ KeepsOutside s t s.lane.op (storedEnd s.W s.lane.op 0 s.lane.len)
      ∧ ∀ j, j < s.lane.len → t.dst (s.lane.op + j) = t.dst (s.lane.op + j - s.lane.off.toNat) := by
  rcases copyMatch_cases s with ⟨hover, -⟩ | ⟨-, t, he, hf, htop, htcend, hts, -⟩
  · omega
  · refine ⟨t, he, ?_, hf.keeps.mono (Nat.le_refl _) (Nat.le_max_right _ _), copyMatch_selfCopy hm hoff hop he⟩
    have hl := hf.lane
    rw [htop, htcend, hts] at hl
    rw [← hl]
    exact hf.around

/-- Settles O25: the bound, and within it the copy. -/
theorem copyMatchStep : Obligations.CopyMatchStep := by
  intro s hm hsp hs hlen hoff hrange hmp
  rw [laneStep_copyMatch hsp hs]
  rcases copyMatch_cases s with ⟨hover, he⟩ | ⟨hdst, -⟩
  · rw [he]
    exact ⟨fun _ => rfl, fun h => absurd hover (Nat.not_lt.mpr h)⟩
  · obtain ⟨t, he, ht, hkeep, hcopy⟩ := copyMatch_copies hm hoff (by omega) hdst
    rw [he]
    exact ⟨fun h => absurd h (Nat.not_lt.mpr hdst), fun _ => ⟨t, rfl, ht, hcopy, fun a ha => hkeep a (by omega)⟩⟩

/-! ### A non-final sequence (R97, R163 to R166) -/

/-- A byte of the block is the same after a part of a decode (R62, R76). -/
theorem StepFrame.src {s t : State} (h : StepFrame s t) (hsp : s.SpansOk) {i : Nat} (hi : i < s.lane.srcSize) :
    t.src i = s.src i := by
  obtain ⟨-, hss, -⟩ := h.command
  rw [← State.getD_block t (by omega), h.block hsp, State.getD_block s hi]

/-- ReadMatch, with the offset's two bytes left and an offset within the output, takes the offset (R158, R159). -/
theorem readMatch_of_offset {s : State} {off : Half} (hip : s.lane.ip + 2 ≤ s.lane.srcSize)
    (hoff : off = offsetOf (s.src s.lane.ip) (s.src (s.lane.ip + 1))) (hpos : 1 ≤ off.toNat)
    (hrange : off.toNat ≤ s.lane.op) :
    readMatch s = .goesOn (s.withLane { s.lane with
      off := off, ip := s.lane.ip + 2, mp := s.lane.op - off.toNat, state := .extendMatchLength }) := by
  rw [readMatch, ← hoff]
  rcases readOffset_cases off s with ⟨hshort, -⟩ | ⟨-, he⟩
  · omega
  rw [he]
  rcases takeOffset_cases off s with ⟨rfl, -⟩ | ⟨-, hover, -⟩ | ⟨-, -, he⟩
  · exact absurd hpos (by decide)
  · omega
  · exact he

/-- ExtendMatchLength, where the token's low nibble stands for a length, leaves it with the bias (R160). -/
theorem extendMatchLength_of_length {s : State} {n next : Nat} (hip : s.lane.ip ≤ s.lane.srcSize)
    (hlen : refLength s.block (tokML s.lane.tok) s.lane.ip = .ok (n, next)) :
    extendMatchLength s = .goesOn (s.withLane { s.lane with
      ip := next, len := n + Config.minMatch, state := .copyMatch }) := by
  have hunfold : extendMatchLength s =
      (extendIfFifteen .matExtEos (loadMatchCode s)).andThen fun u => .goesOn (addMinMatch u) := rfl
  rw [hunfold]
  rcases extendIfFifteen_cases .matExtEos (code := tokML s.lane.tok) (s := loadMatchCode s) rfl hip with
    ⟨n', next', hr, -, he⟩ | ⟨n', next', hr, -⟩ <;> cases hr.symm.trans hlen
  rw [he]
  rfl

/-- From ReadMatch on, an offset within the output and a match within D are run to the next boundary (R158 to R162). -/
theorem matchPart_runs {s : State} {n next : Nat} {off : Half} (hm : s.mem.wf)
    (hip : s.lane.ip + 2 ≤ s.lane.srcSize) (hoff : off = offsetOf (s.src s.lane.ip) (s.src (s.lane.ip + 1)))
    (hpos : 1 ≤ off.toNat) (hrange : off.toNat ≤ s.lane.op)
    (hlen : refLength s.block (tokML s.lane.tok) (s.lane.ip + 2) = .ok (n, next))
    (hdst : s.lane.op + (n + Config.minMatch) ≤ s.lane.dstSize) :
    ∃ t, ((readMatch s).andThen extendMatchLength).andThen copyMatch = .goesOn t
      ∧ t.lane = { s.lane with
          ip := next, off := off, len := n + Config.minMatch, cend := s.lane.op + (n + Config.minMatch)
          op := s.lane.op + (n + Config.minMatch), state := .readToken, mp := t.lane.mp, vec := t.lane.vec }
      ∧ KeepsOutside s t s.lane.op (storedEnd s.W s.lane.op 0 (n + Config.minMatch))
      ∧ ∀ j, j < n + Config.minMatch → t.dst (s.lane.op + j) = t.dst (s.lane.op + j - off.toNat) := by
  have hextend := extendMatchLength_of_length (s := s.withLane { s.lane with
    off := off, ip := s.lane.ip + 2, mp := s.lane.op - off.toNat, state := .extendMatchLength }) hip hlen
  rw [readMatch_of_offset hip hoff hpos hrange, Flow.goesOn_andThen, hextend, Flow.goesOn_andThen]
  obtain ⟨t, he, ht, hkeep, hcopy⟩ := copyMatch_copies (s := s.withLane { s.lane with
    off := off, ip := next, len := n + Config.minMatch, mp := s.lane.op - off.toNat, state := .copyMatch }) hm hpos
    (by simp only [State.withLane_lane]; omega) hdst
  exact ⟨t, he, congrArg State.lane ht, hkeep, hcopy⟩

/-- What the literals and then the match may store is what the sequence may (R155, R161, R269). -/
theorem storedEnd_bounds (w op l m : Nat) :
    op + ceilTo w l ≤ storedEnd w op l m ∧ storedEnd w (op + l) 0 m ≤ storedEnd w op l m := by
  have hzero : ceilTo w 0 ≤ w := (Nat.div_mul_le_self _ _).trans (by omega)
  unfold storedEnd
  split <;> omega

/-- CopyLiterals, with literals that end below D, comes to ReadMatch with the literals in place (R155, R157). -/
theorem copyLiterals_advances {s : State} (hm : s.mem.wf) (hslack : s.SlackOk) (hsp : s.SpansOk)
    (hdst : s.lane.op + s.lane.len < s.lane.dstSize) (hsrc : s.lane.ip + s.lane.len ≤ s.lane.srcSize) :
    ∃ t, copyLiterals s = .goesOn t ∧ StepFrame s t
      ∧ KeepsOutside s t s.lane.op (s.lane.op + ceilTo s.W s.lane.len)
      ∧ ∀ j, j < s.lane.len → t.dst (s.lane.op + j) = s.src (s.lane.ip + j) := by
  have hframe := copyLiterals_frame s
  obtain ⟨t, he, -, hkeep, hcopy⟩ := copyLiterals_within hm hslack hsp (Nat.le_of_lt hdst) hsrc
  rw [if_neg (Nat.ne_of_lt hdst)] at he
  rw [he] at hframe
  exact ⟨t, he, hframe, hkeep, hcopy⟩

/-- From CopyLiterals on, literals below D, an offset within the output and a match within D are run to the next boundary
(R155 to R162). -/
theorem literalsAndMatch_run {s : State} {n next : Nat} {off : Half} (hm : s.mem.wf) (hslack : s.SlackOk)
    (hsp : s.SpansOk) (hdst : s.lane.op + s.lane.len < s.lane.dstSize)
    (hsrc : s.lane.ip + s.lane.len + 2 ≤ s.lane.srcSize)
    (hoff : off = offsetOf (s.src (s.lane.ip + s.lane.len)) (s.src (s.lane.ip + s.lane.len + 1)))
    (hpos : 1 ≤ off.toNat) (hrange : off.toNat ≤ s.lane.op + s.lane.len)
    (hlen : refLength s.block (tokML s.lane.tok) (s.lane.ip + s.lane.len + 2) = .ok (n, next))
    (hmdst : s.lane.op + s.lane.len + (n + Config.minMatch) ≤ s.lane.dstSize) :
    ∃ t, (((copyLiterals s).andThen readMatch).andThen extendMatchLength).andThen copyMatch = .goesOn t
      ∧ t.lane = { s.lane with
          ip := next, off := off, len := n + Config.minMatch
          cend := s.lane.op + s.lane.len + (n + Config.minMatch)
          op := s.lane.op + s.lane.len + (n + Config.minMatch), state := .readToken, mp := t.lane.mp, vec := t.lane.vec }
      ∧ KeepsOutside s t s.lane.op (storedEnd s.W s.lane.op s.lane.len (n + Config.minMatch))
      ∧ (∀ j, j < s.lane.len → t.dst (s.lane.op + j) = s.src (s.lane.ip + j))
      ∧ ∀ j, j < n + Config.minMatch →
          t.dst (s.lane.op + s.lane.len + j) = t.dst (s.lane.op + s.lane.len + j - off.toNat) := by
  obtain ⟨hlit, hmat⟩ := storedEnd_bounds s.W s.lane.op s.lane.len (n + Config.minMatch)
  obtain ⟨u, he, hframe, hukeep, hucopy⟩ := copyLiterals_advances hm hslack hsp hdst (by omega)
  have hul := copyLiterals_goesOn he
  have hub := hframe.block hsp
  have husrc : ∀ {i}, i < s.lane.srcSize → u.src i = s.src i := hframe.src hsp
  have hum := hframe.wf hm
  have hW : u.W = s.W := by rw [State.W, hul]; rfl
  have huop : u.lane.op = s.lane.op + s.lane.len := by rw [hul]
  have huip : u.lane.ip = s.lane.ip + s.lane.len := by rw [hul]
  have hutok : u.lane.tok = s.lane.tok := by rw [hul]
  have huss : u.lane.srcSize = s.lane.srcSize := by rw [hul]
  have huds : u.lane.dstSize = s.lane.dstSize := by rw [hul]
  have hudb : u.lane.dstBase = s.lane.dstBase := by rw [hul]
  obtain ⟨t, hrun, htl, htkeep, htcopy⟩ := matchPart_runs (s := u) (n := n) (next := next) (off := off) hum
    (by omega) (by rw [huip, husrc (by omega), husrc (by omega), hoff]) hpos (by omega)
    (by rw [hub, hutok, huip, hlen]) (by omega)
  rw [huop] at htl htkeep htcopy
  have htdb : t.lane.dstBase = u.lane.dstBase := by rw [htl]
  refine ⟨t, by rw [he]; exact hrun, ?_, ?_, fun j hj => ?_, htcopy⟩
  · rw [htl, hul]
  · rw [hW] at htkeep
    exact (hukeep.mono (Nat.le_refl _) hlit).trans hudb huds (htkeep.mono (Nat.le_refl _) hmat)
      (Nat.le_add_right _ _) (Nat.le_refl _)
  · rw [htkeep.dst htdb (.inl (by omega)), hucopy j hj]

/-- At a non-final sequence with the token `tok`, the lane comes to the next boundary (R97, R163 to R166). -/
theorem runSequence_nonFinal {s : State} {tok : Byte} {l litAt off m next : Nat} (hm : s.mem.wf) (hb : s.AtBoundary)
    (h : NonFinalAt s tok l litAt off m next) :
    ∃ t, runSequence tok s = .goesOn t ∧ NonFinalDone s t tok l litAt off m next
      ∧ KeepsOutside s t s.lane.op (storedEnd s.W s.lane.op l m) := by
  obtain ⟨hslack, hsp, -, -, -⟩ := hb
  obtain ⟨hip, hlen, hdst, hsrc, rfl, hpos, hrange, hmin, hmlen, hmdst⟩ := h
  obtain ⟨n, rfl⟩ : ∃ n, m = n + Config.minMatch := ⟨m - Config.minMatch, by omega⟩
  rw [Nat.add_sub_cancel] at hmlen
  obtain ⟨t, hrun, hl, hkeep, hlit, hmat⟩ := literalsAndMatch_run (s := s.withLane { s.lane with
    tok := tok, ip := litAt, len := l, state := .copyLiterals, inExt := false }) hm hslack hsp hdst hsrc rfl hpos hrange
    hmlen hmdst
  have hdb : t.lane.dstBase = s.lane.dstBase := by rw [hl]; rfl
  refine ⟨t, by rw [runSequence_of_length hip hlen, hrun], ?_, hkeep⟩
  have hkept : ∀ j, j < s.lane.op → t.dst j = s.dst j := fun j hj => hkeep.dst hdb (.inl hj)
  unfold NonFinalDone SameDiagnosis
  rw [hl]
  exact ⟨rfl, rfl, rfl, rfl, rfl, rfl, rfl, rfl, ⟨rfl, rfl, rfl⟩, hkept, hlit, hmat⟩

/-- A token's form runs a non-final sequence to the next boundary (R97, R163 to R166). -/
theorem sequenceRuns_decodeToken (tok : Byte) : SequenceRuns (decodeToken tok) tok := by
  intro s l litAt off m next hm hb h
  obtain ⟨-, hsp, hs, -, -⟩ := id hb
  obtain ⟨t, hrun, hdone, hkeep⟩ := runSequence_nonFinal hm hb h
  have hexec : exec (decodeToken tok) s = .next t := by rw [exec_decodeToken, atToken_of _ hs hsp, hrun]; rfl
  have hframe := exec_frame (slot := .token) (decode_slot (bytes := [tok]) rfl) hexec
  exact ⟨t, hexec, hdone, hframe.around, hframe.command, fun a ha => hkeep a (by omega)⟩

/-- What holds of every token's decoded form holds of the four forms with their nibbles (R96, D28). -/
theorem tokenForms_of_decodeToken {P : Instr → Byte → Prop} (h : ∀ tok, P (decodeToken tok) tok) :
    (∀ ll ml : Nibble, ll ≠ 15#4 → ml ≠ 15#4 → P (.seq ll ml) (tokenByte ll ml))
      ∧ (∀ ml : Nibble, ml ≠ 15#4 → P (.seqXL ml) (tokenByte 15#4 ml))
      ∧ (∀ ll : Nibble, ll ≠ 15#4 → P (.seqXM ll) (tokenByte ll 15#4))
      ∧ P .seqXLXM 0xFF#8 := by
  have hform : ∀ {i : Instr} {tok : Byte}, i.wf = true → i.slot = some .token → encode i = [tok] → P i tok :=
    fun hwf hslot hb => decodeToken_of_encode hwf hslot hb ▸ h _
  refine ⟨fun ll ml hll hml => hform ?_ rfl rfl, fun ml hml => hform ?_ rfl rfl, fun ll hll => hform ?_ rfl rfl,
    hform rfl rfl rfl⟩ <;> simp [Instr.wf, *]

/-- Settles O26: each form is the one its token decodes to. -/
theorem nonFinalSequencesRun : Obligations.NonFinalSequencesRun := tokenForms_of_decodeToken sequenceRuns_decodeToken

end Sys2Proof.Machine

namespace Sys2Proof.Machine

/-! ### The selector's transactions (R192, R193) -/

/-- A transaction on a context whose lock is free runs (R33). -/
theorem transact_of_free {ctx : Nat} {s : State} {c : Context} (k : Context → State) (hc : s.ctxs[ctx]? = some c)
    (hl : c.lock = false) : transact ctx s k = .next (k c) := by simp [transact, hc, hl]

/-- A transaction on a context whose lock is held waits (R33, log entry 10). -/
theorem transact_of_held {ctx : Nat} {s : State} {c : Context} (k : Context → State) (hc : s.ctxs[ctx]? = some c)
    (hl : c.lock = true) : transact ctx s k = .next s := by simp [transact, hc, hl]

/-- A transaction on a context that does not exist is refused (log entry 10). -/
theorem transact_of_absent {ctx : Nat} {s : State} (k : Context → State) (h : s.ctxs.length ≤ ctx) :
    transact ctx s k = .refused .noSuchContext := by simp [transact, h]

/-- A SELECT on a free context changes its call counter only (R192). -/
theorem locked_countCall {c : Context} (hl : c.lock = false) :
    locked countCall c = { c with calls := c.calls + 1#32 } := by
  unfold locked countCall
  rw [hl]

/-- Settles O50: SELECT is a transaction that counts the call and returns the chosen variant. -/
theorem selectResult : Obligations.SelectResult := by
  refine fun ctx s => ⟨fun c hc hl => ⟨chosenVariant c, selectedVariant_chosen c, ?_⟩,
    fun c hc hl => transact_of_held _ hc hl, transact_of_absent _⟩
  calc exec (.select ctx) s
    _ = .next (selectEffect ctx s c) := transact_of_free _ hc hl
    _ = .next { s with
          ctxs := s.ctxs.set ctx { c with calls := c.calls + 1#32 }
          lane := { s.lane with vsel := chosenVariant c } } := by rw [selectEffect, locked_countCall hl]; rfl

/-- A sample folded into an estimate that counts samples already leaves it between the old one and the sample (R193). -/
theorem SampleFolded.between {v : Variant} {elapsed bytes : Nat} {c c' : Context}
    (h : SampleFolded v elapsed bytes c c') (hcnt : c.cnt[v] ≠ 0#32) :
    min c.est[v].toNat (sample elapsed bytes) ≤ c'.est[v].toNat
      ∧ c'.est[v].toNat ≤ max c.est[v].toNat (sample elapsed bytes) := by
  obtain ⟨-, hblend, -⟩ := h
  have hest : c'.est[v].toNat = blend c.est[v].toNat (sample elapsed bytes) := hblend hcnt
  rw [hest]
  exact blend_between _ _

/-- Settles O51: UPDATE is a transaction that folds one sample into the context. -/
theorem updateResult : Obligations.UpdateResult := by
  refine fun ctx v elapsed bytes s => ⟨fun c hc hl => ?_, fun c hc hl => transact_of_held _ hc hl, transact_of_absent _⟩
  have hfold := sampleFolded_foldSample v elapsed.toNat bytes c hl
  exact ⟨_, transact_of_free _ hc hl, hfold, hfold.between⟩

/-! ### What 64 SELECTs return (R195) -/

/-- What SELECT returns at the call number `calls` where the estimate of `best` is strictly the largest: a probe at the
first three calls of an epoch, and `best` at the others (R192). -/
def policyVariant (best : Variant) (calls : Nat) : Variant :=
  if h : calls % 64 < 3 then ⟨calls % 64, h⟩ else best

/-- The policy repeats with each epoch (R192). -/
theorem policyVariant_periodic (best : Variant) : Function.Periodic (policyVariant best) 64 := fun calls => by
  simp only [policyVariant, Nat.add_mod_right]

/-- SELECT follows the policy where one estimate is strictly the largest (R192). -/
theorem chosenVariant_eq_policyVariant {c : Context} {best : Variant}
    (hb : ∀ u : Variant, u ≠ best → c.est[u] < c.est[best]) : chosenVariant c = policyVariant best c.calls.toNat := by
  unfold policyVariant
  split_ifs with h
  · exact Fin.ext (chosenVariant_probe h)
  · exact chosenVariant_strict hb (Nat.not_lt.mp h)

/-- An epoch returns the best variant at the 61 calls that do not probe, and at the one that probes it. -/
theorem count_policyVariant_epoch (best : Variant) : Nat.count (policyVariant best · = best) 64 = 62 := by
  decide +revert

/-- Any `p` consecutive numbers hold as many of a predicate of period `p` as the first `p`. -/
theorem countP_range'_of_periodic {P : Nat → Prop} [DecidablePred P] {p : Nat} (hP : Function.Periodic P p) (n : Nat) :
    (List.range' n p).countP P = Nat.count P p := by
  have hIco : Multiset.Ico n (n + p) = List.range' n p :=
    congrArg (fun k => (List.range' n k : Multiset Nat)) (Nat.add_sub_cancel_left n p)
  rw [← Nat.filter_multiset_Ico_card_eq_of_periodic n p P hP, ← Multiset.countP_eq_card_filter, hIco,
    Multiset.coe_countP]

/-- Where one variant's estimate is strictly the largest throughout, the selections follow the policy along the call
numbers, whatever UPDATEs come between (R195). -/
theorem selections_eq_map_policyVariant {contextAt : Nat → Context} (h : SelectHistory contextAt) {n m : Nat}
    {best : Variant}
    (hb : ∀ k, k < m → ∀ u : Variant, u ≠ best → (contextAt (n + k)).est[u] < (contextAt (n + k)).est[best]) :
    selections contextAt n m = (List.range' (contextAt n).calls.toNat m).map (policyVariant best) := by
  rw [List.range'_eq_map_range, List.map_map]
  refine List.map_congr_left fun k hk => ?_
  rw [chosenVariant_eq_policyVariant (hb k (List.mem_range.mp hk)), ← (policyVariant_periodic best).map_mod_nat,
    calls_history h, (policyVariant_periodic best).map_mod_nat]
  rfl

/-- Any 64 consecutive SELECTs include the probe of each variant (R195 (b)). -/
theorem mem_selections {contextAt : Nat → Context} (h : SelectHistory contextAt) (n : Nat) (v : Variant) :
    v ∈ selections contextAt n 64 := by
  have hv := v.isLt
  obtain ⟨k, hk, hres⟩ : ∃ k < 64, ((contextAt n).calls.toNat + k) % 64 = v.val :=
    ⟨(v.val + 64 - (contextAt n).calls.toNat % 64) % 64, by omega, by omega⟩
  rw [← calls_history h] at hres
  have hprobe : chosenVariant (contextAt (n + k)) = v := Fin.ext ((chosenVariant_probe (by omega)).trans hres)
  exact List.mem_map.mpr ⟨k, List.mem_range.mpr hk, hprobe⟩

/-- Settles O52: any 64 consecutive SELECTs are a whole epoch of the policy, begun at some residue. -/
theorem selectorExploresAndExploits : Obligations.SelectorExploresAndExploits := by
  refine fun contextAt n h => ⟨mem_selections h n, fun best hb => ?_⟩
  have hperiodic : Function.Periodic (policyVariant best · = best) 64 := (policyVariant_periodic best).comp (· = best)
  calc (selections contextAt n 64).count best
    _ = (List.range' (contextAt n).calls.toNat 64).countP (policyVariant best · = best) := by
      rw [selections_eq_map_policyVariant h hb, List.count_eq_countP, List.countP_map]
      rfl
    _ = Nat.count (policyVariant best · = best) 64 := countP_range'_of_periodic hperiodic _
    _ = 62 := count_policyVariant_epoch best

end Sys2Proof.Machine

namespace Sys2Proof.Machine

/-! ### What DECOMPRESS answers (R211 to R215) -/

/-- A command that breaks the contract is refused (R243). -/
theorem exec_decompress_of_broken {cmd : Command} {s : State} (h : ContractBroken cmd s) :
    ∃ r, exec (.decompress cmd) s = .refused r := by
  obtain ⟨r, hr⟩ := Option.ne_none_iff_exists'.mp fun hn => (contractProblem_eq_none cmd s).mp hn h
  exact ⟨r, show execDecompress cmd s = _ by rw [execDecompress, hr]⟩

theorem trivialSizes_of_pos {s d : Nat} (hs : 0 < s) (hd : 0 < d) : trivialSizes s d = false := by
  rw [← Bool.not_eq_true, trivialSizes_iff]
  omega

theorem measuredSizes_of_trivial {s d : Nat} (h : trivialSizes s d = true) : measuredSizes s d = false := by
  simp [measuredSizes, h]

theorem trivialSizes_of_measured {s d : Nat} (h : measuredSizes s d = true) : trivialSizes s d = false := by
  obtain ⟨hs, hd⟩ := (measuredSizes_iff s d).mp h
  exact trivialSizes_of_pos hs (by omega)

/-- Only a measured command waits (R33, R248). -/
theorem selectWaits_of_unmeasured {cmd : Command} (s : State)
    (hm : measuredSizes cmd.sourceSize cmd.destSize = false) : selectWaits cmd s = false := by
  simp [selectWaits, hm]

/-- A measured command waits for the lock of its context (R33, R248). -/
theorem selectWaits_of_measured {cmd : Command} {s : State} {c : Context}
    (hm : measuredSizes cmd.sourceSize cmd.destSize = true) (hc : s.ctxs[cmd.stats]? = some c) :
    selectWaits cmd s = c.lock := by
  simp [selectWaits, hm, hc]

section
variable {cmd : Command} {s : State} (hkept : ¬ ContractBroken cmd s)
include hkept

theorem accepted_of_kept : Accepted cmd s := accepted_of_contractProblem ((contractProblem_eq_none cmd s).mpr hkept)

/-- A command that keeps the contract: what it does is decided by its sizes and the lock (R212). -/
theorem exec_decompress_of_kept : exec (.decompress cmd) s =
    if selectWaits cmd s then .next s
    else if trivialSizes cmd.sourceSize cmd.destSize then .next (s.withLane { s.lane.latched cmd with state := .done })
    else if measuredSizes cmd.sourceSize cmd.destSize then startMeasured (latch cmd s)
    else .next (s.withLane (s.lane.started cmd 0 s.lane.t0)) := by
  show execDecompress cmd s = _
  rw [execDecompress, (contractProblem_eq_none cmd s).mpr hkept]
  rfl

/-- A trivial command is done at once (R213). -/
theorem exec_decompress_trivial (ht : trivialSizes cmd.sourceSize cmd.destSize = true) :
    exec (.decompress cmd) s = .next (s.withLane { s.lane.latched cmd with state := .done }) := by
  simp [exec_decompress_of_kept hkept, selectWaits_of_unmeasured s (measuredSizes_of_trivial ht), ht]

/-- A command that is neither trivial nor measured starts its decode with the narrowest variant (R214). -/
theorem exec_decompress_unmeasured (ht : trivialSizes cmd.sourceSize cmd.destSize = false)
    (hm : measuredSizes cmd.sourceSize cmd.destSize = false) :
    exec (.decompress cmd) s = .next (s.withLane (s.lane.started cmd 0 s.lane.t0)) := by
  simp [exec_decompress_of_kept hkept, selectWaits_of_unmeasured s hm, ht, hm]

/-- A measured command whose context is locked waits (R33, log entry 10). -/
theorem exec_decompress_held {c : Context} (hm : measuredSizes cmd.sourceSize cmd.destSize = true)
    (hc : s.ctxs[cmd.stats]? = some c) (hl : c.lock = true) : exec (.decompress cmd) s = .next s := by
  rw [exec_decompress_of_kept hkept, selectWaits_of_measured hm hc, if_pos hl]

/-- A measured command performs SELECT, reads the time and starts its decode with the variant chosen (R215). -/
theorem exec_decompress_measured {c : Context} (hm : measuredSizes cmd.sourceSize cmd.destSize = true)
    (hc : s.ctxs[cmd.stats]? = some c) (hl : c.lock = false) :
    exec (.decompress cmd) s = .next ((s.setCtx cmd.stats (locked countCall c)).withLane
      (s.lane.started cmd (chosenVariant c) s.time)) := by
  have hstart : exec (.decompress cmd) s = startMeasured (latch cmd s) := by
    simp [exec_decompress_of_kept hkept, selectWaits_of_measured hm hc, hl, trivialSizes_of_measured hm, hm]
  rw [hstart]
  exact transact_of_free (s := latch cmd s) _ hc hl

/-- A command that keeps the contract is never refused (R211). -/
theorem exec_decompress_answers : ∃ t, exec (.decompress cmd) s = .next t := by
  have hc := List.getElem?_eq_getElem (accepted_of_kept hkept).stats_lt
  cases ht : trivialSizes cmd.sourceSize cmd.destSize with
  | true => exact ⟨_, exec_decompress_trivial hkept ht⟩
  | false =>
    cases hm : measuredSizes cmd.sourceSize cmd.destSize with
    | false => exact ⟨_, exec_decompress_unmeasured hkept ht hm⟩
    | true =>
      cases hl : (s.ctxs[cmd.stats]'(accepted_of_kept hkept).stats_lt).lock with
      | true => exact ⟨_, exec_decompress_held hkept hm hc hl⟩
      | false => exact ⟨_, exec_decompress_measured hkept hm hc hl⟩

/-- With the locks free, a command with positive sizes starts its decode; only contexts and the acting lane change. -/
theorem exec_decompress_starts (hS : 0 < cmd.sourceSize) (hD : 0 < cmd.destSize)
    (hfree : ∀ c ∈ s.ctxs, c.lock = false) :
    ∃ cs v t0, exec (.decompress cmd) s = .next ((s.withCtxs cs).withLane (s.lane.started cmd v t0)) := by
  have ht := trivialSizes_of_pos hS hD
  have hstats := (accepted_of_kept hkept).stats_lt
  cases hm : measuredSizes cmd.sourceSize cmd.destSize with
  | false => exact ⟨s.ctxs, 0, s.lane.t0, exec_decompress_unmeasured hkept ht hm⟩
  | true =>
    exact ⟨_, _, _, exec_decompress_measured hkept hm (List.getElem?_eq_getElem hstats)
      (hfree _ (List.getElem_mem hstats))⟩

/-- The decode of an accepted command stands at its start (R150). -/
theorem atStart_of_started (hslack : s.SlackOk) (hS : 0 < cmd.sourceSize) (hD : 0 < cmd.destSize) (cs : List Context)
    (v : Variant) (t0 : Wide) : ((s.withCtxs cs).withLane (s.lane.started cmd v t0)).AtStart := by
  have hacc := accepted_of_kept hkept
  have hspans : ((s.withCtxs cs).withLane (s.lane.started cmd v t0)).SpansOk :=
    ⟨hacc.source_le, hacc.dest_le, hacc.spans (trivialSizes_of_pos hS hD)⟩
  exact ⟨⟨hslack, hspans, rfl, Nat.zero_le _, Nat.zero_le _⟩, rfl, rfl, hS, hD, rfl, rfl, rfl⟩

end

/-! ### What the end of a command answers (R212, R216, R217) -/

/-- A lane whose decode has ended ends its command (R212). -/
theorem laneStep_of_ended {s : State} (h : s.lane.state = .done ∨ s.lane.state = .failed) : laneStep s = respond s := by
  rcases h with h | h <;> rw [laneStep, h]

theorem respond_unmeasured {s : State} (hm : measuredSizes s.lane.srcSize s.lane.dstSize = false) :
    respond s = .next (deliver s) := by
  rw [respond, hm]
  rfl

/-- A measured command performs its UPDATE, whatever its verdict (R217). -/
theorem respond_measured {s : State} {c : Context} (hm : measuredSizes s.lane.srcSize s.lane.dstSize = true)
    (hc : s.ctxs[s.lane.ctx]? = some c) (hl : c.lock = false) :
    respond s = .next (deliver (updateEffect s.lane.ctx s.lane.vsel (s.time - s.lane.t0) s.lane.dstSize s c)) := by
  rw [respond, if_pos hm]
  exact transact_of_free _ hc hl

/-- The response, delivered once the contexts are updated, if at all (R216, R240, R242). -/
theorem responded_deliver (s : State) (cs : List Context) : Responded s (deliver (s.withCtxs cs)) := by
  obtain ⟨hsb, hss, hdb, hds, hctx, -, hvsel, ht0⟩ := Lane.respondWith_command s.draws s.lane
  refine ⟨rfl, verdict_eq _, rfl, Lane.respondWith_diagnosis _ _, hsb, hss, hdb, hds, hctx, hvsel, ht0, fun hd => ?_,
    deliver_keeps (s.withCtxs cs), ?_⟩
  · rw [deliver_mem, State.withCtxs_lane, hd]
    rfl
  · unfold deliver forgetOutput
    split <;> rfl

/-- With the locks free and the command's context there, the end of a command comes to its response (R242). -/
theorem respond_responded {s : State} (hctx : s.lane.ctx < s.ctxs.length) (hfree : ∀ c ∈ s.ctxs, c.lock = false) :
    ∃ t, respond s = .next t ∧ Responded s t := by
  cases hm : measuredSizes s.lane.srcSize s.lane.dstSize with
  | false => exact ⟨_, respond_unmeasured hm, responded_deliver s s.ctxs⟩
  | true =>
    exact ⟨_, respond_measured hm (List.getElem?_eq_getElem hctx) (hfree _ (List.getElem_mem hctx)),
      responded_deliver s _⟩

/-! ### The statements about the command -/

/-- Settles O55: every step keeps the contracts, a lane's, the host's and the start of a command among them. -/
theorem contractsStayMet : Obligations.ContractsStayMet := fun _ _ => step_keeps_contractInv

/-- Settles O43: a broken contract is refused, and a command that keeps it is answered. -/
theorem contractDecidesTheCommand : Obligations.ContractDecidesTheCommand := by
  refine fun cmd s => ⟨fun ⟨r, hr⟩ => ?_, exec_decompress_of_broken⟩
  by_contra hkept
  obtain ⟨t, ht⟩ := exec_decompress_answers hkept
  rw [ht] at hr
  cases hr

/-- Settles O44: a trivial command is done at once, and its response writes `RESULT` and goes back to idle. -/
theorem zeroSizeCommandSucceeds : Obligations.ZeroSizeCommandSucceeds := by
  intro cmd s hkept hzero
  have ht : trivialSizes cmd.sourceSize cmd.destSize = true := (trivialSizes_iff _ _).mpr hzero
  refine ⟨exec_decompress_trivial hkept ht, _, ?_, rfl⟩
  rw [laneStep_of_ended (.inl rfl), respond_unmeasured (measuredSizes_of_trivial ht)]
  have hlane : ({ s.lane.latched cmd with state := .done } : Lane).respondWith s.draws
      = { s.lane.latched cmd with state := .idle, result := true, inExt := false } := by
    simp [Lane.respondWith, Lane.latched, ht, verdict]
  rw [← hlane]
  rfl

/-- Settles O45: below the threshold a command is neither trivial nor measured. -/
theorem smallCommandStartsNarrowest : Obligations.SmallCommandStartsNarrowest := by
  intro cmd s hkept hS hD hsmall
  refine exec_decompress_unmeasured hkept (trivialSizes_of_pos hS hD) ?_
  rw [← Bool.not_eq_true, measuredSizes_iff]
  omega

/-- Settles O46: at or above the threshold the command waits for the lock, or performs SELECT and reads the time. -/
theorem measuredCommandSelectsAndTimes : Obligations.MeasuredCommandSelectsAndTimes := by
  intro cmd s c hkept hS hD hc
  have hm := (measuredSizes_iff _ _).mpr ⟨hS, hD⟩
  refine ⟨exec_decompress_held hkept hm hc, fun hl => ⟨chosenVariant c, selectedVariant_chosen c, ?_⟩⟩
  rw [exec_decompress_measured hkept hm hc hl, locked_countCall hl]
  rfl

/-- Settles O47: the response is delivered without a transaction. -/
theorem unmeasuredCommandResponds : Obligations.UnmeasuredCommandResponds := by
  intro s hst hsmall
  have hm : measuredSizes s.lane.srcSize s.lane.dstSize = false := by
    rw [← Bool.not_eq_true, measuredSizes_iff]
    omega
  exact ⟨_, (laneStep_of_ended hst).trans (respond_unmeasured hm), responded_deliver s s.ctxs, deliver_ctxs s⟩

/-- Settles O48: the UPDATE folds in the time since t0, which does not lie ahead, and then the response is delivered. -/
theorem measuredCommandUpdatesAndResponds : Obligations.MeasuredCommandUpdatesAndResponds := by
  intro s c hst hS hD hc hl ht0
  have hm := (measuredSizes_iff _ _).mpr ⟨hS, hD⟩
  refine ⟨_, _, (laneStep_of_ended hst).trans (respond_measured hm hc hl), responded_deliver s _, deliver_ctxs _, ?_⟩
  rw [← BitVec.toNat_sub_of_le ht0]
  exact sampleFolded_foldSample _ _ _ c hl

/-! ### A whole command (R212, R168, R216) -/

/-- The response says what REF's result says, and after a success the `d` bytes from `dest` on are REF's output (R168,
R216). -/
def State.Returned (t : State) (dest d : Nat) : RefResult → Prop
  | .ok out => t.lane.result = true ∧ t.lane.fcause = .none ∧ t.mem.readBytes dest d = out
  | .fail c ip op => t.lane.result = false ∧ t.lane.fcause = c ∧ t.lane.fip = ip ∧ t.lane.fop = op

/-- A decode that ended as some result says is at `Done` or `Failed`. -/
theorem EndsAs.ended {r : RefResult} {t : State} (h : EndsAs r t) : t.lane.state = .done ∨ t.lane.state = .failed := by
  cases r with
  | ok out => exact .inl h.1
  | fail c ip op => exact .inr h.1

/-- The response to a decode that has ended as REF's result says returns that result (R216, R240). -/
theorem Responded.returned {s t : State} {r : RefResult} (h : Responded s t) (he : EndsAs r s) :
    t.Returned s.lane.dstBase s.lane.dstSize r := by
  obtain ⟨-, hres, -, ⟨hcause, hfip, hfop⟩, -, -, -, -, -, -, -, hmem, -⟩ := h
  cases r with
  | ok out =>
    obtain ⟨hst, hnone, hout⟩ := he
    exact ⟨by rw [hres, hst]; rfl, hcause.trans hnone, by rw [hmem hst]; exact hout⟩
  | fail c ip op =>
    obtain ⟨hst, hc, hip, hop⟩ := he
    exact ⟨by rw [hres, hst]; rfl, hcause.trans hc, hfip.trans hip, hfop.trans hop⟩

/-- From the start of a decode, with the locks free, the decode and the response after it return REF's result and write
the output only (R168, R212, R216). -/
theorem decode_and_response {s : State} (hm : s.mem.wf) (hs : s.AtStart) (hctx : s.lane.ctx < s.ctxs.length)
    (hfree : ∀ c ∈ s.ctxs, c.lock = false) :
    ∃ u v, runLane (s.lane.srcSize + 1) s = .next u ∧ laneStep u = .next v ∧ v.lane.state = .idle
      ∧ SameOutside s v s.lane.dstBase (s.lane.dstBase + s.lane.dstSize)
      ∧ v.Returned s.lane.dstBase s.lane.dstSize (ref s.block s.lane.dstSize) := by
  obtain ⟨u, hrun, hends, haround, ⟨-, -, hdb, hds, huctx, -⟩, hout⟩ := decodeMatchesReference s hm hs
  have hctxs : u.ctxs = s.ctxs := by rw [haround]; rfl
  rw [← huctx, ← hctxs] at hctx
  obtain ⟨v, hresp, hv⟩ := respond_responded hctx (hctxs ▸ hfree)
  have hstep := (laneStep_of_ended hends.ended).trans hresp
  have hkeep := laneStep_sameOutside hstep
  have hreturned := hv.returned hends
  rw [hdb, hds] at hkeep hreturned
  exact ⟨u, v, hrun, hstep, hv.1, fun a ha => (hkeep a ha).trans (hout a ha), hreturned⟩

/-- Settles O49: the start stands at the first boundary, the decode from there ends as REF does, and the response hands
on what it left. -/
theorem commandReturnsReferenceResult : Obligations.CommandReturnsReferenceResult := by
  intro cmd s hm hslack hkept hS hD hfree
  obtain ⟨cs, v, t0, hstart⟩ := exec_decompress_starts hkept hS hD hfree
  have hframe := execDecompress_clockFrame hstart
  have hctx : cmd.stats < cs.length := hframe.others.nCtx ▸ (accepted_of_kept hkept).stats_lt
  obtain ⟨u, w, hrun, hstep, hidle, hout, hreturned⟩ :=
    decode_and_response (s := (s.withCtxs cs).withLane (s.lane.started cmd v t0)) hm
      (atStart_of_started hkept hslack hS hD cs v t0) hctx (hframe.transacted.locksFree hfree)
  exact ⟨_, u, w, hstart, hrun, hstep, hidle, hout, hreturned⟩

end Sys2Proof.Machine

namespace Sys2Proof.Machine

/-! ### What a failing step records (R240, R241, R169) -/

/-- A cause, and neither of the two whose tests the decoder's exact tests make redundant (R169, R231). -/
abbrev Cause.CanFire (c : Cause) : Prop := c ≠ .none ∧ c ≠ .litSlack ∧ c ≠ .matchDst2

/-- If the acting lane has failed, its diagnostic registers hold a cause and both cursors, and with `SLACK ≥ 31` the
cause is one that can fire (R240, R169). -/
def State.FailureRecorded (t : State) : Prop :=
  t.lane.state = .failed →
    t.lane.fcause ≠ .none ∧ t.lane.fip = t.lane.ip ∧ t.lane.fop = t.lane.op ∧ (t.SlackOk → t.lane.fcause.CanFire)

theorem State.FailureRecorded.of_ne_failed {t : State} (h : t.lane.state ≠ .failed) : t.FailureRecorded :=
  fun hf => absurd hf h

theorem raiseFail_failureRecorded {c : Cause} {s : State} (hc : c ≠ .none) (hfire : s.SlackOk → c.CanFire) :
    (raiseFail c s).FailureRecorded := fun _ => ⟨hc, rfl, rfl, hfire⟩

theorem Cause.CanFire.failureRecorded {c : Cause} (h : c.CanFire) (s : State) : (raiseFail c s).FailureRecorded :=
  raiseFail_failureRecorded h.1 fun _ => h

theorem eosCause_canFire (st : LaneState) : (eosCause st).CanFire := by cases st <;> decide

/-- A part of the decoder goes on only where it has not failed, and where it ends in a failure it has recorded it. -/
def Flow.FailsRecorded : Flow → Prop
  | .goesOn t => t.lane.state ≠ .failed
  | .ended t => t.FailureRecorded

theorem Flow.FailsRecorded.state {fl : Flow} (h : fl.FailsRecorded) : fl.state.FailureRecorded := by
  cases fl with
  | goesOn t => exact .of_ne_failed h
  | ended t => exact h

theorem Flow.FailsRecorded.andThen {fl : Flow} {f : State → Flow} (h : fl.FailsRecorded)
    (hf : ∀ t : State, t.lane.state ≠ .failed → (f t).FailsRecorded) : (fl.andThen f).FailsRecorded := by
  cases fl with
  | goesOn t => exact hf t h
  | ended t => exact h

theorem readToken_failsRecorded (tok : Byte) (s : State) : (readToken tok s).FailsRecorded := by
  rcases readToken_cases tok s with ⟨-, he⟩ | ⟨-, he⟩ <;> rw [he]
  · exact Cause.CanFire.failureRecorded (by decide) _
  · exact nofun

/-- EXTEND leaves `STATE` as it is, or fails with the cause it is given (R153). -/
theorem extendIfFifteen_failsRecorded {cause : Cause} (hc : cause.CanFire) {s : State} (hs : s.lane.state ≠ .failed) :
    (extendIfFifteen cause s).FailsRecorded := by
  unfold extendIfFifteen
  split
  · unfold extend
    rcases extendLoop_cases cause (s.lane.srcSize - s.lane.ip) s with
      ⟨len, ip, -, -, -, -, -, he⟩ | ⟨len, ip, -, -, -, -, -, he⟩ <;> rw [he]
    · exact hs
    · exact hc.failureRecorded _
  · exact hs

theorem extendLiteralLength_failsRecorded {s : State} (hs : s.lane.state ≠ .failed) :
    (extendLiteralLength s).FailsRecorded :=
  (extendIfFifteen_failsRecorded (cause := .litExtEos) (by decide) hs).andThen fun _ _ => nofun

/-- With `SLACK ≥ 31` the exact test of the source leaves no room for the slack test (R155, R169 (a)). -/
theorem copyLiterals_failsRecorded (s : State) : (copyLiterals s).FailsRecorded := by
  rcases copyLiterals_cases s with ⟨-, he⟩ | ⟨-, -, he⟩ | ⟨-, hsrc, hover, he⟩ | ⟨-, -, -, he⟩ <;> rw [he]
  · exact Cause.CanFire.failureRecorded (by decide) _
  · exact Cause.CanFire.failureRecorded (by decide) _
  · exact raiseFail_failureRecorded (by decide) fun hslack =>
      absurd (ceilTo_within_slack hslack hsrc) (Nat.not_le.mpr hover)
  · rcases finishLiterals_cases (wildCopyIn s.W s.lane.op s.lane.ip s.lane.len
      (s.withLane { s.lane with cend := s.lane.op + s.lane.len })) with ⟨-, hf⟩ | ⟨-, hf⟩ <;> rw [hf]
    · exact .of_ne_failed nofun
    · exact nofun

theorem readOffset_failsRecorded (off : Half) (s : State) : (readOffset off s).FailsRecorded := by
  rcases readOffset_cases off s with ⟨-, he⟩ | ⟨-, he⟩ <;> rw [he]
  · exact Cause.CanFire.failureRecorded (by decide) _
  · rcases takeOffset_cases off s with ⟨-, he⟩ | ⟨-, -, he⟩ | ⟨-, -, he⟩ <;> rw [he]
    · exact Cause.CanFire.failureRecorded (by decide) _
    · exact Cause.CanFire.failureRecorded (by decide) _
    · exact nofun

theorem extendMatchLength_failsRecorded {s : State} (hs : s.lane.state ≠ .failed) :
    (extendMatchLength s).FailsRecorded :=
  (extendIfFifteen_failsRecorded (cause := .matExtEos) (s := loadMatchCode s) (by decide) hs).andThen fun _ _ => nofun

/-- The second test of the destination repeats the first, so it never fires (R161, R169 (b)). -/
theorem copyMatch_failsRecorded (s : State) : (copyMatch s).FailsRecorded := by
  rcases copyMatch_cases s with ⟨-, he⟩ | ⟨-, t, he, -, -, -, hst, -⟩ <;> rw [he]
  · exact Cause.CanFire.failureRecorded (by decide) _
  · exact ne_of_eq_of_ne hst nofun

theorem runSequence_failsRecorded (tok : Byte) (s : State) : (runSequence tok s).FailsRecorded :=
  (readToken_failsRecorded tok s).andThen fun _ ht =>
    ((((extendLiteralLength_failsRecorded ht).andThen fun u _ => copyLiterals_failsRecorded u).andThen
      fun u _ => readOffset_failsRecorded _ u).andThen fun _ => extendMatchLength_failsRecorded).andThen
        fun u _ => copyMatch_failsRecorded u

/-- The end of an extension goes on to the copy of its step. -/
theorem leaveExtension_ne_failed (s : State) : (leaveExtension s).lane.state ≠ .failed := by
  unfold leaveExtension
  simp only
  split <;> exact nofun

/-- An extension byte fails where the block ends, and nowhere else (R153). -/
theorem atExtension_failureRecorded {s t : State} {k : State → State} (h : atExtension s k = .next t)
    (hk : (k s).lane.state ≠ .failed) : t.FailureRecorded := by
  obtain ⟨-, ⟨-, rfl⟩ | ⟨-, rfl⟩⟩ := atExtension_next h
  · exact (eosCause_canFire _).failureRecorded s
  · exact .of_ne_failed hk

theorem exec_decodeExt_failureRecorded {b : Byte} {s t : State} (hs : s.lane.state ≠ .failed)
    (h : exec (decodeExt b) s = .next t) : t.FailureRecorded := by
  rw [Laws.decodeExt_eq] at h
  split at h
  · exact atExtension_failureRecorded h hs
  · rw [exec_extEnd] at h
    exact atExtension_failureRecorded h (leaveExtension_ne_failed _)

theorem fetchStep_failureRecorded {slot : Slot} {s t : State} (hs : s.lane.state ≠ .failed)
    (h : fetchStep slot s = .next t) : t.FailureRecorded := by
  rcases Nat.lt_or_ge (s.lane.srcSize - s.lane.ip) slot.size with hip | hip
  · rw [fetchStep_of_short hip] at h
    obtain rfl := Host.Outcome.next.inj h
    exact (eosCause_canFire _).failureRecorded s
  cases slot with
  | token =>
    rw [fetchStep_token (Nat.lt_of_sub_pos hip), exec_decodeToken] at h
    obtain ⟨-, -, rfl⟩ := atToken_next h
    exact (runSequence_failsRecorded _ s).state
  | ext =>
    rw [fetchStep_ext (Nat.lt_of_sub_pos hip)] at h
    exact exec_decodeExt_failureRecorded hs h
  | field =>
    rw [fetchStep_field hip] at h
    obtain ⟨-, rfl⟩ := execOffset_next h
    exact (readOffset_failsRecorded _ s).state

/-- Of the steps that read no element, only the copies can fail. -/
theorem innerStep_failureRecorded {s t : State} (hs : s.lane.state ≠ .failed) (h : innerStep s = .next t) :
    t.FailureRecorded := by
  unfold innerStep at h
  split at h <;> obtain rfl := Host.Outcome.next.inj h
  · split
    · exact .of_ne_failed hs
    · exact .of_ne_failed nofun
  · split
    · exact .of_ne_failed hs
    · exact .of_ne_failed nofun
  · exact (copyLiterals_failsRecorded s).state
  · exact (copyMatch_failsRecorded s).state
  all_goals exact .of_ne_failed hs

theorem laneStep_failureRecorded {s t : State} (hd : s.lane.state.decoding = true) (h : laneStep s = .next t) :
    t.FailureRecorded := by
  have hs : s.lane.state ≠ .failed := fun hf => by rw [hf] at hd; cases hd
  obtain ⟨-, ⟨slot, -, hf⟩ | ⟨-, hi⟩⟩ := laneStep_decoding hd h
  · exact fetchStep_failureRecorded hs hf
  · exact innerStep_failureRecorded hs hi

/-- Settles O30: a failing step ends in the failure entry, whose cause can fire, and keeps to the frame of a decode. -/
theorem failureRecordsCauseAndCursors : Obligations.FailureRecordsCauseAndCursors := by
  intro s t hd h hfailed
  have hf := laneStep_frame hd h
  have hslack : s.SlackOk → t.SlackOk := fun hs => by rwa [State.SlackOk, hf.othersSame.params]
  obtain ⟨hcause, hfip, hfop, hfire⟩ := laneStep_failureRecorded hd h hfailed
  exact ⟨hcause, hfip, hfop, hf.command, hf.around, fun hs => (hfire (hslack hs)).2⟩

/-! ### The values after reset (R38, R246) -/

/-- An instance has `N_LANES` lanes right after reset, each in its reset state (R246). -/
theorem State.resetWith_lanes {p : Config.Params} (h : 1 ≤ p.nLanes) :
    (State.resetWith p).lanes = List.replicate p.nLanes Lane.reset := by
  obtain ⟨n, hn⟩ := Nat.exists_eq_add_of_le' h
  simp [State.lanes, State.resetWith, hn, List.replicate_succ]

/-- A context after reset has no estimate, no sample and no call, and its lock is free (R38). -/
theorem Context.reset_noHistory :
    (∀ v : Variant, Context.reset.est[v] = 0#64 ∧ Context.reset.cnt[v] = 0#32) ∧ Context.reset.calls = 0#32
      ∧ Context.reset.lock = false := by decide

/-- Settles O7: every lane and every context is in its reset state, whose values R38 states. -/
theorem resetLeavesSpecValues : Obligations.ResetLeavesSpecValues := by
  rintro p ⟨-, hlanes, -⟩
  rw [State.resetWith_lanes hlanes]
  refine ⟨List.length_replicate, List.length_replicate, fun l hl => ?_, fun c hc => ?_⟩
  · rw [List.eq_of_mem_replicate hl]
    exact ⟨rfl, rfl, rfl, rfl, rfl, rfl⟩
  · rw [List.eq_of_mem_replicate hc]
    exact Context.reset_noHistory

end Sys2Proof.Machine

namespace Sys2Proof.Machine

/-! ### Two decodes of the same block (R262, R168) -/

/-- A run of a lane's decode writes the diagnostic registers at a failure only, which ends it (R31, R240). -/
theorem runLane_diagnosed {k : Nat} {s t : State} (h : runLane k s = .next t) : s.lane.Diagnosed t.lane := by
  induction k generalizing s with
  | zero =>
    obtain rfl := Host.Outcome.next.inj h
    exact .same _
  | succ k ih =>
    rw [runLane] at h
    split at h
    · rename_i hd
      split at h
      · rename_i u hu
        rcases laneStep_diagnosed hd hu with hsame | hfailed
        · exact (ih h).imp (fun ⟨hc, hip, hop⟩ => ⟨hc.trans hsame.1, hip.trans hsame.2.1, hop.trans hsame.2.2⟩) id
        · rw [runLane_of_not_decoding (by rw [hfailed.1]; rfl)] at h
          obtain rfl := Host.Outcome.next.inj h
          exact .inr hfailed
      · cases h
      · cases h
    · obtain rfl := Host.Outcome.next.inj h
      exact .same _

/-- A decode that has come to its success from the start leaves the diagnostic registers cleared (R150, R262). -/
theorem State.AtStart.cleared_of_done {k : Nat} {s t : State} (hs : s.AtStart) (h : runLane k s = .next t)
    (hdone : t.lane.state = .done) : t.lane.fcause = .none ∧ t.lane.fip = 0 ∧ t.lane.fop = 0 := by
  obtain ⟨-, -, -, -, -, hcause, hfip, hfop⟩ := hs
  rcases runLane_diagnosed h with ⟨hc, hip, hop⟩ | ⟨hfailed, -⟩
  · exact ⟨hc.trans hcause, hip.trans hfip, hop.trans hfop⟩
  · rw [hdone] at hfailed
    cases hfailed

/-- Two decodes that ended as the same result says ended alike (R168). -/
theorem EndsAs.alike {r : RefResult} {t t' : State} (h : EndsAs r t) (h' : EndsAs r t')
    (hcleared : t.lane.state = .done → t'.lane.state = .done → SameDiagnosis t.lane t'.lane) :
    t.lane.state = t'.lane.state ∧ SameDiagnosis t.lane t'.lane
      ∧ (t.lane.state = .done → t.output t.lane.dstSize = t'.output t'.lane.dstSize) := by
  cases r with
  | ok out =>
    obtain ⟨hst, -, hout⟩ := h
    obtain ⟨hst', -, hout'⟩ := h'
    exact ⟨hst.trans hst'.symm, hcleared hst hst', fun _ => hout.trans hout'.symm⟩
  | fail c ip op =>
    obtain ⟨hst, hc, hip, hop⟩ := h
    obtain ⟨hst', hc', hip', hop'⟩ := h'
    exact ⟨hst.trans hst'.symm, ⟨hc'.trans hc.symm, hip'.trans hip.symm, hop'.trans hop.symm⟩,
      fun hdone => by rw [hst] at hdone; cases hdone⟩

/-- Settles O42: both decodes end as REF's result says, which depends on the block and D only; REF gives no cursors of a
success, and there the diagnostic registers stay as the start has cleared them. -/
theorem outcomeDependsOnBlockAndSizeOnly : Obligations.OutcomeDependsOnBlockAndSizeOnly := by
  intro s s' hm hm' hs hs' _ hD hblock
  obtain ⟨t, hrun, hends, -⟩ := decodeMatchesReference s hm hs
  obtain ⟨t', hrun', hends', -⟩ := decodeMatchesReference s' hm' hs'
  rw [← hblock, ← hD] at hends'
  refine ⟨t, t', hrun, hrun', hends.alike hends' fun hdone hdone' => ?_⟩
  obtain ⟨hc, hip, hop⟩ := hs.cleared_of_done hrun hdone
  obtain ⟨hc', hip', hop'⟩ := hs'.cleared_of_done hrun' hdone'
  exact ⟨hc'.trans hc.symm, hip'.trans hip.symm, hop'.trans hop.symm⟩

/-! ### The host's reset (R260) -/

/-- With every lane idle the host's reset is done (R260, R219). -/
theorem hostReset_of_idle {s : State} (h : ∀ l ∈ s.lanes, l.state = .idle) :
    hostReset s = .next (s.afterReset s.host) :=
  if_pos (List.all_eq_true.mpr fun l hl => by rw [h l hl]; rfl)

/-- While a lane runs the host's reset is refused (R260, R219). -/
theorem hostReset_of_running {s : State} {l : Lane} (hl : l ∈ s.lanes) (hrun : l.state ≠ .idle) :
    hostReset s = .refused .resetWhileRunning :=
  if_neg fun hall => hrun (by simpa using List.all_eq_true.mp hall l hl)

/-- Settles O8: the two cases of the reset, and the values R38 states for what it resets. -/
theorem hostResetAppliesToIdleCore : Obligations.HostResetAppliesToIdleCore := by
  refine fun s => ⟨fun ⟨l, hl, hrun⟩ => hostReset_of_running hl hrun, fun hidle => ?_⟩
  refine ⟨_, hostReset_of_idle hidle, rfl, rfl, rfl, rfl, rfl, rfl, ?_, List.length_map _, fun l hl => ?_,
    fun c hc => ?_⟩
  · rw [State.afterReset_lanes, List.length_map]
  · rw [State.mem_afterReset_lanes hl]
    exact ⟨rfl, rfl, rfl, rfl, rfl, rfl⟩
  · obtain ⟨-, -, rfl⟩ := List.mem_map.mp hc
    exact Context.reset_noHistory

/-! ### How far past its end a copy may store (R269) -/

/-- CopyLiterals stores up to the end of its last stride (R155, R269). -/
theorem copyLiterals_keeps (s : State) :
    KeepsOutside s (copyLiterals s).state s.lane.op (s.lane.op + ceilTo s.W s.lane.len) := by
  rcases copyLiterals_outcome s with ⟨c, -, he⟩ | ⟨u, hu, he⟩ <;> rw [he]
  · exact .refl _ _ _
  · rcases finishLiterals_cases u with ⟨-, hf⟩ | ⟨-, hf⟩ <;> rw [hf] <;> exact hu.keeps

/-- CopyMatch stores up to the end of its last stride (R161, R269). -/
theorem copyMatch_keeps (s : State) :
    KeepsOutside s (copyMatch s).state s.lane.op (matchEnd s.W s.lane.op s.lane.len) := by
  rcases copyMatch_cases s with ⟨-, he⟩ | ⟨-, t, he, hf, -⟩ <;> rw [he]
  · exact .refl _ _ _
  · exact hf.keeps

/-- What stores below `e` stores nothing past `D` or past any bound above `e` (R66). -/
theorem KeepsOutside.sameOutside_of_le {s t : State} {b e e' : Nat} (h : KeepsOutside s t b e) (he : e ≤ e') :
    SameOutside s t (s.lane.dstBase + b) (s.lane.dstBase + min s.lane.dstSize e') :=
  fun a ha => h a (by omega)

/-- Settles O36: each copy stores up to the end of its last stride, which begins below `CEND`; but the first two strides
of a match are always taken, and it is 4 bytes long at least. -/
theorem wildRegionIsBounded : Obligations.WildRegionIsBounded := by
  intro s t h
  have hspans : s.lane.state.decoding = true → s.SpansOk := fun hd => (laneStep_decoding hd h).1
  have hmatch : s.lane.state = .copyMatch → t = (copyMatch s).state := fun hs => by
    rw [laneStep_copyMatch (hspans (by rw [hs]; rfl)) hs] at h
    exact (Host.Outcome.next.inj h).symm
  refine ⟨fun hs => ?_, fun hs hmin hle => ?_, fun hs hlt => ?_⟩
  · rw [laneStep_copyLiterals (hspans (by rw [hs]; rfl)) hs] at h
    obtain rfl := Host.Outcome.next.inj h
    have := ceilTo_bounds s.W_pos s.lane.len
    exact (copyLiterals_keeps s).sameOutside_of_le (by omega)
  · rw [hmatch hs]
    refine (copyMatch_keeps s).sameOutside_of_le ?_
    rw [matchEnd, if_neg (Nat.not_lt.mpr hle)]
    unfold Config.minMatch at hmin
    omega
  · rw [hmatch hs]
    refine (copyMatch_keeps s).sameOutside_of_le ?_
    have := ceilTo_bounds s.W_pos (s.lane.len - 2 * s.W)
    rw [matchEnd, if_pos hlt]
    omega

end Sys2Proof.Machine

namespace Sys2Proof.Machine

/-! ### How far a lane is from its response (R170, R272) -/

/-- How far a position is from the response at most, in steps that read no byte of the block: such a step comes to a
position of a lower rank, and one that reads bytes to none of a higher rank. -/
def LaneState.rank (inExt : Bool) : LaneState → Nat
  | .idle => 0
  | .done | .failed => 1
  | .readToken => 2
  | .copyMatch => 3
  | .extendMatchLength => if inExt then 3 else 4
  | .readMatch => 4
  | .copyLiterals => 5
  | .extendLiteralLength => if inExt then 5 else 6

theorem LaneState.rank_le (st : LaneState) (inExt : Bool) : st.rank inExt ≤ 6 := by
  cases st <;> cases inExt <;> decide

/-- In a decode the response is two steps away at least. -/
theorem LaneState.two_le_rank {st : LaneState} (h : st.decoding = true) (inExt : Bool) : 2 ≤ st.rank inExt := by
  revert h
  cases st <;> cases inExt <;> decide

/-- With the decode ended the response is the next step, if it has not been delivered (R212). -/
theorem LaneState.rank_le_one {st : LaneState} (h : st.decoding = false) (inExt : Bool) : st.rank inExt ≤ 1 := by
  revert h
  cases st <;> cases inExt <;> decide

/-- The rank of a lane's position. -/
def Lane.rank (l : Lane) : Nat := l.state.rank l.inExt

theorem Lane.At.rank {l : Lane} {st : LaneState} (h : l.At st) : l.rank = st.rank false := by rw [Lane.rank, h.1, h.2]

/-- How many steps at most bring a lane to its response: its rank, and in a decode one for each byte not yet read. -/
def Lane.stepsLeft (l : Lane) : Nat := (if l.state.decoding then l.srcSize - l.ip else 0) + l.rank

/-- A lane has at most S + 6 steps left (R170). -/
theorem Lane.stepsLeft_le (l : Lane) : l.stepsLeft ≤ l.srcSize + 6 := by
  have hrank : l.rank ≤ 6 := l.state.rank_le l.inExt
  unfold Lane.stepsLeft
  split <;> omega

/-- A lane is nearer to its response: at a lower rank, or further in the block at no higher one. -/
def Lane.Nearer (l l' : Lane) : Prop := l'.rank < l.rank ∨ (l.ip < l'.ip ∧ l'.rank ≤ l.rank)

/-- A decode that has ended is nearer to the response than any position of a decode. -/
theorem Lane.Nearer.of_ended {l l' : Lane} (hd : l.state.decoding = true) (h : l'.state.decoding = false) :
    l.Nearer l' := by
  have hl : 2 ≤ l.rank := LaneState.two_le_rank hd _
  have hl' : l'.rank ≤ 1 := LaneState.rank_le_one h _
  exact .inl (by omega)

/-- Nearer to the response there are fewer steps left, as the cursor stays within the block (R24). -/
theorem Lane.Nearer.stepsLeft_lt {l l' : Lane} (h : l.Nearer l') (hd : l.state.decoding = true)
    (hS : l'.srcSize = l.srcSize) (hle : l.ip ≤ l'.ip) (hip : l'.state.decoding = true → l'.ip ≤ l'.srcSize) :
    l'.stepsLeft < l.stepsLeft := by
  have hl : 2 ≤ l.rank := LaneState.two_le_rank hd _
  unfold Lane.stepsLeft
  rw [if_pos hd]
  rcases hd' : l'.state.decoding with _ | _
  · have hl' : l'.rank ≤ 1 := LaneState.rank_le_one hd' _
    simp only [Bool.false_eq_true, if_false]
    omega
  · have hip := hip hd'
    rw [if_pos rfl]
    rcases h with hr | ⟨hlt, hr⟩ <;> omega

/-! ### Where a part of the decoder ends, the decode has ended (R151) -/

/-- Where the flow ends the decode has, in a success or a failure. -/
def Flow.EndsDecode (fl : Flow) : Prop := ∀ t, fl = .ended t → t.lane.state.decoding = false

theorem Flow.EndsDecode.goesOn (t : State) : (Flow.goesOn t).EndsDecode := fun _ h => by cases h

theorem Flow.EndsDecode.ended {t : State} (h : t.lane.state.decoding = false) : (Flow.ended t).EndsDecode :=
  fun _ ht => Flow.ended.inj ht ▸ h

theorem Flow.EndsDecode.raise (c : Cause) (s : State) : (Flow.ended (raiseFail c s)).EndsDecode := .ended rfl

theorem Flow.EndsDecode.andThen {fl : Flow} {f : State → Flow} (h : fl.EndsDecode) (hf : ∀ t, (f t).EndsDecode) :
    (fl.andThen f).EndsDecode := by
  cases fl with
  | goesOn t => exact hf t
  | ended t => exact h

theorem readToken_endsDecode (tok : Byte) (s : State) : (readToken tok s).EndsDecode := by
  rcases readToken_cases tok s with ⟨-, he⟩ | ⟨-, he⟩ <;> rw [he]
  · exact .raise _ _
  · exact .goesOn _

theorem extendIfFifteen_endsDecode (cause : Cause) (s : State) : (extendIfFifteen cause s).EndsDecode := by
  unfold extendIfFifteen extend
  split
  · rcases extendLoop_cases cause (s.lane.srcSize - s.lane.ip) s with
      ⟨len, ip, -, -, -, -, -, he⟩ | ⟨len, ip, -, -, -, -, -, he⟩ <;> rw [he]
    · exact .goesOn _
    · exact .raise _ _
  · exact .goesOn _

theorem copyLiterals_endsDecode (s : State) : (copyLiterals s).EndsDecode := by
  rcases copyLiterals_outcome s with ⟨c, -, he⟩ | ⟨u, -, he⟩ <;> rw [he]
  · exact .raise _ _
  · rcases finishLiterals_cases u with ⟨-, hf⟩ | ⟨-, hf⟩ <;> rw [hf]
    · exact .ended rfl
    · exact .goesOn _

theorem readOffset_endsDecode (off : Half) (s : State) : (readOffset off s).EndsDecode := by
  rcases readOffset_cases off s with ⟨-, he⟩ | ⟨-, he⟩ <;> rw [he]
  · exact .raise _ _
  · rcases takeOffset_cases off s with ⟨-, he⟩ | ⟨-, -, he⟩ | ⟨-, -, he⟩ <;> rw [he]
    · exact .raise _ _
    · exact .raise _ _
    · exact .goesOn _

theorem copyMatch_endsDecode (s : State) : (copyMatch s).EndsDecode := by
  rcases copyMatch_cases s with ⟨-, he⟩ | ⟨-, t, he, -⟩ <;> rw [he]
  · exact .raise _ _
  · exact .goesOn _

theorem runSequence_endsDecode (tok : Byte) (s : State) : (runSequence tok s).EndsDecode :=
  (readToken_endsDecode tok s).andThen fun u =>
    (((((extendIfFifteen_endsDecode .litExtEos u).andThen fun _ => .goesOn _).andThen copyLiterals_endsDecode).andThen
      fun _ => readOffset_endsDecode _ _).andThen fun v =>
        (extendIfFifteen_endsDecode .matExtEos (loadMatchCode v)).andThen fun _ => .goesOn _).andThen
          copyMatch_endsDecode

/-- A part of the decoder brings a lane nearer to its response if it does so where it goes on. -/
theorem Flow.EndsDecode.nearer {fl : Flow} {l : Lane} (h : fl.EndsDecode) (hd : l.state.decoding = true)
    (hgoes : ∀ t, fl = .goesOn t → l.Nearer t.lane) : l.Nearer fl.state.lane := by
  cases fl with
  | goesOn t => exact hgoes t rfl
  | ended t => exact .of_ended hd (h t rfl)

/-! ### Every step of a running lane brings it nearer to its response -/

/-- A sequence ends the decode, or comes to the next token, its own token consumed at least (R152). -/
theorem runSequence_nearer (tok : Byte) {s : State} (hs : s.lane.state = .readToken) :
    s.lane.Nearer (runSequence tok s).state.lane := by
  refine (runSequence_endsDecode tok s).nearer (by rw [hs]; rfl) fun t ht => .inr ⟨runSequence_ip_lt ht, ?_⟩
  have hreach : (runSequence tok s).Reaches s.lane .readToken :=
    (readToken_reaches tok hs).andThen fun _ => sequenceBody_part.reaches
  rw [(hreach.goesOn t ht).rank, Lane.rank, hs]
  exact Nat.le_refl _

/-- CopyLiterals ends the decode or comes to ReadMatch (R157). -/
theorem copyLiterals_nearer {s : State} (h : s.lane.At .copyLiterals) : s.lane.Nearer (copyLiterals s).state.lane := by
  refine (copyLiterals_endsDecode s).nearer (by rw [h.1]; rfl) fun t ht => .inl ?_
  rw [((copyLiterals_part.reaches h).goesOn t ht).rank, h.rank]
  decide

/-- CopyMatch ends the decode or comes to the next token (R161, R162). -/
theorem copyMatch_nearer {s : State} (h : s.lane.At .copyMatch) : s.lane.Nearer (copyMatch s).state.lane := by
  refine (copyMatch_endsDecode s).nearer (by rw [h.1]; rfl) fun t ht => .inl ?_
  rw [((copyMatch_part.reaches h).goesOn t ht).rank, h.rank]
  decide

/-- ReadMatch ends the decode or comes to ExtendMatchLength, two bytes further (R158, R159). -/
theorem readOffset_nearer (off : Half) {s : State} (h : s.lane.At .readMatch) :
    s.lane.Nearer (readOffset off s).state.lane := by
  refine (readOffset_endsDecode off s).nearer (by rw [h.1]; rfl) fun t ht => .inr ⟨?_, ?_⟩
  · rw [readOffset_goesOn ht]
    exact Nat.lt_add_of_pos_right (by decide)
  · rw [((readOffset_reaches off h).goesOn t ht).rank, h.rank]
    decide

/-- Inside an extension a byte is consumed, or its want ends the decode (R153). -/
theorem fetchStep_ext_nearer {s : State} (hext : s.lane.inExt = true) (hs : s.lane.AtExtension) :
    ∃ t, fetchStep .ext s = .next t ∧ s.lane.Nearer t.lane := by
  rcases Nat.lt_or_ge s.lane.ip s.lane.srcSize with hip | hip
  · rw [fetchStep_ext hip, Laws.decodeExt_eq]
    split
    · exact ⟨_, atExtension_of_byte _ hext hs hip, .inr ⟨Nat.lt_succ_self _, Nat.le_refl _⟩⟩
    · rw [exec_extEnd, atExtension_of_byte _ hext hs hip]
      refine ⟨_, rfl, .inr ?_⟩
      rcases hs with hs | hs
      · rw [leaveExtension_of_literal (s := extendByte _ s) hs, Lane.rank, Lane.rank, hs, hext]
        exact ⟨Nat.lt_succ_self _, Nat.le_refl _⟩
      · rw [leaveExtension_of_match (s := extendByte _ s) hs, Lane.rank, Lane.rank, hs, hext]
        exact ⟨Nat.lt_succ_self _, Nat.le_refl _⟩
  · exact ⟨_, fetchStep_of_short (by simp only [Slot.size]; omega), .of_ended hs.decoding rfl⟩

/-- At either length step an extension begins, or the step is left, or inside one the next byte is read (R154, R160). -/
theorem laneStep_extension_nearer {s : State} (hsp : s.SpansOk) (hs : s.lane.AtExtension) :
    ∃ t, laneStep s = .next t ∧ s.lane.Nearer t.lane := by
  cases hext : s.lane.inExt with
  | true =>
    rw [laneStep_of_slot hsp (slot := .ext) (by rcases hs with hs | hs <;> simp [Lane.slot, hs, hext])]
    exact fetchStep_ext_nearer hext hs
  | false =>
    rcases hs with hs | hs
    · refine ⟨_, laneStep_extendLiteralLength hsp hext hs, .inl ?_⟩
      split <;> simp [Lane.rank, LaneState.rank, State.goto, hs, hext]
    · refine ⟨_, laneStep_extendMatchLength hsp hext hs, .inl ?_⟩
      split <;> simp [Lane.rank, LaneState.rank, hs, hext]

/-- On spans in order, a lane that decodes takes a step, which brings it nearer to its response (R170). -/
theorem laneStep_nearer {s : State} (hsp : s.SpansOk) (hc : s.lane.CursorsOk) (hd : s.lane.state.decoding = true) :
    ∃ t, laneStep s = .next t ∧ s.lane.Nearer t.lane := by
  obtain ⟨-, hx, -⟩ := hc
  cases hs : s.lane.state with
  | idle | done | failed => rw [hs] at hd; cases hd
  | readToken => exact ⟨_, laneStep_at_token hsp hs, runSequence_nearer _ hs⟩
  | copyLiterals => exact ⟨_, laneStep_copyLiterals hsp hs, copyLiterals_nearer ⟨hs, hx (by simp [hs])⟩⟩
  | copyMatch => exact ⟨_, laneStep_copyMatch hsp hs, copyMatch_nearer ⟨hs, hx (by simp [hs])⟩⟩
  | readMatch =>
    rw [laneStep_of_slot hsp (slot := .field) (by simp [Lane.slot, hs])]
    rcases Nat.lt_or_ge (s.lane.srcSize - s.lane.ip) 2 with hip | hip
    · exact ⟨_, fetchStep_of_short hip, .of_ended hd rfl⟩
    · rw [fetchStep_field hip]
      exact ⟨_, exec_offset _ hs, readOffset_nearer _ ⟨hs, hx (by simp [hs])⟩⟩
  | extendLiteralLength => exact laneStep_extension_nearer hsp (.inl hs)
  | extendMatchLength => exact laneStep_extension_nearer hsp (.inr hs)

/-- What lets a running lane always take its next step: its contract, its cursors, and the clock and locks in order. -/
structure Sound (s : State) : Prop where
  contract : ContractInv s
  cursors : CursorInv s
  clock : ClockAndLockInv s

theorem Sound.of_turned {s u : State} (h : Sound s) (hu : Turned s u) : Sound u :=
  ⟨h.contract.of_turned hu, fun l hl => h.cursors l (hu.1 ▸ hl), h.clock.of_turned hu⟩

theorem Sound.of_step {s t : State} (h : Sound s) (hs : step s = .next t) : Sound t :=
  ⟨step_keeps_contractInv h.contract hs, step_keeps_cursorInv h.cursors hs, locksAreFreeBetweenSteps s t h.clock hs⟩

/-- A lane that decodes holds its spans, which meet the contract (R211). -/
theorem Sound.spansOk {s : State} (h : Sound s) (hd : s.lane.state.decoding = true) : s.SpansOk := by
  obtain ⟨⟨-, -, -, hcon, -⟩, hcur, -⟩ := h
  have hspans := (hcur _ s.lane_mem_lanes).holdsSpans (.inl hd)
  obtain ⟨-, -, -, hsrc, hdst, hspan⟩ := hcon _ s.lane_mem_lanes ((Lane.holdsSpans_iff _).mp hspans).1
  exact ⟨hsrc, hdst, hspan hspans⟩

/-- A lane that runs takes a step, and has fewer left after it: in a decode it comes nearer to the response, which it
then delivers (R170, R212). -/
theorem Sound.laneStep_stepsLeft {s : State} (h : Sound s) (hrun : s.lane.state ≠ .idle) :
    ∃ t, laneStep s = .next t ∧ t.lane.stepsLeft < s.lane.stepsLeft := by
  cases hd : s.lane.state.decoding with
  | true =>
    have hc := h.cursors _ s.lane_mem_lanes
    obtain ⟨t, ht, hnear⟩ := laneStep_nearer (h.spansOk hd) hc hd
    have hf := laneStep_frame hd ht
    obtain ⟨-, hS, -⟩ := hf.command
    obtain ⟨hdec, -⟩ := (laneStep_moves hd hc ht).keep Lane.Move.keeps_cursorsOk hc
    refine ⟨t, ht, hnear.stepsLeft_lt hd hS hf.ip_le fun hd' => ?_⟩
    obtain ⟨-, -, hip, -⟩ := hdec hd'
    exact hip
  | false =>
    have hended : s.lane.state = .done ∨ s.lane.state = .failed := by
      cases hs : s.lane.state <;> simp_all [LaneState.decoding]
    obtain ⟨⟨-, -, -, hcon, -⟩, -, hfree, -⟩ := h
    obtain ⟨t, ht, hidle, -⟩ := respond_responded (hcon _ s.lane_mem_lanes hrun).1 hfree
    refine ⟨t, (laneStep_of_ended hended).trans ht, ?_⟩
    rcases hended with hs | hs <;> simp [Lane.stepsLeft, Lane.rank, LaneState.rank, LaneState.decoding, hidle, hs]

/-! ### Turns without an agenda, until all lanes are idle (R218, R272) -/

/-- A lane that exists can be given its turn. -/
theorem State.exists_focus {s : State} {k : Nat} {l : Lane} (h : s.lanes[k]? = some l) :
    ∃ u, s.focus k = some u ∧ u.lane = l ∧ u.agenda = s.agenda := by
  obtain ⟨hk, rfl⟩ := List.getElem?_eq_some_iff.mp h
  unfold State.focus
  rw [List.drop_eq_getElem_cons hk]
  exact ⟨_, rfl, rfl, rfl⟩

/-- Without an agenda, while a lane runs, the turn is that of a running lane (log entry 15). -/
theorem State.exists_turnOf {s : State} (hagenda : s.agenda = []) (hrun : ∃ l ∈ s.lanes, l.state ≠ .idle) :
    ∃ u, s.TurnOf u ∧ Turned s u ∧ u.lane.state ≠ .idle ∧ u.agenda = [] := by
  by_cases hidle : s.lane.state = .idle
  · cases hfirst : s.runningLane with
    | none =>
      obtain ⟨l, hl, hne⟩ := hrun
      exact absurd (s.runningLane_eq_none.mp hfirst l hl) hne
    | some k =>
      obtain ⟨l, hl, hne, hbefore⟩ := State.runningLane_some hfirst
      obtain ⟨u, hu, rfl, ha⟩ := State.exists_focus (s := s.tick) hl
      exact ⟨u, .inr (.inl ⟨hagenda, hidle, k, u.lane, hl, hne, hbefore, hu⟩), turned_of_tick (turned_focus hu), hne,
        ha.trans hagenda⟩
  · exact ⟨s.tick, .inl ⟨hagenda, hidle, rfl⟩, ⟨rfl, rfl, rfl, rfl, rfl, s.time_le_tick, rfl⟩, hidle, hagenda⟩

/-- A step of the acting lane replaces its registers and those of no other lane (R218). -/
theorem State.lanes_eq_set {s t : State} (hb : t.lanesBelow = s.lanesBelow) (ha : t.lanesAbove = s.lanesAbove) :
    t.lanes = s.lanes.set s.lanesBelow.length t.lane := by
  simp [State.lanes, hb, ha]

/-- How many steps at most bring all lanes to their responses. -/
def State.stepsLeft (s : State) : Nat := (s.lanes.map Lane.stepsLeft).sum

theorem State.stepsLeft_le (s : State) : s.stepsLeft ≤ (s.lanes.map fun l => l.srcSize + 6).sum :=
  List.sum_le_sum fun l _ => l.stepsLeft_le

/-- Fewer steps left for the acting lane are fewer for all. -/
theorem State.stepsLeft_lt {s t : State} (hb : t.lanesBelow = s.lanesBelow) (ha : t.lanesAbove = s.lanesAbove)
    (h : t.lane.stepsLeft < s.lane.stepsLeft) : t.stepsLeft < s.stepsLeft := by
  simp only [State.stepsLeft, State.lanes, hb, ha, List.map_append, List.map_cons, List.sum_append, List.sum_cons]
  omega

/-- Without an agenda, while a lane runs, a step of the core is one of a running lane, and fewer are left after it
(R272). -/
theorem Sound.step_stepsLeft {s : State} (h : Sound s) (hagenda : s.agenda = [])
    (hrun : ∃ l ∈ s.lanes, l.state ≠ .idle) :
    ∃ t, step s = .next t ∧ t.stepsLeft < s.stepsLeft ∧ t.agenda = [] ∧ t.host = s.host
      ∧ t.lanes.length = s.lanes.length := by
  obtain ⟨u, hturn, hu, hurun, hua⟩ := State.exists_turnOf hagenda hrun
  obtain ⟨t, ht, hlt⟩ := (h.of_turned hu).laneStep_stepsLeft hurun
  have hf := laneStep_laneFrame ht
  obtain ⟨hul, -, -, -, -, -, huhost⟩ := hu
  have hsteps : u.stepsLeft = s.stepsLeft := by rw [State.stepsLeft, hul, State.stepsLeft]
  refine ⟨t, (step_of_turnOf hturn).trans ht, ?_, hf.agenda.trans hua, hf.host.trans huhost, ?_⟩
  · exact hsteps ▸ State.stepsLeft_lt hf.lanesBelow hf.lanesAbove hlt
  · rw [State.lanes_eq_set hf.lanesBelow hf.lanesAbove, List.length_set, hul]

/-- Without an agenda all commands come to their responses, in no more steps than are left, and the host has not moved
(R272). -/
theorem Sound.coreRun_idle (n : Nat) {s : State} (h : Sound s) (hagenda : s.agenda = []) (hn : s.stepsLeft ≤ n) :
    ∃ k t, k ≤ n ∧ coreRun k s = .next t ∧ (∀ l ∈ t.lanes, l.state = .idle)
      ∧ t.lanes.length = s.lanes.length ∧ t.host = s.host := by
  induction n using Nat.strong_induction_on generalizing s with
  | h n ih =>
    by_cases hidle : ∀ l ∈ s.lanes, l.state = .idle
    · exact ⟨0, s, Nat.zero_le _, rfl, hidle, rfl, rfl⟩
    push Not at hidle
    obtain ⟨u, hu, hlt, hua, huhost, hulen⟩ := h.step_stepsLeft hagenda hidle
    obtain ⟨k, t, hk, hrun, hall, hlen, hhost⟩ := ih u.stepsLeft (by omega) (h.of_step hu) hua (Nat.le_refl _)
    refine ⟨k + 1, t, by omega, ?_, hall, hlen.trans hulen, hhost.trans huhost⟩
    rw [coreRun, hu]
    exact hrun

/-! ### The host's moves and the running lanes (R219, R272) -/

/-- Taking a command replaces the registers of an idle lane, and of no other (R211 (e)). -/
theorem execDecompress_keeps_running {cmd : Command} {s t : State} (h : execDecompress cmd s = .next t) {k : Nat}
    {l : Lane} (hl : s.lanes[k]? = some l) (hrun : l.state ≠ .idle) : t.lanes[k]? = some l := by
  rcases execDecompress_lanes h with rfl | ⟨hacc, -⟩
  · exact hl
  have hkept : t.lanesBelow = s.lanesBelow ∧ t.lanesAbove = s.lanesAbove := by
    rcases execDecompress_next h with rfl | rfl | rfl | ⟨c, rfl⟩ <;> exact ⟨rfl, rfl⟩
  have hne : s.lanesBelow.length ≠ k := by
    rintro rfl
    have hacting : s.lanes[s.lanesBelow.length]? = some s.lane := by simp [State.lanes]
    obtain rfl := Option.some.inj (hacting.symm.trans hl)
    exact hrun hacc.idle
  rw [State.lanes_eq_set hkept.1 hkept.2, List.getElem?_set_ne hne, hl]

/-- A move of the host leaves every register of every running lane as it is (R218, R219, R272). -/
theorem hostStep_keeps_running {s t : State} (h : hostStep s = .next t) {k : Nat} {l : Lane}
    (hl : s.lanes[k]? = some l) (hrun : l.state ≠ .idle) : t.lanes[k]? = some l := by
  cases hostMoved_of_hostStep h with
  | nothing | provide | store => exact hl
  | reset rest hh hidle => exact absurd (hidle l (List.mem_of_getElem? hl)) hrun
  | waits j cmd rest u hh hu hw => rw [(turned_focus hu).1, hl]
  | issue j cmd rest u t hh hu hw ht =>
    exact execDecompress_keeps_running ht (((turned_focus hu).1 ▸ hl :)) hrun

/-- Settles O60: no move of the host touches a running lane, and the steps left, at most S + 6 for each lane, grow fewer
with each step of the core until all lanes are idle. -/
theorem commandsRunToTheirResponse : Obligations.CommandsRunToTheirResponse := by
  refine ⟨fun s t k l h hl hrun => hostStep_keeps_running h hl hrun, fun s hcon hcur hclk hagenda => ?_⟩
  exact Sound.coreRun_idle _ ⟨hcon, hcur, hclk⟩ hagenda s.stepsLeft_le

end Sys2Proof.Machine

namespace Sys2Proof.Machine

/-! ### The canonical form of the memory is kept (log entry 2) -/

/-- The end of a command writes memory only by forgetting the output of a failed one (R216, R240). -/
theorem respond_keeps_wf {s t : State} (hm : s.mem.wf) (h : respond s = .next t) : t.mem.wf := by
  rcases respond_next h with ⟨-, c, -, ⟨-, rfl⟩ | ⟨-, rfl⟩⟩ | ⟨-, rfl⟩
  · exact hm
  · exact deliver_wf (s := updateEffect s.lane.ctx s.lane.vsel (s.time - s.lane.t0) s.lane.dstSize s c) hm
  · exact deliver_wf hm

/-- A step of a lane writes memory in the frame of a decode's step, or at the end of a command. -/
theorem laneStep_keeps_wf {s t : State} (hm : s.mem.wf) (h : laneStep s = .next t) : t.mem.wf := by
  rcases laneStep_cases h with ⟨-, rfl⟩ | ⟨-, -, hf⟩ | ⟨-, hr⟩
  · exact hm
  · exact hf.wf hm
  · exact respond_keeps_wf hm hr

/-- Of the host's moves only a store writes memory (R219). -/
theorem hostStep_keeps_wf {s t : State} (hm : s.mem.wf) (h : hostStep s = .next t) : t.mem.wf := by
  cases hostMoved_of_hostStep h with
  | nothing | provide | reset => exact hm
  | store addr bytes => exact Memory.writeBytes_wf hm addr bytes
  | waits k cmd rest u hh hu =>
    obtain ⟨-, -, hmem, -⟩ := turned_focus hu
    rwa [hmem]
  | issue k cmd rest u t hh hu hw ht =>
    obtain ⟨-, -, hmem, -⟩ := turned_focus hu
    rw [execDecompress_mem ht]
    rwa [hmem]

/-- Settles O54: a step is a move of the host or a step of a lane, and all that either does to memory is to store or
forget bytes, which keeps the canonical form. -/
theorem memoryStaysCanonical : Obligations.MemoryStaysCanonical := by
  intro s t hm hs
  obtain ⟨u, ⟨-, -, hmem, -⟩, hh | hl⟩ := step_cases hs
  · exact hostStep_keeps_wf (hmem ▸ hm) hh
  · exact laneStep_keeps_wf (hmem ▸ hm) hl

/-! ### The invariants right after reset (R38) -/

/-- Where every lane is idle, only the shape of the instance is left of the contracts' invariant. -/
theorem ContractInv.of_forall_idle {s : State} (hp : s.params.wf) (hlanes : s.lanes.length = s.params.nLanes)
    (hctxs : s.ctxs.length = s.params.nCtx) (hidle : ∀ l ∈ s.lanes, l.state = .idle) : ContractInv s :=
  ⟨hp, hlanes, hctxs, fun l hl hrun => absurd (hidle l hl) hrun,
    List.pairwise_of_forall_mem_list fun l hl _ _ hspans =>
      absurd (hidle l hl) ((Lane.holdsSpans_iff l).mp hspans).1⟩

/-- Settles O9: no memory cell is listed, and every lane and every context is in its reset state, where a lane is idle,
its registers fit and its time is 0, and a context's lock is free. -/
theorem resetMeetsInvariants : Obligations.ResetMeetsInvariants := by
  intro p hp
  obtain ⟨-, hn, -⟩ := id hp
  have hlanes := State.resetWith_lanes hn
  have hreset : ∀ l ∈ (State.resetWith p).lanes, l = Lane.reset := fun l hl => List.eq_of_mem_replicate (hlanes ▸ hl)
  have hcontract : ContractInv (State.resetWith p) := by
    refine .of_forall_idle hp ?_ List.length_replicate fun l hl => hreset l hl ▸ rfl
    rw [hlanes]
    exact List.length_replicate
  have hcursors : CursorInv (State.resetWith p) := fun l hl => hreset l hl ▸ Lane.cursorsOk_of_idle rfl
  have hregs : ∀ l ∈ (State.resetWith p).lanes, l.LengthOk ∧ l.Fits := fun l hl =>
    hreset l hl ▸ ⟨Lane.lengthOk_of_idle rfl, Lane.reset_fits⟩
  have hclock : ClockAndLockInv (State.resetWith p) :=
    ⟨fun c hc => List.eq_of_mem_replicate hc ▸ rfl, fun l hl => hreset l hl ▸ BitVec.le_refl _⟩
  have hwf : (State.resetWith p).mem.wf := ⟨.nil, fun _ hc => absurd hc List.not_mem_nil⟩
  exact ⟨hwf, ⟨hcontract, hcursors, hregs⟩, hclock⟩

/-! ### Stream elements out of place (log entry 16) -/

theorem atToken_outOfPlace {s : State} (k : State → Flow) (h : s.lane.state ≠ .readToken) :
    atToken s k = .refused .elementOutOfPlace := if_neg h

theorem atExtension_outOfPlace {s : State} (k : State → State) (h : s.extending ≠ true) :
    atExtension s k = .refused .elementOutOfPlace := if_neg h

/-- A lane reads no extension byte where it is outside an EXTEND loop, or in another step (R153). -/
theorem State.not_extending {s : State} (h : s.lane.inExt = false
    ∨ (s.lane.state ≠ .extendLiteralLength ∧ s.lane.state ≠ .extendMatchLength)) : s.extending ≠ true := by
  intro hext
  obtain ⟨hin, hs⟩ := s.extending_iff.mp hext
  rcases h with hout | hst
  · exact Bool.false_ne_true (hout.symm.trans hin)
  · exact not_or.mpr hst hs

/-- Settles O29: each kind of element is guarded by the `STATE` whose step reads it. -/
theorem elementsOutOfPlaceAreRefused : Obligations.ElementsOutOfPlaceAreRefused := by
  intro s
  refine ⟨fun h b => ?_, fun h off => if_neg h, fun h b => ?_⟩
  · rw [exec_decodeToken, atToken_outOfPlace _ h]
  · rw [Laws.decodeExt_eq]
    split
    · exact atExtension_outOfPlace _ (State.not_extending h)
    · rw [exec_extEnd, atExtension_outOfPlace _ (State.not_extending h)]

/-! ### The advance tables (R126) -/

/-- Settles O17: the printed rows are computed; the two properties are those of the advance for every stride width. -/
theorem advanceTables : Obligations.AdvanceTables :=
  ⟨by decide, by decide, by decide, fun v n hn _ => ⟨(ite_not _ _ _).symm, advance_spec (width v) n hn⟩⟩

end Sys2Proof.Machine

namespace Sys2Proof.Laws

/-! ### The words of the spec's tables (95 sections 4.1 to 4.3) -/

/-- Settles O4: each word is decoded, a token by its two nibbles, an extension byte by whether it is 255, the offset's
two bytes low byte first. -/
theorem specWordsDecode : Obligations.SpecWordsDecode := by
  unfold Obligations.SpecWordsDecode
  simp only [decode, decodeToken_eq, decodeExt_eq]
  decide

end Sys2Proof.Laws
